-- ==== Sys2Proof/Word.lean ====
section
/-!
DEFINITION. The widths of the machine: the 32-bit data word (R5), the byte in which memory is written down,
the 3-bit register field and the 16-bit offset field (R43).
-/

namespace Sys2Proof

/-- Every data value of the pipeline: register, memory word, latch field, program counter (R5). Its signed and
unsigned readings `s(w)` and `u(w)` (R7) are `BitVec.toInt` and `BitVec.toNat`. -/
abbrev Word := BitVec 32

/-- A quarter of a word: the unit in which memory cells are listed (assumption log 4). -/
abbrev Byte := BitVec 8

/-- A register number, the 3-bit fields `rA`, `rB` and `dst3` (R43, R46). -/
abbrev RegNum := BitVec 3

/-- The 16-bit `offsetOrDest` field (R43). -/
abbrev Offset := BitVec 16

end Sys2Proof
end

