-- ==== Sys2Proof/Config.lean ====
section
/-!
DEFINITION. The implementation parameters of R4: what a launch fixes for the whole run. The spec leaves no value
of an instruction open, so there is no free value here.
-/

namespace Sys2Proof

/-- `STALL_FIELDS`, which register fields of the instruction in Decode the load-use check compares
(R4, R65, D9). -/
inductive StallFields where
  /-- the registers the instruction uses: the default -/
  | sources
  /-- both register fields of every word -/
  | allFields
deriving DecidableEq, Repr

/-- The largest memory: "size fixed at load time, ≤ 65536 words" (R4, R31). -/
def Config.maxWords : Nat := 65536

/-- The launch parameters (R4, R27): the image, whose length is `N_MEM` (D6), the register values at reset, which the
spec leaves open (D2), and the stall comparison set (D9). -/
structure Launch where
  image : List Word
  regInit : Vector Word 8
  stallFields : StallFields
deriving DecidableEq, Repr

/-- `N_MEM`, the loaded word count (R4, D6). -/
def Launch.nMem (l : Launch) : Nat := l.image.length

/-- `0 ≤ N_MEM ≤ 65536` (R4); the empty image is legal (R31, D8). -/
def Launch.legal (l : Launch) : Bool := decide (l.nMem ≤ Config.maxWords)

/-- The launch behind `State.reset`: no program, registers zero as in every vector of the spec, and the default
comparison set (assumption log 2: the spec leaves IMAGE and REG_INIT to the launch). -/
def Launch.empty : Launch :=
  { image := [], regInit := Vector.replicate 8 0#32, stallFields := .sources }

end Sys2Proof
end

