-- ==== Sys2Proof/Syntax.lean ====
section
/-!
DEFINITION. The abstract syntax of the 8-opcode ISA: one constructor for each row of the opcode table (R45).
All eight share the one format of R43, so every constructor carries `rA`, `rB` and the 16-bit `offsetOrDest`
field, also where the operation ignores a field: Decode reads both registers of every word (R61), forwarding
compares both slots (R68), and the ALL_FIELDS stall check compares both fields (R65).
-/

namespace Sys2Proof

/-- An instruction: opcode and the three fields of R43, in the order of the encoding (R53). -/
inductive Instr where
  /-- `add A B D` (R80); the destination is the low three bits of `off`. -/
  | add (ra rb : RegNum) (off : Offset)
  /-- `nand A B D` (R81); the destination is the low three bits of `off`. -/
  | nand (ra rb : RegNum) (off : Offset)
  /-- `lw A B off` (R82): base `ra`, destination `rb`. -/
  | lw (ra rb : RegNum) (off : Offset)
  /-- `sw A B off` (R83): base `ra`, data `rb`. -/
  | sw (ra rb : RegNum) (off : Offset)
  /-- `beq A B off` (R84): compares `ra` with `rb`. -/
  | beq (ra rb : RegNum) (off : Offset)
  /-- `jalr A B` (R85): reserved, inert; the fields are decoded and unused. -/
  | jalr (ra rb : RegNum) (off : Offset)
  /-- `halt` (R86); the fields are ignored. -/
  | halt (ra rb : RegNum) (off : Offset)
  /-- `noop` (R87), with all fields zero the bubble; the fields are ignored. -/
  | noop (ra rb : RegNum) (off : Offset)
deriving DecidableEq, Repr

/-- The `regA` field of an instruction (R43). -/
def Instr.ra : Instr → RegNum
  | .add ra _ _ | .nand ra _ _ | .lw ra _ _ | .sw ra _ _
  | .beq ra _ _ | .jalr ra _ _ | .halt ra _ _ | .noop ra _ _ => ra

/-- The `regB` field of an instruction (R43). -/
def Instr.rb : Instr → RegNum
  | .add _ rb _ | .nand _ rb _ | .lw _ rb _ | .sw _ rb _
  | .beq _ rb _ | .jalr _ rb _ | .halt _ rb _ | .noop _ rb _ => rb

/-- The `offsetOrDest` field of an instruction (R43). -/
def Instr.off : Instr → Offset
  | .add _ _ off | .nand _ _ off | .lw _ _ off | .sw _ _ off
  | .beq _ _ off | .jalr _ _ off | .halt _ _ off | .noop _ _ off => off

end Sys2Proof
end

