-- ==== Sys2Proof/WellFormed.lean ====
section
/-!
DEFINITION. What the spec asks of a single instruction of a well-formed program (R48, R104 a, b), each check
under its own name. An instruction that fails one still executes (R48, R85, D21, D12): these are promises of the
program, not conditions of the machine. The promises about whole runs (R104 c, d, e) are in Safety.lean.
-/

namespace Sys2Proof

/-- What is wrong with an instruction of a program that should be well-formed. -/
inductive IllFormed where
  /-- `ADD` or `NAND` with any of bits 15 to 3 of the word set (R48, R104 a). -/
  | destHighBits
  /-- `JALR`, reserved and unimplemented: a program that retires one is not well-formed (R104 b). -/
  | reservedOpcode
deriving DecidableEq, Repr

/-- Bits 15 to 3 of the destination field are zero (R48: "Callers must guarantee the upper 13 bits are zero"). -/
def destClean (off : Offset) : Bool := off >>> 3 == 0#16

/-- The check of one instruction, answering what is wrong by name (R104 a, b). -/
def Instr.check : Instr → Except IllFormed Unit
  | .add _ _ off => if destClean off then .ok () else .error .destHighBits
  | .nand _ _ off => if destClean off then .ok () else .error .destHighBits
  | .lw _ _ _ => .ok ()
  | .sw _ _ _ => .ok ()
  | .beq _ _ _ => .ok ()
  | .jalr _ _ _ => .error .reservedOpcode
  | .halt _ _ _ => .ok ()
  | .noop _ _ _ => .ok ()

/-- The instruction may stand on the retired path of a well-formed program (R104 a, b). -/
def Instr.wellFormed (i : Instr) : Bool :=
  match i.check with
  | .ok _ => true
  | .error _ => false

end Sys2Proof
end

