-- ==== Sys2Proof/Decode.lean ====
section
/-!
DEFINITION. The Instruction Codec: field extraction (R43), the total decoder (R44, R45), rejecting undefined
opcodes by name (R50), and the encoder written from the same table (R53).
-/

namespace Sys2Proof

/-- `op(w) = w[31:22]`, ten bits read unsigned (R43, R55). -/
def op (w : Word) : BitVec 10 := w.extractLsb' 22 10

/-- `rA(w) = w[21:19]` (R43). -/
def rA (w : Word) : RegNum := w.extractLsb' 19 3

/-- `rB(w) = w[18:16]` (R43). -/
def rB (w : Word) : RegNum := w.extractLsb' 16 3

/-- `off16(w) = w[15:0]` (R43). -/
def off16 (w : Word) : Offset := w.extractLsb' 0 16

/-- The low three bits of the offset field, the destination of `ADD` and `NAND` (R48). -/
def lowDest (off : Offset) : RegNum := off.extractLsb' 0 3

/-- `dst3(w) = w[2:0]` (R43). -/
def dst3 (w : Word) : RegNum := w.extractLsb' 0 3

/-- Why the decoder gives no instruction. -/
inductive DecodeError where
  /-- Bits 31 to 22 are 8 to 1023: the word "is treated as raw data" (R50, R55). -/
  | undefinedOpcode (opcode : BitVec 10)
  /-- Fewer than four bytes: every instruction is exactly one 32-bit word (R52). -/
  | tooShort
deriving DecidableEq, Repr

/-- The decoded tuple of R44, given for every word, undefined opcodes included. -/
structure Fields where
  opcode : BitVec 10
  regA : RegNum
  regB : RegNum
  offset16 : Offset
deriving DecidableEq, Repr

/-- `decode(w) = (op(w), rA(w), rB(w), off16(w))`: pure and total (R44). -/
def decodeFields (w : Word) : Fields :=
  { opcode := op w, regA := rA w, regB := rB w, offset16 := off16 w }

/-- Classification of a word by its opcode (R45); every other opcode is undefined, by name (R50). -/
def decode (w : Word) : Except DecodeError Instr :=
  match (op w).toNat with
  | 0 => .ok (.add (rA w) (rB w) (off16 w))
  | 1 => .ok (.nand (rA w) (rB w) (off16 w))
  | 2 => .ok (.lw (rA w) (rB w) (off16 w))
  | 3 => .ok (.sw (rA w) (rB w) (off16 w))
  | 4 => .ok (.beq (rA w) (rB w) (off16 w))
  | 5 => .ok (.jalr (rA w) (rB w) (off16 w))
  | 6 => .ok (.halt (rA w) (rB w) (off16 w))
  | 7 => .ok (.noop (rA w) (rB w) (off16 w))
  | _ => .error (.undefinedOpcode (op w))

/-- The instruction a word stands for, none for an undefined opcode (R44, R50): what every stage of the engine
asks of the word in its latch. -/
def instrOf (w : Word) : Option Instr :=
  match decode w with
  | .ok i => some i
  | .error _ => none

/-- The four bytes of a word, the least significant first. The hardware has no byte order (R34, D17); this one is
the model's (assumption log 4). -/
def wordByte (w : Word) (k : Nat) : Byte := w.extractLsb' (8 * k) 8

/-- The word of four bytes, the least significant first (assumption log 4). -/
def wordOfBytes (b0 b1 b2 b3 : Byte) : Word :=
  (b3.setWidth 32 <<< 24) ||| (b2.setWidth 32 <<< 16) ||| (b1.setWidth 32 <<< 8) ||| b0.setWidth 32

/-- Decoding from a list of bytes: one word is consumed (R52), fewer than four bytes are refused by name. -/
def decodeBytes : List Byte → Except DecodeError (Instr × List Byte)
  | b0 :: b1 :: b2 :: b3 :: rest =>
    match decode (wordOfBytes b0 b1 b2 b3) with
    | .ok i => .ok (i, rest)
    | .error e => .error e
  | _ => .error .tooShort

/-- The bytes of a word as the model lays it out. -/
def bytesOfWord (w : Word) : List Byte := [wordByte w 0, wordByte w 1, wordByte w 2, wordByte w 3]

/-! ## The encoder -/

/-- The opcode of each instruction (R45). -/
def Instr.opcode : Instr → BitVec 10
  | .add _ _ _ => 0
  | .nand _ _ _ => 1
  | .lw _ _ _ => 2
  | .sw _ _ _ => 3
  | .beq _ _ _ => 4
  | .jalr _ _ _ => 5
  | .halt _ _ _ => 6
  | .noop _ _ _ => 7

/-- The encoding table's `(op << 22) | (A << 19) | (B << 16) | f` (R53, R6). -/
def packFields (opcode : BitVec 10) (a b : RegNum) (f : Offset) : Word :=
  (opcode.setWidth 32 <<< 22) ||| (a.setWidth 32 <<< 19) ||| (b.setWidth 32 <<< 16) ||| f.setWidth 32

/-- The word of an instruction (R53). -/
def encode (i : Instr) : Word := packFields i.opcode i.ra i.rb i.off

/-- The bytes of an instruction as the model lays a word out. -/
def encodeBytes (i : Instr) : List Byte := bytesOfWord (encode i)

/-- `NOOP_WORD`: opcode 7, all other fields zero; the bubble encoding (R49). -/
def noopWord : Word := 0x01C00000#32

/-- `HALT_WORD`: opcode 6, fields zero (R49). -/
def haltWord : Word := 0x01800000#32

/-- The decoder's reading of a table word: the low `nbits` bits of `w`, every higher bit zero, laid out as the
bytes of one word and decoded. -/
def decodeTableWord (nbits w : Nat) : Option Instr :=
  match decodeBytes (bytesOfWord (BitVec.ofNat 32 (w % 2 ^ nbits))) with
  | .ok (i, _) => some i
  | .error _ => none

end Sys2Proof
end

