-- ==== Sys2Proof/Machine/State.lean ====
section
/-!
DEFINITION. The state record of R10: program counter, memory, registers, the five stage latches, the cycle counter,
the run status with its fault record, and the sticky flag; the two launch parameters a cycle reads; the reasons a
step can stop; and the reset state (R102).
-/

namespace Sys2Proof.Machine

/-! ## Stage latches (R16 to R20) and their bubbles (R21) -/

/-- Fetch to Decode (R16). -/
structure IFID where
  instr : Word
  pcPlus1 : Word
deriving DecidableEq, Repr

/-- Decode to Execute (R17). -/
structure IDEX where
  instr : Word
  pcPlus1 : Word
  readRegA : Word
  readRegB : Word
  offset : Word
deriving DecidableEq, Repr

/-- Execute to Memory (R18). `aluResult` holds the `BEQ` outcome as 1 or 0 (R15). -/
structure EXMEM where
  instr : Word
  branchTarget : Word
  aluResult : Word
  readRegB : Word
deriving DecidableEq, Repr

/-- Memory to WriteBack (R19). -/
structure MEMWB where
  instr : Word
  writeData : Word
deriving DecidableEq, Repr

/-- WriteBack to Retire (R20). -/
structure WBEND where
  instr : Word
  writeData : Word
deriving DecidableEq, Repr

/-- `BUBBLE_IFID` (R21). -/
def bubbleIFID : IFID := { instr := noopWord, pcPlus1 := 0#32 }

/-- `BUBBLE_IDEX` (R21). -/
def bubbleIDEX : IDEX :=
  { instr := noopWord, pcPlus1 := 0#32, readRegA := 0#32, readRegB := 0#32, offset := 0#32 }

/-- `BUBBLE_EXMEM` (R21). -/
def bubbleEXMEM : EXMEM :=
  { instr := noopWord, branchTarget := 0#32, aluResult := 0#32, readRegB := 0#32 }

/-- `BUBBLE_MEMWB` (R21). -/
def bubbleMEMWB : MEMWB := { instr := noopWord, writeData := 0#32 }

/-- `BUBBLE_WBEND` (R21). -/
def bubbleWBEND : WBEND := { instr := noopWord, writeData := 0#32 }

/-! ## Run status (R23) -/

/-- The run status (R23). -/
inductive Status where
  | running
  | halted
  | faulted
deriving DecidableEq, Repr

/-- The status encoding RUNNING = 0, HALTED = 1, FAULTED = 2 (R23, D13). -/
def Status.code : Status → Nat
  | .running => 0
  | .halted => 1
  | .faulted => 2

/-- What `MemRangeFault` records: the effective address, the faulting word and the `cycles` of the pre-state
(R23, R91). -/
structure FaultRecord where
  addr : Word
  instr : Word
  cycle : Nat
deriving DecidableEq, Repr

/-! ## Memory -/

/-- Memory as cells: the word at address `a` is the bytes at `4 * a` to `4 * a + 3`, least significant first
(assumption log 4). An unlisted byte is 0. -/
abbrev Memory := List Host.Cell

/-- The canonical form from address `lo` on: addresses strictly rising, no cell equal to what an unlisted byte
reads as. -/
def Memory.sortedFrom : Nat → Memory → Bool
  | _, [] => true
  | lo, (a, b) :: t => decide (lo ≤ a) && (b != 0#8) && Memory.sortedFrom (a + 1) t

/-- The canonical form of memory: with it, equal memories are equal lists. -/
def Memory.wf (m : Memory) : Bool := Memory.sortedFrom 0 m

/-- Every listed cell lies in the image of `n` words (R31, R42). -/
def Memory.within (n : Nat) (m : Memory) : Bool := m.all fun c => decide (c.1 < 4 * n)

/-- The bytes of one image word from byte address `a` on, zero bytes left out. -/
def wordCells (a : Nat) (w : Word) : Memory :=
  [(a, wordByte w 0), (a + 1, wordByte w 1), (a + 2, wordByte w 2), (a + 3, wordByte w 3)].filter
    fun c => c.2 != 0#8

/-- The cells of an image laid at "sequential addresses" from word address `a` (R41, R102). -/
def imageCells : Nat → List Word → Memory
  | _, [] => []
  | a, w :: t => wordCells (4 * a) w ++ imageCells (a + 1) t

/-! ## The state record -/

/-- The complete state of the pipeline at a cycle boundary (R10). -/
structure State where
  /-- `N_MEM`, a launch parameter: constant in every run (R4, R42; assumption log 1) -/
  nMem : Nat
  /-- `STALL_FIELDS`, a launch parameter: constant in every run (R4, R65; assumption log 1) -/
  stallFields : StallFields
  /-- the address of the next word Fetch reads (R13) -/
  pc : Word
  /-- the unified memory (R26) -/
  mem : Memory
  /-- the general registers r0 to r7, r0 an ordinary one (R11) -/
  x : Vector Word 8
  ifid : IFID
  idex : IDEX
  exmem : EXMEM
  memwb : MEMWB
  wbend : WBEND
  /-- committed cycles, unbounded (R22) -/
  cycles : Nat
  status : Status
  /-- set only when the status is FAULTED (R23) -/
  fault : Option FaultRecord
  /-- the sticky unsupported-opcode flag (R24) -/
  flagUnsupported : Bool
deriving DecidableEq, Repr

/-- Why a step gives no next state: the run has ended, and "a state whose status is HALTED or FAULTED has no cycle"
(R56, R23). Both are safe: the hardware does nothing there either (assumption log 5). -/
inductive Fault where
  /-- raised by `step` and by every meaning in a HALTED state (R57, R93); safe -/
  | halted
  /-- raised by `step` and by every meaning in a FAULTED state, with the record the run reports (R92); safe -/
  | faulted (record : Option FaultRecord)
deriving DecidableEq, Repr

/-- Why an instruction has no meaning. -/
inductive Refusal where
  /-- raised by an arm of `exec` that has no meaning; no arm of this model is such a one; safe -/
  | notModelled (mnemonic : String)
deriving DecidableEq, Repr

/-! ## Reset -/

/-- The state before cycle 0 of a launch, field by field (R102). -/
def State.launch (l : Launch) : State :=
  { nMem := l.nMem
    stallFields := l.stallFields
    pc := 0#32
    mem := imageCells 0 l.image
    x := l.regInit
    ifid := bubbleIFID
    idex := bubbleIDEX
    exmem := bubbleEXMEM
    memwb := bubbleMEMWB
    wbend := bubbleWBEND
    cycles := 0
    status := .running
    fault := none
    flagUnsupported := false }

/-- Right after reset with no program loaded (R102; assumption log 2 for what the launch leaves open). -/
def State.reset : State := State.launch Launch.empty

end Sys2Proof.Machine
end

