-- ==== Sys2Proof/Machine/Ops.lean ====
section
/-!
DEFINITION. The named operations over memory, registers and run status: byte and word access (R34, R36), the range
check (R32), fetching a word (R33), the register file (R11, R12), and the events that end or mark a run: the halt
(R93), `MemRangeFault` taken (R91, R92) and the unsupported flag (R94). There is no return from any event (R97).
-/

namespace Sys2Proof.Machine

/-! ## Memory cells -/

/-- The byte at a byte address; an unlisted one reads as 0. -/
def readByte : Memory → Nat → Byte
  | [], _ => 0#8
  | (a, b) :: t, n => if a = n then b else readByte t n

/-- A cell put in front of a memory, left out where it equals what an unlisted byte reads as. -/
def consCell (n : Nat) (v : Byte) (m : Memory) : Memory :=
  if v = 0#8 then m else (n, v) :: m

/-- The memory with one byte changed, in canonical form if it was so before. -/
def writeByte : Memory → Nat → Byte → Memory
  | [], n, v => consCell n v []
  | (a, b) :: t, n, v =>
    if n < a then consCell n v ((a, b) :: t)
    else if n = a then consCell n v t
    else (a, b) :: writeByte t n v

/-- The word at word address `a`: every access moves one whole word (R34). -/
def readWord (m : Memory) (a : Nat) : Word :=
  wordOfBytes (readByte m (4 * a)) (readByte m (4 * a + 1)) (readByte m (4 * a + 2)) (readByte m (4 * a + 3))

/-- The memory with the word at word address `a` changed, and no other (R36). -/
def writeWord (m : Memory) (a : Nat) (v : Word) : Memory :=
  writeByte (writeByte (writeByte (writeByte m (4 * a) (wordByte v 0)) (4 * a + 1) (wordByte v 1))
    (4 * a + 2) (wordByte v 2)) (4 * a + 3) (wordByte v 3)

/-- `0 ≤ s(a) < n`: the address read as a signed number lies in a memory of `n` words (R32, D16). -/
def inImage (n : Nat) (a : Word) : Bool := decide (0 ≤ a.toInt ∧ a.toInt < (n : Int))

/-- The address is in range (R32). -/
def State.inRange (s : State) (a : Word) : Bool := inImage s.nMem a

/-- `MemRead(a, 1)` (R8, R34). -/
def State.memRead (s : State) (a : Word) : Word := readWord s.mem a.toNat

/-- `MemWrite(a, 1, v)` (R8, R34). -/
def State.memWrite (s : State) (a v : Word) : State := { s with mem := writeWord s.mem a.toNat v }

/-- `fetchWord(a)`: the word of the image, or `NOOP_WORD` out of range, raising nothing (R33, R60). -/
def State.fetchWord (s : State) (a : Word) : Word := if s.inRange a then s.memRead a else noopWord

/-! ## Registers -/

/-- `x[r]`; register 0 is an ordinary one (R11). -/
def State.readReg (s : State) (r : RegNum) : Word := s.x[r.toNat]'r.isLt

/-- `x[r] <- v`; register 0 is an ordinary one (R11). -/
def State.writeReg (s : State) (r : RegNum) (v : Word) : State :=
  { s with x := s.x.set r.toNat v r.isLt }

/-! ## The sequential program counter -/

/-- `pc <- v` of a sequential effect (R79 to R88). -/
def State.setPc (s : State) (v : Word) : State := { s with pc := v }

/-- `pc <- pc + 1`, modulo 2^32 (R13). -/
def State.advance (s : State) : State := s.setPc (s.pc + 1#32)

/-! ## Events -/

/-- The record of a `MemRangeFault`: address, faulting word, and `cycles` of the pre-state (R91, R73). -/
def State.faultRecord (s : State) (a w : Word) : FaultRecord :=
  { addr := a, instr := w, cycle := s.cycles }

/-- Taking `MemRangeFault`: every field keeps its pre-state value but the status and the record; nothing is saved
and no handler is entered (R92, R90). -/
def State.raiseMemRangeFault (s : State) (r : FaultRecord) : State :=
  { s with status := .faulted, fault := some r }

/-- The halt event: the status becomes HALTED and nothing else changes (R93). -/
def State.haltMachine (s : State) : State := { s with status := .halted }

/-- The unsupported-opcode event: the sticky flag is set and the run continues (R94, R24). -/
def State.markUnsupported (s : State) : State := { s with flagUnsupported := true }

/-- What a state with no further cycle answers (R56, R23): HALTED and FAULTED are terminal (R97). -/
def State.ended? (s : State) : Option Fault :=
  match s.status with
  | .running => none
  | .halted => some .halted
  | .faulted => some (.faulted s.fault)

/-- An effect that only a RUNNING machine has (R56). -/
def State.whenRunning (s : State) (t : State) : Host.Outcome State Fault Refusal :=
  match s.ended? with
  | none => .next t
  | some f => .fault f

end Sys2Proof.Machine
end

