-- ==== Sys2Proof/Machine/Operands.lean ====
section
/-!
DEFINITION. Operand forms: the signed offset (R7, R47), the effective address (R82, R83), the branch target (R84),
the destination of an instruction (R48) and the source fields the load-use check compares (R65).
-/

namespace Sys2Proof.Machine

/-- `sext_32`: the word whose signed value is the two's-complement value of the 16-bit field (R7, R47). -/
def sext32 (v : Offset) : Word := v.signExtend 32

/-- The one addressing mode: offset plus base, modulo 2^32, a word address with no scaling (R47, R66). -/
def effectiveAddress (offset base : Word) : Word := offset + base

/-- `pcPlus1 + offset`, modulo 2^32 (R66, R84). -/
def branchTargetOf (pcPlus1 offset : Word) : Word := pcPlus1 + offset

/-- `dest` of a decoded instruction: the register it writes, none for an opcode that writes none and for an undefined
word (R48). -/
def destOf : Option Instr → Option RegNum
  | some (.add _ _ off) => some (lowDest off)
  | some (.nand _ _ off) => some (lowDest off)
  | some (.lw _ rb _) => some rb
  | some (.sw _ _ _) => none
  | some (.beq _ _ _) => none
  | some (.jalr _ _ _) => none
  | some (.halt _ _ _) => none
  | some (.noop _ _ _) => none
  | none => none

/-- `dest(w)` (R48). -/
def dest (w : Word) : Option RegNum := destOf (instrOf w)

/-- The registers whose values an instruction uses: the SOURCES column of R65 (R46). -/
def usedRegs : Option Instr → List RegNum
  | some (.add ra rb _) => [ra, rb]
  | some (.nand ra rb _) => [ra, rb]
  | some (.lw ra _ _) => [ra]
  | some (.sw ra rb _) => [ra, rb]
  | some (.beq ra rb _) => [ra, rb]
  | some (.jalr _ _ _) => []
  | some (.halt _ _ _) => []
  | some (.noop _ _ _) => []
  | none => []

/-- `srcFields(w)` under each setting of `STALL_FIELDS` (R65): ALL_FIELDS takes both fields of every word. -/
def srcFields (mode : StallFields) (w : Word) : List RegNum :=
  match mode with
  | .sources => usedRegs (instrOf w)
  | .allFields => [rA w, rB w]

end Sys2Proof.Machine
end

