-- ==== Sys2Proof/Machine/Flags.lean ====
section
/-!
DEFINITION. "The hardware has no status flags, condition codes or predicate registers" (R15). What stands here is the
one comparison result, which lives for a cycle in `EXMEM.aluResult`, and the sticky `flagUnsupported` (R24).
-/

namespace Sys2Proof.Machine

/-- The `BEQ` outcome as a word: 1 if equal, 0 if not (R15, R66, R84). -/
def equalFlag (a b : Word) : Word := if a = b then 1#32 else 0#32

/-- The outcome says taken (R70). -/
def flagTaken (r : Word) : Bool := r == 1#32

/-- `unsupported(op(w))`: true exactly for opcode 5 and opcodes 8 and above (R58). -/
def unsupported (w : Word) : Bool := op w == 5#10 || decide (8 ≤ (op w).toNat)

/-- The flag after a cycle that starts with word `w` in WBEND: set by an unsupported opcode, else kept (R58, R24). -/
def stickyUnsupported (flag : Bool) (w : Word) : Bool := flag || unsupported w

end Sys2Proof.Machine
end

