-- ==== Sys2Proof/Machine/Alu.lean ====
section
/-!
DEFINITION. ADD and NAND (spec/41_alu.md): the value each computes in Execute, which the engine's `alu` calls, and the
sequential effect, which `exec` calls (assumption log 6).
-/

namespace Sys2Proof.Machine

/-- `ADD` in Execute: `A + B` modulo 2^32, no overflow signal (R80, R66, D15). -/
def aluAdd (a b : Word) : Word := a + b

/-- `NAND` in Execute: `~(A & B)` on 32 bits (R81, R66). -/
def aluNand (a b : Word) : Word := ~~~(a &&& b)

/-- `ADD`: `x[dst3] <- x[rA] + x[rB]; pc <- pc + 1` (R80). Bits 15 to 3 of the field are ignored (R48, D21). -/
def execAdd (ra rb : RegNum) (off : Offset) (s : State) : Host.Outcome State Fault Refusal :=
  s.whenRunning (s.writeReg (lowDest off) (aluAdd (s.readReg ra) (s.readReg rb))).advance

/-- `NAND`: `x[dst3] <- ~(x[rA] & x[rB]); pc <- pc + 1` (R81). -/
def execNand (ra rb : RegNum) (off : Offset) (s : State) : Host.Outcome State Fault Refusal :=
  s.whenRunning (s.writeReg (lowDest off) (aluNand (s.readReg ra) (s.readReg rb))).advance

end Sys2Proof.Machine
end

