-- ==== Sys2Proof/Machine/Control.lean ====
section
/-!
DEFINITION. BEQ and JALR (spec/43_control.md). `BEQ` is the only control transfer; `JALR` is reserved and inert:
"do not invent jump semantics".
-/

namespace Sys2Proof.Machine

/-- `BEQ` in Execute: 1 if the operands are equal, else 0 (R84, R66). -/
def aluBeq (a b : Word) : Word := equalFlag a b

/-- `BEQ`: `if x[rA] == x[rB]: pc <- pc + 1 + sext_32(off16) else pc <- pc + 1` (R84). The target wraps and may lie
outside the image. -/
def execBeq (ra rb : RegNum) (off : Offset) (s : State) : Host.Outcome State Fault Refusal :=
  s.whenRunning
    (if flagTaken (aluBeq (s.readReg ra) (s.readReg rb)) then s.setPc (branchTargetOf (s.pc + 1#32) (sext32 off))
     else s.advance)

/-- `JALR`: `flagUnsupported <- 1; pc <- pc + 1`; no jump, no link register, no operand used (R85). -/
def execJalr (_ra _rb : RegNum) (_off : Offset) (s : State) : Host.Outcome State Fault Refusal :=
  s.whenRunning s.markUnsupported.advance

end Sys2Proof.Machine
end

