-- ==== Sys2Proof/Machine/Hazard.lean ====
section
/-!
DEFINITION. The Hazard Unit (R63 to R71): the load-use stall condition, the three forwarding sources with their fold,
and the squash condition, all over the pre-state.
-/

namespace Sys2Proof.Machine

/-- The register an `LW` in the word will load; none for every other opcode (R63). -/
def loadDest : Option Instr → Option RegNum
  | some (.lw _ rb _) => some rb
  | some (.add _ _ _) => none
  | some (.nand _ _ _) => none
  | some (.sw _ _ _) => none
  | some (.beq _ _ _) => none
  | some (.jalr _ _ _) => none
  | some (.halt _ _ _) => none
  | some (.noop _ _ _) => none
  | none => none

/-- The load-use condition on two words: `p` is an `LW` whose destination is a source field of `w` (R63). -/
def usesLoaded (fields : StallFields) (p w : Word) : Bool :=
  match loadDest (instrOf p) with
  | some r => (srcFields fields w).contains r
  | none => false

/-- The stall condition: the word in IFID uses what an `LW` in IDEX will load (R63). -/
def State.stalls (s : State) : Bool := usesLoaded s.stallFields s.idex.instr s.ifid.instr

/-- What a forwarding point supplies: a destination and its value, or nothing (R67). -/
abbrev Supply := Option (RegNum × Word)

/-- The oldest point, WBEND: `LW`, `ADD` and `NAND` supply `writeData` (R67 row 1). -/
def wbendSupply (l : WBEND) : Supply :=
  match dest l.instr with
  | some d => some (d, l.writeData)
  | none => none

/-- The middle point, MEMWB: `LW`, `ADD` and `NAND` supply `writeData` (R67 row 2). -/
def memwbSupply (l : MEMWB) : Supply :=
  match dest l.instr with
  | some d => some (d, l.writeData)
  | none => none

/-- The newest point, EXMEM: `ADD` and `NAND` supply `aluResult`; an `LW` there supplies nothing (R67 row 3, D10). -/
def exmemSupply (l : EXMEM) : Supply :=
  match instrOf l.instr with
  | some (.add _ _ off) => some (lowDest off, l.aluResult)
  | some (.nand _ _ off) => some (lowDest off, l.aluResult)
  | some (.lw _ _ _) => none
  | some (.sw _ _ _) => none
  | some (.beq _ _ _) => none
  | some (.jalr _ _ _) => none
  | some (.halt _ _ _) => none
  | some (.noop _ _ _) => none
  | none => none

/-- One point applied to one operand slot: a match replaces the value (R68). -/
def applySupply (r : RegNum) (v : Word) (p : Supply) : Word :=
  match p with
  | some (d, u) => if r = d then u else v
  | none => v

/-- The forwarding fold of one slot, "oldest-to-newest" so that the newest producer wins (R68). -/
def forwardSlot (s : State) (r : RegNum) (v : Word) : Word :=
  [wbendSupply s.wbend, memwbSupply s.memwb, exmemSupply s.exmem].foldl (applySupply r) v

/-- `forward(rA, rB, A0, B0)` for the word in IDEX: both slots, for every opcode (R68, D24). -/
def State.forward (s : State) : Word × Word :=
  (forwardSlot s (rA s.idex.instr) s.idex.readRegA, forwardSlot s (rB s.idex.instr) s.idex.readRegB)

/-- The word is a `BEQ`. -/
def isBeq : Option Instr → Bool
  | some (.beq _ _ _) => true
  | some (.add _ _ _) => false
  | some (.nand _ _ _) => false
  | some (.lw _ _ _) => false
  | some (.sw _ _ _) => false
  | some (.jalr _ _ _) => false
  | some (.halt _ _ _) => false
  | some (.noop _ _ _) => false
  | none => false

/-- The squash condition: a taken `BEQ` in EXMEM (R70). -/
def State.squashes (s : State) : Bool := isBeq (instrOf s.exmem.instr) && flagTaken s.exmem.aluResult

end Sys2Proof.Machine
end

