-- ==== Sys2Proof/Machine/LoadStore.lean ====
section
/-!
DEFINITION. LW and SW (spec/42_loadstore.md): the value Execute computes, the effective address, and the sequential
effect, with the range check before the access (R73).
-/

namespace Sys2Proof.Machine

/-- `LW` in Execute: the effective address (R82, R66). -/
def aluLw (a off : Word) : Word := effectiveAddress off a

/-- `SW` in Execute: the effective address (R83, R66). -/
def aluSw (a off : Word) : Word := effectiveAddress off a

/-- `LW`: `a <- sext_32(off16) + x[rA]`; out of range raises `MemRangeFault`, else `x[rB] <- MemRead(a, 1);
pc <- pc + 1` (R82). -/
def execLw (ra rb : RegNum) (off : Offset) (s : State) : Host.Outcome State Fault Refusal :=
  let a := aluLw (s.readReg ra) (sext32 off)
  s.whenRunning
    (if s.inRange a then (s.writeReg rb (s.memRead a)).advance
     else s.raiseMemRangeFault (s.faultRecord a (encode (.lw ra rb off))))

/-- `SW`: `a <- sext_32(off16) + x[rA]`; out of range raises `MemRangeFault` and writes nothing, else
`MemWrite(a, 1, x[rB]); pc <- pc + 1` (R83). -/
def execSw (ra rb : RegNum) (off : Offset) (s : State) : Host.Outcome State Fault Refusal :=
  let a := aluSw (s.readReg ra) (sext32 off)
  s.whenRunning
    (if s.inRange a then (s.memWrite a (s.readReg rb)).advance
     else s.raiseMemRangeFault (s.faultRecord a (encode (.sw ra rb off))))

end Sys2Proof.Machine
end

