-- ==== Sys2Proof/Machine/System.lean ====
section
/-!
DEFINITION. HALT, NOOP and words of undefined opcode (spec/44_system.md).
-/

namespace Sys2Proof.Machine

/-- `HALT`: stop; the run ends with the current registers and memory (R86). The program counter stays at the
`HALT` (assumption log 7). -/
def execHalt (_ra _rb : RegNum) (_off : Offset) (s : State) : Host.Outcome State Fault Refusal :=
  s.whenRunning s.haltMachine

/-- `NOOP`: `pc <- pc + 1`, whatever the fields (R87). -/
def execNoop (_ra _rb : RegNum) (_off : Offset) (s : State) : Host.Outcome State Fault Refusal :=
  s.whenRunning s.advance

/-- A word with an undefined opcode: `flagUnsupported <- 1; pc <- pc + 1` (R88). It is no instruction, so `exec` has no
arm for it; the interpreter of R79 calls this. -/
def execUndefined (s : State) : Host.Outcome State Fault Refusal :=
  s.whenRunning s.markUnsupported.advance

end Sys2Proof.Machine
end

