-- ==== Sys2Proof/Machine/Stages.lean ====
section
/-!
DEFINITION. The parts of one cycle (R58, R60 to R75). Each takes the pre-state `s`, from which alone it reads, and the
post-state `t` built so far, in which it assigns; a later part's assignment stands (R9, R59).
-/

namespace Sys2Proof.Machine

/-- Flag update: the word in WBEND retires (R58). -/
def flagStage (s t : State) : State :=
  { t with flagUnsupported := stickyUnsupported s.flagUnsupported s.wbend.instr }

/-- Fetch: the next sequential word, always (R60). -/
def fetchStage (s t : State) : State :=
  { t with ifid := { instr := s.fetchWord s.pc, pcPlus1 := s.pc + 1#32 }, pc := s.pc + 1#32 }

/-- Decode: both registers and the offset of every word (R61); the registers are the pre-state's (R62). -/
def decodeStage (s t : State) : State :=
  let w := s.ifid.instr
  { t with idex := { instr := w, pcPlus1 := s.ifid.pcPlus1, readRegA := s.readReg (rA w),
                     readRegB := s.readReg (rB w), offset := sext32 (off16 w) } }

/-- The load-use stall: IFID and `pc` held, a bubble into IDEX (R64). -/
def stallStage (s t : State) : State :=
  if s.stalls then { t with ifid := s.ifid, pc := s.pc, idex := bubbleIDEX } else t

/-- The `alu` table (R66); 0 for an opcode without an ALU operation (D11). -/
def alu (d : Option Instr) (a b off : Word) : Word :=
  match d with
  | some (.add _ _ _) => aluAdd a b
  | some (.nand _ _ _) => aluNand a b
  | some (.lw _ _ _) => aluLw a off
  | some (.sw _ _ _) => aluSw a off
  | some (.beq _ _ _) => aluBeq a b
  | some (.jalr _ _ _) => 0#32
  | some (.halt _ _ _) => 0#32
  | some (.noop _ _ _) => 0#32
  | none => 0#32

/-- Execute, on the forwarded operands (R66, R69). -/
def executeStage (s t : State) : State :=
  let w := s.idex.instr
  let (a, b) := s.forward
  { t with exmem := { instr := w, branchTarget := branchTargetOf s.idex.pcPlus1 s.idex.offset,
                      aluResult := alu (instrOf w) a b s.idex.offset, readRegB := b } }

/-- The squash of a taken `BEQ`: `pc` goes to the target and the three younger slots become bubbles (R70, C1). -/
def squashStage (s t : State) : State :=
  if s.squashes then
    { t with pc := s.exmem.branchTarget, ifid := bubbleIFID, idex := bubbleIDEX, exmem := bubbleEXMEM }
  else t

/-- The word moves on to MEMWB with the value to write back (R72). -/
def passToWriteBack (s t : State) (v : Word) : State :=
  { t with memwb := { instr := s.exmem.instr, writeData := v } }

/-- The Memory stage (R72); the range check precedes the access (R73). -/
def memoryStage (s t : State) : Except FaultRecord State :=
  let w := s.exmem.instr
  let a := s.exmem.aluResult
  match instrOf w with
  | some (.lw _ _ _) =>
    if s.inRange a then .ok (passToWriteBack s t (s.memRead a)) else .error (s.faultRecord a w)
  | some (.sw _ _ _) =>
    if s.inRange a then .ok (passToWriteBack s (t.memWrite a s.exmem.readRegB) 0#32) else .error (s.faultRecord a w)
  | some (.add _ _ _) => .ok (passToWriteBack s t a)
  | some (.nand _ _ _) => .ok (passToWriteBack s t a)
  | some (.beq _ _ _) => .ok (passToWriteBack s t 0#32)
  | some (.jalr _ _ _) => .ok (passToWriteBack s t 0#32)
  | some (.halt _ _ _) => .ok (passToWriteBack s t 0#32)
  | some (.noop _ _ _) => .ok (passToWriteBack s t 0#32)
  | none => .ok (passToWriteBack s t 0#32)

/-- WriteBack-commit: `LW`, `ADD` and `NAND` write their destination; WBEND copies MEMWB (R74). -/
def writeBackStage (s t : State) : State :=
  let t' := match dest s.memwb.instr with
    | some d => t.writeReg d s.memwb.writeData
    | none => t
  { t' with wbend := { instr := s.memwb.instr, writeData := s.memwb.writeData } }

/-- The counter: every committed cycle counts (R75). -/
def countStage (s t : State) : State := { t with cycles := s.cycles + 1 }

/-- The word is a `HALT`. -/
def isHalt : Option Instr → Bool
  | some (.halt _ _ _) => true
  | some (.add _ _ _) => false
  | some (.nand _ _ _) => false
  | some (.lw _ _ _) => false
  | some (.sw _ _ _) => false
  | some (.beq _ _ _) => false
  | some (.jalr _ _ _) => false
  | some (.noop _ _ _) => false
  | none => false

/-- The halt check: a `HALT` in WBEND at the start of the cycle (R57). -/
def State.haltRetires (s : State) : Bool := isHalt (instrOf s.wbend.instr)

end Sys2Proof.Machine
end

