-- ==== Sys2Proof/Machine/Engine.lean ====
section
/-!
DEFINITION. The Cycle Engine: one cycle (R56), in the fixed order of R59, and the machine's one step.
-/

namespace Sys2Proof.Machine

/-- The stages that cannot raise a fault, in order: flag, Fetch, Decode, stall, Execute with forwarding, squash
(R56, R59). -/
def frontStages (s : State) : State :=
  squashStage s (executeStage s (stallStage s (decodeStage s (fetchStage s (flagStage s s)))))

/-- One cycle of a RUNNING state (R56): the halt check first (R57, R96); then every stage; a `MemRangeFault` discards the
whole cycle (R92). -/
def cycle (s : State) : State :=
  if s.haltRetires then s.haltMachine
  else
    match memoryStage s (frontStages s) with
    | .error r => s.raiseMemRangeFault r
    | .ok t => countStage s (writeBackStage s t)

/-- The one step: the cycle of a RUNNING state; a HALTED or FAULTED state has none (R56, R77). -/
def cycleStep (s : State) : Host.Outcome State Fault Refusal := s.whenRunning (cycle s)

/-- The word written where Fetch reads next: at `pc`, the image grown to reach it. It stands for the loader
(R27, assumption log 3). -/
def loadAtPc (s : State) (w : Word) : State :=
  { s with nMem := max s.nMem (s.pc.toNat + 1), mem := writeWord s.mem s.pc.toNat w }

/-- The pipeline with the word in IFID and bubbles ahead of it: what Fetch leaves of a drained pipeline (R60). -/
def enterPipeline (s : State) (w : Word) : State :=
  { s with ifid := { instr := w, pcPlus1 := s.pc + 1#32 }, idex := bubbleIDEX, exmem := bubbleEXMEM,
           memwb := bubbleMEMWB, wbend := bubbleWBEND }

/-- What Execute leaves of the word in EXMEM, with bubbles ahead of it (R61, R66). -/
def executedAlone (s : State) (w : Word) : EXMEM :=
  let d := decodeStage (enterPipeline s w) (enterPipeline s w)
  (executeStage d d).exmem

/-- What the Memory stage leaves of it in MEMWB (R72); a bubble where it faults. -/
def accessedAlone (s : State) (w : Word) : MEMWB :=
  let e := { enterPipeline s w with exmem := executedAlone s w }
  match memoryStage e e with
  | .ok m => m.memwb
  | .error _ => bubbleMEMWB

/-- The word, with its bits from `nbits` up cleared, placed so that the very next cycle fetches it and runs it: in memory
at `pc` for Fetch, and in the three latches whose stages act on the machine (EXMEM for Memory and the squash, MEMWB for
WriteBack, WBEND for retirement) with the data that Decode, Execute and Memory give it there; bubbles elsewhere. An
address that no image can hold (R31) is left alone (assumption log 3). -/
def placeAtPc (s : State) (nbits w : Nat) : State :=
  if inImage Config.maxWords s.pc then
    let v : Word := BitVec.ofNat 32 (w % 2 ^ nbits)
    let p := loadAtPc s v
    { p with
      ifid := bubbleIFID
      idex := bubbleIDEX
      exmem := executedAlone p v
      memwb := accessedAlone p v
      wbend := { instr := v, writeData := (accessedAlone p v).writeData } }
  else s

end Sys2Proof.Machine
end

