-- ==== Sys2Proof/Machine/Dispatch.lean ====
section
/-!
DEFINITION. The meaning of every instruction: its "Sequential effect" line (R79 to R87).
-/

namespace Sys2Proof.Machine

def exec (i : Instr) (s : State) : Host.Outcome State Fault Refusal :=
  match i with
  | .add ra rb off => Sys2Proof.Machine.execAdd ra rb off s
  | .nand ra rb off => Sys2Proof.Machine.execNand ra rb off s
  | .lw ra rb off => Sys2Proof.Machine.execLw ra rb off s
  | .sw ra rb off => Sys2Proof.Machine.execSw ra rb off s
  | .beq ra rb off => Sys2Proof.Machine.execBeq ra rb off s
  | .jalr ra rb off => Sys2Proof.Machine.execJalr ra rb off s
  | .halt ra rb off => Sys2Proof.Machine.execHalt ra rb off s
  | .noop ra rb off => Sys2Proof.Machine.execNoop ra rb off s

end Sys2Proof.Machine
end

