-- ==== Sys2Proof/Machine/Sequential.lean ====
section
/-!
DEFINITION. The sequential interpreter of the ISA (R79): take `w = fetchWord(pc)` and apply the sequential effect of
`w`'s instruction. It is the reference the pipeline is held against; the hardware's own step is the cycle of
Engine.lean.
-/

namespace Sys2Proof.Machine

/-- One step of the interpreter (R79): `exec` of the word at `pc`, or the inert effect of an undefined word (R88). -/
def seqStep (s : State) : Host.Outcome State Fault Refusal :=
  match instrOf (s.fetchWord s.pc) with
  | some i => exec i s
  | none => execUndefined s

/-- `n` steps of the interpreter. -/
def seqRun : Nat → State → Host.Outcome State Fault Refusal
  | 0, s => .next s
  | n + 1, s =>
    match seqStep s with
    | .next t => seqRun n t
    | .fault f => .fault f
    | .refused r => .refused r

end Sys2Proof.Machine
end

