-- ==== Sys2Proof/Machine/Step.lean ====
section
/-!
DEFINITION. The step of the machine: one clock cycle (R30, R56).
-/

namespace Sys2Proof.Machine

/-- One step is one cycle of the engine (R30, R56). -/
def step (s : State) : Host.Outcome State Fault Refusal := cycleStep s

/-- The state whose very next step fetches the given instruction at `pc` and runs it (assumption log 3). -/
def State.withFetchWord (s : State) (nbits w : Nat) : State := placeAtPc s nbits w

end Sys2Proof.Machine
end

