-- ==== Sys2Proof/Machine/Interface.lean ====
section
/-!
DEFINITION. The block's interface (R27 to R30, R101): the launch that may refuse an image, the snapshot of each cycle,
the end-of-run report, and runs bounded by fuel (R29, D23).
-/

namespace Sys2Proof.Machine

/-- Why a launch is refused. -/
inductive LaunchError where
  /-- the image has more than 65536 words: not a legal launch (R4, U12) -/
  | imageTooLarge (words : Nat)
deriving DecidableEq, Repr

/-- The launch: the reset state of a legal image (R27, R102), a refusal by name otherwise (U12). -/
def launch (l : Launch) : Except LaunchError State :=
  if l.legal then .ok (State.launch l) else .error (.imageTooLarge l.nMem)

/-- The mnemonic of a word; none for an undefined opcode, whose spelling the spec leaves open (U15; assumption
log 10). -/
def mnemonicOf : Option Instr → Option String
  | some (.add _ _ _) => some "ADD"
  | some (.nand _ _ _) => some "NAND"
  | some (.lw _ _ _) => some "LW"
  | some (.sw _ _ _) => some "SW"
  | some (.beq _ _ _) => some "BEQ"
  | some (.jalr _ _ _) => some "JALR"
  | some (.halt _ _ _) => some "HALT"
  | some (.noop _ _ _) => some "NOOP"
  | none => none

/-- "opcode mnemonic plus the three decoded fields" of the word in a latch (R28). -/
structure DecodedView where
  mnemonic : Option String
  fields : Fields
deriving DecidableEq, Repr

/-- The decoded view of a word (R28). -/
def viewOf (w : Word) : DecodedView := { mnemonic := mnemonicOf (instrOf w), fields := decodeFields w }

/-- What the block delivers at the start of every cycle: a copy of the pre-state (R28), with the fields that R101 adds
(assumption log 10). -/
structure Snapshot where
  pc : Word
  mem : List Word
  x : Vector Word 8
  ifid : IFID
  idex : IDEX
  exmem : EXMEM
  memwb : MEMWB
  wbend : WBEND
  ifidView : DecodedView
  idexView : DecodedView
  exmemView : DecodedView
  memwbView : DecodedView
  wbendView : DecodedView
  cycles : Nat
  status : Status
  fault : Option FaultRecord
  flagUnsupported : Bool
deriving DecidableEq, Repr

/-- `Snapshot(S)` (R28). -/
def State.snapshot (s : State) : Snapshot :=
  { pc := s.pc
    mem := (List.range s.nMem).map (readWord s.mem)
    x := s.x
    ifid := s.ifid
    idex := s.idex
    exmem := s.exmem
    memwb := s.memwb
    wbend := s.wbend
    ifidView := viewOf s.ifid.instr
    idexView := viewOf s.idex.instr
    exmemView := viewOf s.exmem.instr
    memwbView := viewOf s.memwb.instr
    wbendView := viewOf s.wbend.instr
    cycles := s.cycles
    status := s.status
    fault := s.fault
    flagUnsupported := s.flagUnsupported }

/-- What a cycle emits: the snapshot of its pre-state, before the halt check, so that the final state is delivered too
(R28, R56, D14). A state with no cycle emits nothing. -/
def State.emitted (s : State) : List Snapshot :=
  match s.status with
  | .running => [s.snapshot]
  | .halted => []
  | .faulted => []

/-- The report at the end of the run (R29). -/
inductive Report where
  /-- the committed cycle count and the flag, at a halt (R93) -/
  | halted (cycles : Nat) (flagUnsupported : Bool)
  /-- the fault record and the flag, at a `MemRangeFault` (R91) -/
  | faulted (record : Option FaultRecord) (flagUnsupported : Bool)
deriving DecidableEq, Repr

/-- The report of a final state; a RUNNING state has none (R29). -/
def State.report (s : State) : Option Report :=
  match s.status with
  | .running => none
  | .halted => some (.halted s.cycles s.flagUnsupported)
  | .faulted => some (.faulted s.fault s.flagUnsupported)

/-- The address of the instruction in EXMEM, "which a host may report" of a fault (R91). -/
def State.exmemAddress (s : State) : Word := s.exmem.branchTarget - sext32 (off16 s.exmem.instr) - 1#32

/-- `k` steps of the machine, stopping at the first that gives no next state (R29: the fuel is no part of the
hardware). -/
def runSteps : Nat → State → Host.Outcome State Fault Refusal
  | 0, s => .next s
  | k + 1, s =>
    match step s with
    | .next t => runSteps k t
    | .fault f => .fault f
    | .refused r => .refused r

/-- A run as its host sees it: the snapshots in order, the last state, and its report, none when the fuel ran out
(R28, R29, D23). -/
structure RunResult where
  snapshots : List Snapshot
  final : State
  report : Option Report
deriving DecidableEq, Repr

/-- A run with a cycle limit (R29, D23). -/
def runTrace : Nat → State → RunResult
  | 0, s => { snapshots := [], final := s, report := s.report }
  | k + 1, s =>
    match step s with
    | .next t =>
      let r := runTrace k t
      { r with snapshots := s.emitted ++ r.snapshots }
    | .fault _ => { snapshots := [], final := s, report := s.report }
    | .refused _ => { snapshots := [], final := s, report := s.report }

end Sys2Proof.Machine
end

