-- ==== Sys2Proof/Machine/Retire.lean ====
section
/-!
DEFINITION. Retirement (00_scope.md glossary, R79 a): which latches of a run hold an instruction and which an injected
bubble, and the instructions in the order in which they reach WBEND. The latches alone cannot tell a bubble from a
program's `NOOP` (R49, R87), so the record is kept beside the run; no rule of the machine reads it (assumption log 13).
-/

namespace Sys2Proof.Machine

/-- For each latch, whether it holds an instruction of the program; and of the words in MEMWB and WBEND, whether they are
`BEQ`s that squashed. -/
structure Flight where
  ifid : Bool
  idex : Bool
  exmem : Bool
  memwb : Bool
  wbend : Bool
  memwbTaken : Bool
  wbendTaken : Bool
deriving DecidableEq, Repr

/-- At reset every latch holds a bubble (R102). -/
def Flight.empty : Flight :=
  { ifid := false, idex := false, exmem := false, memwb := false, wbend := false, memwbTaken := false,
    wbendTaken := false }

/-- The record after the step from `s` to `t`: in a committed cycle Fetch brings an instruction in, a stall holds IFID and
injects a bubble (R64), a squash injects three (R70), and every other instruction moves on; a cycle that does not commit
moves nothing (R92, R93). -/
def Flight.next (f : Flight) (s t : State) : Flight :=
  if t.status = .running then
    { ifid := !s.squashes && (!s.stalls || f.ifid)
      idex := !s.squashes && !s.stalls && f.ifid
      exmem := !s.squashes && f.idex
      memwb := f.exmem
      wbend := f.memwb
      memwbTaken := f.exmem && s.squashes
      wbendTaken := f.memwbTaken }
  else f

/-- An instruction that retired: its word, and whether it is a taken `BEQ`. -/
structure Retired where
  word : Word
  taken : Bool
deriving DecidableEq, Repr

/-- "An instruction retires in the cycle at whose start it occupies WBEND": at most one does. -/
def Flight.retires (f : Flight) (s : State) : List Retired :=
  if f.wbend then [{ word := s.wbend.instr, taken := f.wbendTaken }] else []

/-- The instructions that retire in the next `k` cycles, in order. -/
def retired : Nat → Flight → State → List Retired
  | 0, _, _ => []
  | k + 1, f, s =>
    match step s with
    | .next t => f.retires s ++ retired k (f.next s t) t
    | .fault _ => []
    | .refused _ => []

/-- The instructions that retire in the first `k` cycles of a launch. -/
def retiredBy (l : Launch) (k : Nat) : List Retired := retired k .empty (State.launch l)

/-- The number of retired `LW`s whose next retired instruction has the `LW`'s destination in its `srcFields`: `S` of
R110. -/
def loadUses (f : StallFields) : List Retired → Nat
  | r :: r' :: rs => (if usesLoaded f r.word r'.word then 1 else 0) + loadUses f (r' :: rs)
  | [_] => 0
  | [] => 0

/-- The number of retired taken `BEQ`s: `B` of R110. -/
def takenBranches (rs : List Retired) : Nat := rs.countP Retired.taken

end Sys2Proof.Machine
end

