-- ==== Sys2Proof/Safety.lean ====
section
/-!
DEFINITION. What counts as a safe run: the well-formed program of R104 over the launch's own run, the condition on
self-modifying stores (R107, R79 d), and the words in which statements about runs are phrased.
-/

namespace Sys2Proof.Safety

open Sys2Proof.Machine

/-- `s` is reached from a launch by some number of cycles. -/
def Reaches (l : Launch) (s : State) : Prop := ∃ k, runSteps k (State.launch l) = .next s

/-- All five latches hold bubbles: the pipeline is as after reset (R102). -/
def Drained (s : State) : Prop :=
  s.ifid = bubbleIFID ∧ s.idex = bubbleIDEX ∧ s.exmem = bubbleEXMEM ∧ s.memwb = bubbleMEMWB ∧ s.wbend = bubbleWBEND

/-- The address the instruction at `pc` of the interpreter would store to; none when it is no `SW` or its address is out
of range (R83). -/
def storeAddress (s : State) : Option Word :=
  match instrOf (s.fetchWord s.pc) with
  | some (.sw ra _ off) =>
    let a := aluSw (s.readReg ra) (sext32 off)
    if s.inRange a then some a else none
  | _ => none

/-! ## The run of the interpreter (R79) and what the pipeline's timing makes of it (R107, R110) -/

/-- The instruction at `pc` is a `BEQ` that the interpreter takes. -/
def takesBranch (s : State) : Bool :=
  match instrOf (s.fetchWord s.pc) with
  | some (.beq ra rb _) => s.readReg ra == s.readReg rb
  | _ => false

/-- The instruction at `pc` of `s` is an `LW` whose destination is in `srcFields` of the instruction at `pc` of `t`. -/
def loadUsePair (s t : State) : Bool := usesLoaded s.stallFields (s.fetchWord s.pc) (t.fetchWord t.pc)

/-- The cycles that the pipeline loses among the first `n` instructions the interpreter executes from `s` (R109, R110): one
for each `LW` whose next instruction uses its destination, three for each taken `BEQ`. -/
def lostCycles : Nat → State → Nat
  | 0, _ => 0
  | n + 1, s =>
    match seqStep s with
    | .next t =>
      (if takesBranch s then 3 else 0) + (if n ≠ 0 ∧ loadUsePair s t = true then 1 else 0) + lostCycles n t
    | .fault _ => 0
    | .refused _ => 0

/-- The first `n` instructions the interpreter executes, as the pipeline would retire them (R79 a). -/
def seqRetired : Nat → State → List Retired
  | 0, _ => []
  | n + 1, s =>
    match seqStep s with
    | .next t => { word := s.fetchWord s.pc, taken := takesBranch s } :: seqRetired n t
    | .fault _ => []
    | .refused _ => []

/-- R79 d: no `SW` writes a word that the pipeline had already fetched, at or before the store's Memory cycle, on the retired
path. The store of an `SW` lands three cycles after its fetch (R112), and the instruction that the interpreter executes
`d + 1` after it is fetched `d + 1` cycles after it and the cycles lost between (R109) later: it is a stale fetch when these
are at most 3 (R107; assumption log 8). -/
def NoStaleFetch (s : State) : Prop :=
  ∀ i d ti t tm a, seqRun i s = .next ti → storeAddress ti = some a → seqStep ti = .next t → seqRun d t = .next tm →
    tm.status = .running → d + 1 + lostCycles d t ≤ 3 → tm.pc ≠ a

/-- The interpreter stops at a `HALT` with its `n`-th instruction, in state `t` (R79). -/
def SeqHalts (s : State) (n : Nat) (t : State) : Prop := seqRun n s = .next t ∧ t.status = .halted

/-- The interpreter's state after `n` steps, its last one where it stops before. -/
def seqAt : Nat → State → State
  | 0, s => s
  | n + 1, s =>
    match seqStep s with
    | .next t => seqAt n t
    | .fault _ => s
    | .refused _ => s

/-- `w1` of R79 c, "the word that follows [the `HALT`] into the pipeline" (R89), for a `HALT` that is the interpreter's
`n`-th instruction: the word behind it as it stood when it was fetched, which misses the store of the instruction before the
`HALT`, and of the one before that when no cycle is lost between (R107; assumption log 8). -/
def wordBehind (s : State) (n : Nat) : Word :=
  let h := n - 1
  let missed := if lostCycles 2 (seqAt (h - 1) s) = 0 then 2 else 1
  (seqAt (h - missed) s).fetchWord ((seqAt h s).pc + 1#32)

/-- The Memory stage of the word `w` behind a `HALT`, evaluated on the interpreter's final registers (R79 c, R89): the
state after it, or the address of the fault it raises. -/
def behindHalt (w : Word) (t : State) : Except Word State :=
  match instrOf w with
  | some (.sw ra rb off) =>
    let a := aluSw (t.readReg ra) (sext32 off)
    if t.inRange a then .ok (t.memWrite a (t.readReg rb)) else .error a
  | some (.lw ra _ off) =>
    let a := aluLw (t.readReg ra) (sext32 off)
    if t.inRange a then .ok t else .error a
  | _ => .ok t

/-- The program of a launch is well-formed (R104 a to e): on its retired path only well-formed instructions retire, no
access faults (that of the word behind the `HALT` included), no store is fetched too early, and a `HALT` retires. -/
def WellFormedProgram (l : Launch) : Prop :=
  l.legal = true ∧ NoStaleFetch (State.launch l) ∧
  (∀ n t i, seqRun n (State.launch l) = .next t → t.status = .running →
    instrOf (t.fetchWord t.pc) = some i → i.wellFormed = true) ∧
  (∀ n t, seqRun n (State.launch l) = .next t → t.status = .running → instrOf (t.fetchWord t.pc) ≠ none) ∧
  (∃ n t t', SeqHalts (State.launch l) n t ∧ behindHalt (wordBehind (State.launch l) n) t = .ok t')

/-- A run is safe when it never reports a fault and never flags an unsupported opcode (R29, R104). -/
def SafeRun (l : Launch) : Prop :=
  ∀ s, Reaches l s → s.status ≠ .faulted ∧ s.flagUnsupported = false

/-! ## The words of statements about one step -/

/-- The word accesses memory: an `LW` or an `SW` (R37). -/
def isAccess : Option Instr → Bool
  | some (.lw _ _ _) => true
  | some (.sw _ _ _) => true
  | some (.add _ _ _) => false
  | some (.nand _ _ _) => false
  | some (.beq _ _ _) => false
  | some (.jalr _ _ _) => false
  | some (.halt _ _ _) => false
  | some (.noop _ _ _) => false
  | none => false

/-- The conditions under which a cycle commits, on the pre-state alone: RUNNING, no `HALT` in WBEND (R57), and the `LW` or
`SW` in EXMEM, if there is one, in range (R73). -/
def CommitsCycle (s : State) : Prop :=
  s.status = .running ∧ op s.wbend.instr ≠ 6#10 ∧
    (op s.exmem.instr = 2#10 ∨ op s.exmem.instr = 3#10 → s.inRange s.exmem.aluResult = true)

/-- The load-use condition in the spec's words: `(op(p) == LW) and (rB(p) ∈ srcFields(w))` (R63). -/
def LoadUse (s : State) : Prop :=
  op s.idex.instr = 2#10 ∧ rB s.idex.instr ∈ srcFields s.stallFields s.ifid.instr

/-- A taken `BEQ` in EXMEM: `op(EXMEM.instr) == BEQ` and `EXMEM.aluResult == 1` (R70). -/
def TakenBranch (s : State) : Prop := op s.exmem.instr = 4#10 ∧ s.exmem.aluResult = 1#32

/-- The producer point supplies register `r` (R67): an `LW`, `ADD` or `NAND` word whose destination is `r` (R48). -/
def Produces (w : Word) (r : RegNum) : Prop :=
  (op w = 2#10 ∧ rB w = r) ∨ ((op w = 0#10 ∨ op w = 1#10) ∧ dst3 w = r)

/-- The forwarding outcome read newest first: `v` is the operand `r` of the word in IDEX, whose latched value is `v0`
(R67, R68). -/
def OperandIs (s : State) (r : RegNum) (v0 v : Word) : Prop :=
  ((op s.exmem.instr = 0#10 ∨ op s.exmem.instr = 1#10) ∧ dst3 s.exmem.instr = r ∧ v = s.exmem.aluResult) ∨
  (¬ ((op s.exmem.instr = 0#10 ∨ op s.exmem.instr = 1#10) ∧ dst3 s.exmem.instr = r) ∧
    ((Produces s.memwb.instr r ∧ v = s.memwb.writeData) ∨
     (¬ Produces s.memwb.instr r ∧
       ((Produces s.wbend.instr r ∧ v = s.wbend.writeData) ∨ (¬ Produces s.wbend.instr r ∧ v = v0)))))

/-- Every byte of memory reads as before. -/
def SameBytes (s t : State) : Prop := ∀ k, readByte t.mem k = readByte s.mem k

/-- Every register reads as before. -/
def SameRegs (s t : State) : Prop := ∀ q, t.readReg q = s.readReg q

/-- The five latches are as before. -/
def SameLatches (s t : State) : Prop :=
  t.ifid = s.ifid ∧ t.idex = s.idex ∧ t.exmem = s.exmem ∧ t.memwb = s.memwb ∧ t.wbend = s.wbend

/-- The launch parameters are as before (R4, R42). -/
def SameParams (s t : State) : Prop := t.nMem = s.nMem ∧ t.stallFields = s.stallFields

/-- The run status and the fault record are as before (R23). -/
def SameStatus (s t : State) : Prop := t.status = s.status ∧ t.fault = s.fault

/-! ## Invariants -/

/-- Memory is in canonical form, inside the image, and the image is no larger than the spec allows (R31, R42). -/
def MemoryInv (s : State) : Prop :=
  s.mem.wf = true ∧ Memory.within s.nMem s.mem = true ∧ s.nMem ≤ Config.maxWords

/-- "if `op(EXMEM.instr) = LW` then `rB(EXMEM.instr) ∉ srcFields(IDEX.instr)`" with the sets of SOURCES (R78). -/
def LoadUseInv (s : State) : Prop :=
  op s.exmem.instr = 2#10 → rB s.exmem.instr ∉ srcFields .sources s.idex.instr

/-- The record is there exactly in a FAULTED state and says what stands in EXMEM and `cycles`; a HALTED state has its
`HALT` in WBEND (R23, R57, R91, R92). -/
def StatusInv (s : State) : Prop :=
  (s.status ≠ .faulted → s.fault = none) ∧
  (s.status = .faulted →
    s.fault = some { addr := s.exmem.aluResult, instr := s.exmem.instr, cycle := s.cycles } ∧
    (op s.exmem.instr = 2#10 ∨ op s.exmem.instr = 3#10) ∧ s.inRange s.exmem.aluResult = false) ∧
  (s.status = .halted → op s.wbend.instr = 6#10)

/-- What the data fields of the latches can hold: the offset of the word in IDEX (R61); the `BEQ` outcome 0 or 1 (R15), and
0 for an opcode without an ALU operation (R66); 0 for a word that produces nothing (R72, R74). -/
def LatchInv (s : State) : Prop :=
  s.idex.offset = sext32 (off16 s.idex.instr) ∧
  (op s.exmem.instr = 4#10 → s.exmem.aluResult = 0#32 ∨ s.exmem.aluResult = 1#32) ∧
  (5 ≤ (op s.exmem.instr).toNat → s.exmem.aluResult = 0#32) ∧
  (3 ≤ (op s.memwb.instr).toNat → s.memwb.writeData = 0#32) ∧
  (3 ≤ (op s.wbend.instr).toNat → s.wbend.writeData = 0#32)

/-- Two states that differ at most in latch fields no rule reads (R76): the data of a `NOOP` in IFID or IDEX; in EXMEM the
`aluResult` of opcodes 5 and above, the `branchTarget` of a word that is no `BEQ`, the `readRegB` of one that is no `SW`; the
`writeData` of a non-producer. -/
def LiveEq (s t : State) : Prop :=
  SameParams s t ∧ t.pc = s.pc ∧ t.mem = s.mem ∧ t.x = s.x ∧ t.cycles = s.cycles ∧ SameStatus s t ∧
  t.flagUnsupported = s.flagUnsupported ∧
  t.ifid.instr = s.ifid.instr ∧ t.idex.instr = s.idex.instr ∧ t.exmem.instr = s.exmem.instr ∧
  t.memwb.instr = s.memwb.instr ∧ t.wbend.instr = s.wbend.instr ∧
  (op s.ifid.instr ≠ 7#10 → t.ifid = s.ifid) ∧
  (op s.idex.instr ≠ 7#10 → t.idex = s.idex) ∧
  ((op s.exmem.instr).toNat ≤ 4 → t.exmem.aluResult = s.exmem.aluResult) ∧
  (op s.exmem.instr = 4#10 → t.exmem.branchTarget = s.exmem.branchTarget) ∧
  (op s.exmem.instr = 3#10 → t.exmem.readRegB = s.exmem.readRegB) ∧
  ((op s.memwb.instr).toNat ≤ 2 → t.memwb.writeData = s.memwb.writeData) ∧
  ((op s.wbend.instr).toNat ≤ 2 → t.wbend.writeData = s.wbend.writeData)

/-- A latch that holds no instruction of the program holds the bubble's word, and a `BEQ` recorded as taken is one
(R19, R70, R102; assumption log 13). -/
def FlightInv (s : State) (f : Flight) : Prop :=
  (f.ifid = false → s.ifid.instr = noopWord) ∧ (f.idex = false → s.idex.instr = noopWord) ∧
  (f.exmem = false → s.exmem.instr = noopWord) ∧ (f.memwb = false → s.memwb.instr = noopWord) ∧
  (f.wbend = false → s.wbend.instr = noopWord) ∧
  (f.memwbTaken = true → f.memwb = true ∧ op s.memwb.instr = 4#10) ∧
  (f.wbendTaken = true → f.wbend = true ∧ op s.wbend.instr = 4#10)

end Sys2Proof.Safety
end

