-- ==== Sys2Proof/Certificates/Slice0/Obligations.lean ====
section
/-!
DEFINITION. The statements for the provers, from the spec's numbered rules: the codec, the sequential effect of each
instruction (`exec`), the cycle of the engine stage by stage (`step`), its invariants, and the pipeline against the
interpreter.
-/

open Sys2Proof Sys2Proof.Machine Sys2Proof.Safety

/-! ## The codec -/

/-- R43, R45, R53: decoding the word, or the bytes, of any instruction gives the instruction back, and a word that decodes
is the word of what it decodes to. -/
def Obligations.DecodeEncodeAgree : Prop :=
  (∀ i : Instr, decode (encode i) = .ok i) ∧
  (∀ (i : Instr) (rest : List Byte), decodeBytes (encodeBytes i ++ rest) = .ok (i, rest)) ∧
  (∀ (w : Word) (i : Instr), decode w = .ok i → encode i = w)

/-- R45, R50, R55: the words of undefined opcodes are exactly those of opcode 8 or more, and every word with bit 31 set is such
a word. In the spec the codec decodes every word (R44); that `decode` refuses an undefined one by the name of its opcode,
because it is no instruction of the table, is the model's choice (assumption log 11). -/
def Obligations.UndefinedWordsRefusedByName : Prop :=
  ∀ w : Word,
    (8 ≤ (op w).toNat → decode w = .error (.undefinedOpcode (op w))) ∧
    ((op w).toNat < 8 → ∃ i : Instr, decode w = .ok i ∧ i.opcode = op w) ∧
    (w.msb = true → 8 ≤ (op w).toNat)

/-- R6, R7, R43, R47: the fields of a word as numbers, and the signed value of the extended offset. -/
def Obligations.FieldsOfWordAsNumbers : Prop :=
  ∀ w : Word,
    (op w).toNat = w.toNat / 2 ^ 22 ∧
    (rA w).toNat = w.toNat / 2 ^ 19 % 8 ∧
    (rB w).toNat = w.toNat / 2 ^ 16 % 8 ∧
    (off16 w).toNat = w.toNat % 2 ^ 16 ∧
    (dst3 w).toNat = w.toNat % 8 ∧
    (sext32 (off16 w)).toInt =
      if 2 ^ 15 ≤ w.toNat % 2 ^ 16 then ((w.toNat % 2 ^ 16 : Nat) : Int) - 2 ^ 16
      else ((w.toNat % 2 ^ 16 : Nat) : Int)

/-- R49, R53: words written out from the spec's encoding decode to the instructions they stand for. -/
def Obligations.SpecWordsDecode : Prop :=
  decode 0x00090000#32 = .ok (.add 1 1 0) ∧
  decode 0x004A0003#32 = .ok (.nand 1 2 3) ∧
  decode 0x0081FFFF#32 = .ok (.lw 0 1 0xFFFF) ∧
  decode 0x00C10004#32 = .ok (.sw 0 1 4) ∧
  decode 0x0100FFFC#32 = .ok (.beq 0 0 0xFFFC) ∧
  decode 0x014A0000#32 = .ok (.jalr 1 2 0) ∧
  decode 0x01800000#32 = .ok (.halt 0 0 0) ∧
  decode 0x01C00000#32 = .ok (.noop 0 0 0)

/-! ## The sequential effect of each instruction -/

/-- R80, R81, R11: `ADD` and `NAND` complete in every RUNNING state with the value the spec gives in the destination (any
register, r0 included, bits 15 to 3 ignored), `pc + 1`, and nothing else changed. -/
def Obligations.AddNandSequentialEffect : Prop :=
  ∀ (ra rb : RegNum) (off : Offset) (s : State), s.status = .running →
    (∃ t, exec (.add ra rb off) s = .next t ∧
      t.readReg (lowDest off) = s.readReg ra + s.readReg rb ∧ (∀ q, q ≠ lowDest off → t.readReg q = s.readReg q) ∧
      t.pc = s.pc + 1#32 ∧ SameBytes s t ∧ SameLatches s t ∧ SameParams s t ∧ SameStatus s t ∧ t.cycles = s.cycles ∧
      t.flagUnsupported = s.flagUnsupported) ∧
    (∃ t, exec (.nand ra rb off) s = .next t ∧
      t.readReg (lowDest off) = ~~~(s.readReg ra &&& s.readReg rb) ∧
      (∀ q, q ≠ lowDest off → t.readReg q = s.readReg q) ∧
      t.pc = s.pc + 1#32 ∧ SameBytes s t ∧ SameLatches s t ∧ SameParams s t ∧ SameStatus s t ∧ t.cycles = s.cycles ∧
      t.flagUnsupported = s.flagUnsupported)

/-- R82: `LW` with an address in range completes: the register named by `rB` holds the word at the address, `pc + 1`, and
nothing else changes. -/
def Obligations.LwSequentialEffect : Prop :=
  ∀ (ra rb : RegNum) (off : Offset) (s : State), s.status = .running →
    s.inRange (aluLw (s.readReg ra) (sext32 off)) = true →
    ∃ t, exec (.lw ra rb off) s = .next t ∧
      t.readReg rb = readWord s.mem (sext32 off + s.readReg ra).toNat ∧
      (∀ q, q ≠ rb → t.readReg q = s.readReg q) ∧
      t.pc = s.pc + 1#32 ∧ SameBytes s t ∧ SameLatches s t ∧ SameParams s t ∧ SameStatus s t ∧ t.cycles = s.cycles ∧
      t.flagUnsupported = s.flagUnsupported

/-- R83, R36: `SW` with an address in range completes: the word at the address is the data register, every byte outside its
four reads as before, `pc + 1`, and nothing else changes. The canonical form of memory is an invariant
(`MemoryInvKeptByStep`). -/
def Obligations.SwSequentialEffect : Prop :=
  ∀ (ra rb : RegNum) (off : Offset) (s : State), s.status = .running → s.mem.wf = true →
    s.inRange (aluSw (s.readReg ra) (sext32 off)) = true →
    ∃ t, exec (.sw ra rb off) s = .next t ∧
      t.memRead (aluSw (s.readReg ra) (sext32 off)) = s.readReg rb ∧
      aluSw (s.readReg ra) (sext32 off) = sext32 off + s.readReg ra ∧
      (∀ k, k < 4 * (aluSw (s.readReg ra) (sext32 off)).toNat ∨ 4 * (aluSw (s.readReg ra) (sext32 off)).toNat + 3 < k →
        readByte t.mem k = readByte s.mem k) ∧
      SameRegs s t ∧ t.pc = s.pc + 1#32 ∧ SameLatches s t ∧ SameParams s t ∧ SameStatus s t ∧ t.cycles = s.cycles ∧
      t.flagUnsupported = s.flagUnsupported

/-- R82, R83, R32, R91: an `LW` or `SW` whose address is negative or not below `N_MEM`, read as signed, raises
`MemRangeFault`: the status and the record are set and nothing else changes. The spec names neither the interpreter's `pc`
nor its record's `cycle` at a fault: that `pc` stays and that the record takes the unchanged `cycles` is the model's choice
(assumption log 7). -/
def Obligations.LwSwOutOfRangeFault : Prop :=
  ∀ (ra rb : RegNum) (off : Offset) (s : State), s.status = .running →
    ((sext32 off + s.readReg ra).toInt < 0 ∨ (s.nMem : Int) ≤ (sext32 off + s.readReg ra).toInt) →
    exec (.lw ra rb off) s = .next { s with
      status := .faulted,
      fault := some { addr := sext32 off + s.readReg ra, instr := encode (.lw ra rb off), cycle := s.cycles } } ∧
    exec (.sw ra rb off) s = .next { s with
      status := .faulted,
      fault := some { addr := sext32 off + s.readReg ra, instr := encode (.sw ra rb off), cycle := s.cycles } }

/-- R84: `BEQ` completes whatever its target: `pc + 1 + sext_32(off16)` when the two registers are equal, `pc + 1` when not,
and nothing else changes. -/
def Obligations.BeqSequentialEffect : Prop :=
  ∀ (ra rb : RegNum) (off : Offset) (s : State), s.status = .running →
    ∃ t, exec (.beq ra rb off) s = .next t ∧
      (s.readReg ra = s.readReg rb → t.pc = s.pc + 1#32 + sext32 off) ∧
      (s.readReg ra ≠ s.readReg rb → t.pc = s.pc + 1#32) ∧
      SameRegs s t ∧ SameBytes s t ∧ SameLatches s t ∧ SameParams s t ∧ SameStatus s t ∧ t.cycles = s.cycles ∧
      t.flagUnsupported = s.flagUnsupported

/-- R85, R87: `JALR` completes, sets the flag, and neither jumps nor links; `NOOP` completes and only advances `pc`; both
whatever their fields. -/
def Obligations.JalrNoopSequentialEffect : Prop :=
  ∀ (ra rb : RegNum) (off : Offset) (s : State), s.status = .running →
    exec (.jalr ra rb off) s = .next { s with flagUnsupported := true, pc := s.pc + 1#32 } ∧
    exec (.noop ra rb off) s = .next { s with pc := s.pc + 1#32 }

/-- R86: `HALT` completes: the run ends HALTED with the current registers and memory. That `pc` stays at the `HALT` is the
model's choice (assumption log 7). -/
def Obligations.HaltSequentialEffect : Prop :=
  ∀ (ra rb : RegNum) (off : Offset) (s : State), s.status = .running →
    exec (.halt ra rb off) s = .next { s with status := .halted }

/-- R79, R88: the interpreter applies the decoded instruction's effect to the fetched word; an undefined word sets the flag
and advances `pc`. -/
def Obligations.InterpreterStep : Prop :=
  ∀ s : State,
    (∀ i, decode (s.fetchWord s.pc) = .ok i → seqStep s = exec i s) ∧
    (8 ≤ (op (s.fetchWord s.pc)).toNat → s.status = .running →
      seqStep s = .next { s with flagUnsupported := true, pc := s.pc + 1#32 })

/-- R23, R56, R97: a HALTED or FAULTED state has no cycle and executes nothing; that a step there answers a fault of the
interface is the model's choice (assumption log 5). -/
def Obligations.EndedStatesHaveNoCycle : Prop :=
  ∀ s : State,
    (s.status = .halted → step s = .fault .halted ∧ ∀ i, exec i s = .fault .halted) ∧
    (s.status = .faulted → step s = .fault (.faulted s.fault) ∧ ∀ i, exec i s = .fault (.faulted s.fault))

/-! ## One cycle of the engine -/

/-- R56, R77: a RUNNING state has exactly one outcome, a next state: HALTED exactly when `HALT` is in WBEND, RUNNING exactly
when the cycle commits, and FAULTED otherwise. -/
def Obligations.RunningStepHasOneOutcome : Prop :=
  ∀ s : State, s.status = .running →
    ∃ t, step s = .next t ∧ (t.status = .halted ↔ op s.wbend.instr = 6#10) ∧ (t.status = .running ↔ CommitsCycle s)

/-- R57, R93, R96: a `HALT` in WBEND ends the run HALTED (code 1) with nothing else changed, whatever stands in the other
latches; the block reports `cycles` and the flag, and the state is final. -/
def Obligations.HaltCheckEndsRun : Prop :=
  ∀ s : State, s.status = .running → op s.wbend.instr = 6#10 →
    step s = .next { s with status := .halted } ∧ Status.halted.code = 1 ∧
    State.report { s with status := .halted } = some (.halted s.cycles s.flagUnsupported) ∧
    ∀ u, step { s with status := .halted } ≠ .next u

/-- R91, R92: an `LW` or `SW` in EXMEM whose address is out of range discards the whole cycle: only the status (code 2) and
the record change, and the state is final and no halt. -/
def Obligations.FaultDiscardsCycle : Prop :=
  ∀ s : State, s.status = .running → op s.wbend.instr ≠ 6#10 →
    (op s.exmem.instr = 2#10 ∨ op s.exmem.instr = 3#10) →
    (s.exmem.aluResult.toInt < 0 ∨ (s.nMem : Int) ≤ s.exmem.aluResult.toInt) →
    ∃ t, step s = .next t ∧
      t = { s with
        status := .faulted,
        fault := some { addr := s.exmem.aluResult, instr := s.exmem.instr, cycle := s.cycles } } ∧
      Status.faulted.code = 2 ∧
      t.report = some (.faulted t.fault s.flagUnsupported) ∧ ∀ u, step t ≠ .next u

/-- R14: in a committed cycle `pc` becomes the branch target under a taken `BEQ` in EXMEM, else stays under a load-use stall,
else advances by one modulo 2^32; no instruction writes it in any other way. -/
def Obligations.PcInCommittedCycle : Prop :=
  ∀ s : State, CommitsCycle s →
    ∃ t, step s = .next t ∧
      (TakenBranch s → t.pc = s.exmem.branchTarget) ∧
      (¬ TakenBranch s → LoadUse s → t.pc = s.pc) ∧
      (¬ TakenBranch s → ¬ LoadUse s → t.pc = s.pc + 1#32)

/-- R33, R60: with no stall and no squash, Fetch latches the word of the pre-state memory at `pc`, or `NOOP_WORD` where `pc`
is out of range, raising nothing, and `pc` advances: every branch is predicted not taken. -/
def Obligations.FetchStageLatchesWord : Prop :=
  ∀ s : State, CommitsCycle s → ¬ TakenBranch s → ¬ LoadUse s →
    ∃ t, step s = .next t ∧ t.status = .running ∧ t.ifid.pcPlus1 = s.pc + 1#32 ∧ t.pc = s.pc + 1#32 ∧
      (0 ≤ s.pc.toInt ∧ s.pc.toInt < (s.nMem : Int) → t.ifid.instr = readWord s.mem s.pc.toNat) ∧
      (¬ (0 ≤ s.pc.toInt ∧ s.pc.toInt < (s.nMem : Int)) → t.ifid.instr = 0x01C00000#32)

/-- R60, R44: the step at a state whose word at `pc` decodes to `i` takes `i` into the pipeline: the word in IFID after the
cycle decodes to `i`. Its effects follow in the later cycles (`StepsRunDecodedInstruction`). -/
def Obligations.StepTakesDecodedInstruction : Prop :=
  ∀ (s : State) (i : Instr), CommitsCycle s → ¬ TakenBranch s → ¬ LoadUse s → decode (s.fetchWord s.pc) = .ok i →
    ∃ t, step s = .next t ∧ decode t.ifid.instr = .ok i ∧ t.ifid.pcPlus1 = s.pc + 1#32 ∧ t.pc = s.pc + 1#32 ∧
      t.cycles = s.cycles + 1

/-- A word placed with `State.withFetchWord` (the model's own way to place an instruction, assumption log 3) is fetched and
run by the very next step: that step leaves the `pc`, registers, memory, status, fault record and flag that the
instruction's sequential effect (R80 to R87) gives, from every RUNNING state whose `pc` an image can hold (R4). -/
def Obligations.PlacedInstructionRunsAtNextStep : Prop :=
  ∀ (s : State) (i : Instr), s.status = .running → s.pc.toNat < 65536 →
    (s.mem.wf = true → decode ((s.withFetchWord 32 (encode i).toNat).fetchWord s.pc) = .ok i) ∧
    ∃ t u, exec i (s.withFetchWord 32 (encode i).toNat) = .next t ∧ step (s.withFetchWord 32 (encode i).toNat) = .next u ∧
      u.pc = t.pc ∧ u.x = t.x ∧ u.mem = t.mem ∧ SameStatus t u ∧ u.flagUnsupported = t.flagUnsupported ∧ SameParams t u

/-- R61, R62: with no stall and no squash, Decode latches the word of IFID with both registers as the pre-state holds them
(not as WriteBack leaves them in the same cycle) and the extended offset, for every opcode. -/
def Obligations.DecodeStageReadsPreState : Prop :=
  ∀ s : State, CommitsCycle s → ¬ TakenBranch s → ¬ LoadUse s →
    ∃ t, step s = .next t ∧
      t.idex = { instr := s.ifid.instr, pcPlus1 := s.ifid.pcPlus1, readRegA := s.readReg (rA s.ifid.instr),
                 readRegB := s.readReg (rB s.ifid.instr), offset := sext32 (off16 s.ifid.instr) }

/-- R63, R64, R109: a load-use stall holds IFID and `pc`, puts a bubble into IDEX, lets every older instruction move on, and
lasts exactly one cycle: the state after it has no stall, under SOURCES and under ALL_FIELDS. -/
def Obligations.LoadUseStallOneCycle : Prop :=
  ∀ s : State, CommitsCycle s → ¬ TakenBranch s → LoadUse s →
    ∃ t, step s = .next t ∧ t.ifid = s.ifid ∧ t.pc = s.pc ∧ t.idex = bubbleIDEX ∧
      t.exmem.instr = s.idex.instr ∧ t.memwb.instr = s.exmem.instr ∧ t.wbend.instr = s.memwb.instr ∧
      t.cycles = s.cycles + 1 ∧ ¬ LoadUse t

/-- R67, R68: both operand slots of the word in IDEX take the newest producer's
value, an `LW` in EXMEM supplying nothing, and the latched value where no point produces the register. -/
def Obligations.ForwardingNewestProducerWins : Prop :=
  ∀ s : State,
    OperandIs s (rA s.idex.instr) s.idex.readRegA s.forward.1 ∧
    OperandIs s (rB s.idex.instr) s.idex.readRegB s.forward.2

/-- R66, R69: with no squash, Execute latches the word of IDEX with the branch target, the ALU result of its opcode over the
forwarded operands, and the forwarded B as store data. -/
def Obligations.ExecuteStageResult : Prop :=
  ∀ (s : State) (a b : Word), CommitsCycle s → ¬ TakenBranch s →
    OperandIs s (rA s.idex.instr) s.idex.readRegA a → OperandIs s (rB s.idex.instr) s.idex.readRegB b →
    ∃ t, step s = .next t ∧
      t.exmem.instr = s.idex.instr ∧ t.exmem.branchTarget = s.idex.pcPlus1 + s.idex.offset ∧ t.exmem.readRegB = b ∧
      (op s.idex.instr = 0#10 → t.exmem.aluResult = a + b) ∧
      (op s.idex.instr = 1#10 → t.exmem.aluResult = ~~~(a &&& b)) ∧
      (op s.idex.instr = 2#10 ∨ op s.idex.instr = 3#10 → t.exmem.aluResult = s.idex.offset + a) ∧
      (op s.idex.instr = 4#10 → t.exmem.aluResult = if a = b then 1#32 else 0#32) ∧
      (5 ≤ (op s.idex.instr).toNat → t.exmem.aluResult = 0#32)

/-- R70, R71: a taken `BEQ` in EXMEM sends `pc` to its target and turns the three younger slots into bubbles, also when the
load-use stall holds in the same cycle; the `BEQ` itself moves on with no further effect: no byte of memory changes, and a
register only if the word in MEMWB writes it. -/
def Obligations.TakenBranchSquashes : Prop :=
  ∀ s : State, CommitsCycle s → TakenBranch s →
    ∃ t, step s = .next t ∧ t.pc = s.exmem.branchTarget ∧ t.ifid = bubbleIFID ∧ t.idex = bubbleIDEX ∧
      t.exmem = bubbleEXMEM ∧ t.memwb = { instr := s.exmem.instr, writeData := 0#32 } ∧ SameBytes s t ∧
      ∀ q, t.readReg q ≠ s.readReg q → Produces s.memwb.instr q

/-- R72, R36, R37: what the Memory stage of a committed cycle does, by the opcode in EXMEM: an `LW` reads the pre-state
memory, an `SW` changes exactly the addressed word, an `ADD` or `NAND` passes its result on, every other word leaves 0 and
no memory effect; MEMWB takes the word of EXMEM, squash or not. -/
def Obligations.MemoryStageResult : Prop :=
  ∀ s : State, CommitsCycle s → s.mem.wf = true →
    ∃ t, step s = .next t ∧ t.memwb.instr = s.exmem.instr ∧
      (op s.exmem.instr = 2#10 →
        t.memwb.writeData = readWord s.mem s.exmem.aluResult.toNat ∧ SameBytes s t) ∧
      (op s.exmem.instr = 3#10 →
        t.memwb.writeData = 0#32 ∧ t.memRead s.exmem.aluResult = s.exmem.readRegB ∧
        ∀ k, k < 4 * s.exmem.aluResult.toNat ∨ 4 * s.exmem.aluResult.toNat + 3 < k →
          readByte t.mem k = readByte s.mem k) ∧
      (op s.exmem.instr = 0#10 ∨ op s.exmem.instr = 1#10 →
        t.memwb.writeData = s.exmem.aluResult ∧ SameBytes s t) ∧
      (4 ≤ (op s.exmem.instr).toNat → t.memwb.writeData = 0#32 ∧ SameBytes s t)

/-- R74, R12, R11: in a committed cycle the word in MEMWB writes `rB` if it is an `LW`, `dst3` if it is an `ADD` or `NAND` (r0
like any other), and nothing otherwise; no other register changes; WBEND copies MEMWB. -/
def Obligations.WriteBackStageResult : Prop :=
  ∀ s : State, CommitsCycle s →
    ∃ t, step s = .next t ∧ t.wbend.instr = s.memwb.instr ∧ t.wbend.writeData = s.memwb.writeData ∧
      (op s.memwb.instr = 2#10 →
        t.readReg (rB s.memwb.instr) = s.memwb.writeData ∧
        ∀ q, q ≠ rB s.memwb.instr → t.readReg q = s.readReg q) ∧
      (op s.memwb.instr = 0#10 ∨ op s.memwb.instr = 1#10 →
        t.readReg (dst3 s.memwb.instr) = s.memwb.writeData ∧
        ∀ q, q ≠ dst3 s.memwb.instr → t.readReg q = s.readReg q) ∧
      (3 ≤ (op s.memwb.instr).toNat → SameRegs s t)

/-- R75, R22: every committed cycle, stalled or not, counts one; a cycle that halts or faults counts none. -/
def Obligations.CycleCounterCountsCommits : Prop :=
  ∀ s t : State, step s = .next t →
    (CommitsCycle s → t.cycles = s.cycles + 1) ∧ (¬ CommitsCycle s → t.cycles = s.cycles)

/-- R58, R24, R94: a committed cycle that starts with opcode 5 or an opcode of 8 or more in WBEND sets the flag, any other
keeps it, and no step ever clears it; the run continues. -/
def Obligations.UnsupportedFlagAtRetirement : Prop :=
  (∀ s : State, CommitsCycle s →
    ∃ t, step s = .next t ∧ t.status = .running ∧
      (op s.wbend.instr = 5#10 ∨ 8 ≤ (op s.wbend.instr).toNat → t.flagUnsupported = true) ∧
      (¬ (op s.wbend.instr = 5#10 ∨ 8 ≤ (op s.wbend.instr).toNat) → t.flagUnsupported = s.flagUnsupported)) ∧
  (∀ s t : State, step s = .next t → s.flagUnsupported = true → t.flagUnsupported = true)

/-- R85, R86, R87, R88: a `JALR`, a `HALT`, a `NOOP` or an undefined word is inert in every stage: it computes 0 in Execute,
touches no memory and writes 0 in Memory, writes no register in WriteBack, supplies no forwarding point, squashes nothing,
names no source under SOURCES, and never starts a stall. -/
def Obligations.InertWordsInEveryStage : Prop :=
  ∀ (s t : State), CommitsCycle s → step s = .next t →
    (5 ≤ (op s.idex.instr).toNat → ¬ LoadUse s ∧ t.exmem.aluResult = 0#32) ∧
    (5 ≤ (op s.exmem.instr).toNat →
      exmemSupply s.exmem = none ∧ ¬ TakenBranch s ∧ t.memwb.writeData = 0#32 ∧ SameBytes s t) ∧
    (5 ≤ (op s.memwb.instr).toNat → memwbSupply s.memwb = none ∧ SameRegs s t) ∧
    (5 ≤ (op s.wbend.instr).toNat → wbendSupply s.wbend = none) ∧
    (5 ≤ (op s.ifid.instr).toNat → srcFields .sources s.ifid.instr = [])

/-- R65, R46: the source fields of every opcode under each setting. -/
def Obligations.SrcFieldsTable : Prop :=
  ∀ w : Word,
    (op w = 0#10 ∨ op w = 1#10 ∨ op w = 3#10 ∨ op w = 4#10 → srcFields .sources w = [rA w, rB w]) ∧
    (op w = 2#10 → srcFields .sources w = [rA w]) ∧
    (5 ≤ (op w).toNat → srcFields .sources w = []) ∧
    srcFields .allFields w = [rA w, rB w]

/-- R48: the destination of every opcode. -/
def Obligations.DestinationTable : Prop :=
  ∀ w : Word,
    (op w = 2#10 → dest w = some (rB w)) ∧
    (op w = 0#10 ∨ op w = 1#10 → dest w = some (dst3 w)) ∧
    (3 ≤ (op w).toNat → dest w = none)

/-- R12: a register changes in a cycle only when the word in MEMWB has it as its destination, so at most one does. -/
def Obligations.OneRegisterWritePerCycle : Prop :=
  ∀ (s t : State) (q : RegNum), step s = .next t → t.readReg q ≠ s.readReg q →
    Produces s.memwb.instr q ∧ ∀ q', t.readReg q' ≠ s.readReg q' → q' = q

/-- R36, R37: a step changes no byte of memory, or an `SW` stands in EXMEM with an address in range and only the bytes of the
addressed word change. -/
def Obligations.OneWordStorePerCycle : Prop :=
  ∀ s t : State, step s = .next t → s.mem.wf = true →
    SameBytes s t ∨
    (op s.exmem.instr = 3#10 ∧ s.inRange s.exmem.aluResult = true ∧ t.memRead s.exmem.aluResult = s.exmem.readRegB ∧
      ∀ k, k < 4 * s.exmem.aluResult.toNat ∨ 4 * s.exmem.aluResult.toNat + 3 < k →
        readByte t.mem k = readByte s.mem k)

/-- R37, R39: the word an `SW` stores is not seen by the fetch of its own cycle, which reads the pre-state memory, and is seen
by a fetch from the next cycle on. -/
def Obligations.StoreSeenFromNextCycle : Prop :=
  ∀ s : State, CommitsCycle s → s.mem.wf = true → op s.exmem.instr = 3#10 →
    ∃ t, step s = .next t ∧ t.fetchWord s.exmem.aluResult = s.exmem.readRegB ∧
      (¬ LoadUse s → t.ifid.instr = s.fetchWord s.pc)

/-- R62, R67: the value written back in a cycle is not seen by either register read of that cycle, and reaches the reader, in
each operand slot that names the register, by the WBEND forwarding point in the next cycle, unless a newer producer of the
register stands in between. -/
def Obligations.WriteBackReachesReaderByForwarding : Prop :=
  ∀ (s t : State) (r : RegNum), CommitsCycle s → step s = .next t → ¬ TakenBranch s → ¬ LoadUse s →
    Produces s.memwb.instr r →
    t.readReg r = s.memwb.writeData ∧
    (rA s.ifid.instr = r →
      t.idex.readRegA = s.readReg r ∧
      (¬ Produces t.memwb.instr r → ¬ Produces t.exmem.instr r → t.forward.1 = s.memwb.writeData)) ∧
    (rB s.ifid.instr = r →
      t.idex.readRegB = s.readReg r ∧
      (¬ Produces t.memwb.instr r → ¬ Produces t.exmem.instr r → t.forward.2 = s.memwb.writeData))

/-- R4, R42, R23: no step changes the size of memory or the stall setting, and a step that stays RUNNING leaves the record as
it is. -/
def Obligations.ParametersConstant : Prop :=
  ∀ s t : State, step s = .next t → SameParams s t ∧ (t.status = .running → t.fault = s.fault)

/-! ## Invariants that every step keeps -/

/-- R31, R42, R36: every step keeps memory in canonical form, inside the image, and the image within its bound. -/
def Obligations.MemoryInvKeptByStep : Prop :=
  ∀ s t : State, MemoryInv s → step s = .next t → MemoryInv t

/-- Every instruction's sequential effect keeps memory in canonical form, inside the image, and the image within its bound:
R36, R42 for the interpreter of R79. -/
def Obligations.MemoryInvKeptByExec : Prop :=
  ∀ (i : Instr) (s t : State), MemoryInv s → exec i s = .next t → MemoryInv t

/-- R78: the word in IDEX uses no register that an `LW` in EXMEM is about to load; every step keeps it so, under SOURCES and
under ALL_FIELDS. -/
def Obligations.LoadUseInvKeptByStep : Prop :=
  ∀ s t : State, LoadUseInv s → step s = .next t → LoadUseInv t

/-- R23, R57, R91, R92: every step keeps the status and the fault record in agreement with what ended the run. -/
def Obligations.StatusInvKeptByStep : Prop :=
  ∀ s t : State, StatusInv s → step s = .next t → StatusInv t

/-- R15, R61, R66, R72, R74: every step keeps the data fields of the latches as the stages compute them. -/
def Obligations.LatchInvKeptByStep : Prop :=
  ∀ s t : State, LatchInv s → step s = .next t → LatchInv t

/-- R64, R70, R79 a: every step keeps the record of what is in flight in agreement with the latches: a latch without an
instruction holds the bubble's word (assumption log 13). -/
def Obligations.FlightInvKeptByStep : Prop :=
  ∀ (s t : State) (f : Flight), FlightInv s f → step s = .next t → FlightInv t (f.next s t)

/-- R102, R4: all five invariants hold at reset, of every legal launch; that `State.reset` is the launch of the empty image
with zero registers is the model's choice (assumption log 2). -/
def Obligations.InvariantsAtReset : Prop :=
  (∀ l : Launch, l.legal = true →
    MemoryInv (State.launch l) ∧ LoadUseInv (State.launch l) ∧ StatusInv (State.launch l) ∧ LatchInv (State.launch l) ∧
    FlightInv (State.launch l) .empty) ∧
  Launch.empty.legal = true ∧ State.reset = State.launch Launch.empty

/-- R76: the latch fields no rule reads are unobservable: two states that differ in nothing else step alike, and again differ
in nothing else. -/
def Obligations.DeadLatchFieldsUnobservable : Prop :=
  ∀ s s' t : State, LiveEq s s' → step s = .next t → ∃ t', step s' = .next t' ∧ LiveEq t t'

/-- R91, R18: the address of an instruction whose latched offset is its own (`LatchInvKeptByStep`) can be read back from
EXMEM, as a host may report it of a fault. -/
def Obligations.FaultingAddressRecoverable : Prop :=
  ∀ s : State, CommitsCycle s → ¬ TakenBranch s → LatchInv s →
    ∃ t, step s = .next t ∧ t.exmem.instr = s.idex.instr ∧ t.exmemAddress = s.idex.pcPlus1 - 1#32

/-! ## Reset and the interface -/

/-- R102: every field after reset, for every launch. -/
def Obligations.ResetState : Prop :=
  ∀ l : Launch,
    (State.launch l).pc = 0#32 ∧ (State.launch l).nMem = l.image.length ∧
    (∀ (i : Nat) (h : i < l.image.length), readWord (State.launch l).mem i = l.image[i]) ∧
    (State.launch l).x = l.regInit ∧ (State.launch l).stallFields = l.stallFields ∧
    (State.launch l).ifid = { instr := 0x01C00000#32, pcPlus1 := 0#32 } ∧
    (State.launch l).idex = { instr := 0x01C00000#32, pcPlus1 := 0#32, readRegA := 0#32, readRegB := 0#32,
                              offset := 0#32 } ∧
    (State.launch l).exmem = { instr := 0x01C00000#32, branchTarget := 0#32, aluResult := 0#32, readRegB := 0#32 } ∧
    (State.launch l).memwb = { instr := 0x01C00000#32, writeData := 0#32 } ∧
    (State.launch l).wbend = { instr := 0x01C00000#32, writeData := 0#32 } ∧
    (State.launch l).cycles = 0 ∧ (State.launch l).status = .running ∧ (State.launch l).fault = none ∧
    (State.launch l).flagUnsupported = false

/-- R4: a launch is refused exactly when its image has more than 65536 words; the empty image is legal (R31). -/
def Obligations.LaunchRefusesLargeImage : Prop :=
  ∀ l : Launch,
    (l.image.length ≤ 65536 → launch l = .ok (State.launch l)) ∧
    (65536 < l.image.length → launch l = .error (.imageTooLarge l.image.length))

/-- R28, R56: a RUNNING state emits one snapshot, a copy of `pc`, every word of memory, the registers, the latches with their
decoded fields, and `cycles`; a state with no cycle emits none. -/
def Obligations.SnapshotCopiesState : Prop :=
  ∀ s : State,
    (s.status = .running → s.emitted = [s.snapshot]) ∧ (s.status ≠ .running → s.emitted = []) ∧
    s.snapshot.pc = s.pc ∧ s.snapshot.mem.length = s.nMem ∧
    (∀ i, i < s.nMem → s.snapshot.mem[i]? = some (readWord s.mem i)) ∧
    s.snapshot.x = s.x ∧ s.snapshot.ifid = s.ifid ∧ s.snapshot.idex = s.idex ∧ s.snapshot.exmem = s.exmem ∧
    s.snapshot.memwb = s.memwb ∧ s.snapshot.wbend = s.wbend ∧ s.snapshot.cycles = s.cycles ∧
    s.snapshot.ifidView.fields = decodeFields s.ifid.instr ∧ s.snapshot.idexView.fields = decodeFields s.idex.instr ∧
    s.snapshot.exmemView.fields = decodeFields s.exmem.instr ∧
    s.snapshot.memwbView.fields = decodeFields s.memwb.instr ∧ s.snapshot.wbendView.fields = decodeFields s.wbend.instr

/-- R28, R29: a run that reaches HALTED or FAULTED delivers one snapshot for each cycle started, the one that ends the run
included: `cycles + 1` of them; its last state is the final one and its report is that state's. -/
def Obligations.OneSnapshotPerCycle : Prop :=
  ∀ (l : Launch) (k : Nat) (u : State), runSteps k (State.launch l) = .next u → u.status ≠ .running →
    (runTrace k (State.launch l)).snapshots.length = u.cycles + 1 ∧ (runTrace k (State.launch l)).final = u ∧
    (runTrace k (State.launch l)).report = u.report ∧ u.report ≠ none

/-! ## Runs of the pipeline -/

/-- R105, R112: after reset the first five cycles start with a bubble in WBEND; the word at address 0 is in IFID after cycle
0 with the `NOOP` word of a bubble in the four latches ahead of it, and in WBEND at the start of the cycle with `cycles = 5`. -/
def Obligations.WarmUpFourBubbles : Prop :=
  ∀ (l : Launch) (k : Nat) (u : State), runSteps k (State.launch l) = .next u →
    (k < 5 → u.wbend = bubbleWBEND) ∧
    (k = 1 → u.ifid.instr = (State.launch l).fetchWord 0#32 ∧ u.idex.instr = 0x01C00000#32 ∧
      u.exmem = bubbleEXMEM ∧ u.memwb = bubbleMEMWB) ∧
    (k = 5 → u.status = .running → u.cycles = 5 ∧ u.wbend.instr = (State.launch l).fetchWord 0#32)

/-- R79, R112: the steps of the machine run the decoded instruction. From a RUNNING state with bubbles in every latch whose
word at `pc` decodes to `i`, the fourth step performs its Memory stage and the fifth its WriteBack, and they leave what
`exec i` gives: a fault with the same address and word after four steps, else its memory after four, its registers after
five, its `pc` where it branches, its flag after six, and its halt in the sixth. What the words fetched behind it do in
those cycles is theirs. -/
def Obligations.StepsRunDecodedInstruction : Prop :=
  ∀ (s t : State) (i : Instr), s.status = .running → Drained s → decode (s.fetchWord s.pc) = .ok i →
    exec i s = .next t →
    (t.status = .faulted →
      ∃ u r q, runSteps 4 s = .next u ∧ u.status = .faulted ∧ u.fault = some r ∧ t.fault = some q ∧
        r.addr = q.addr ∧ r.instr = q.instr ∧ r.cycle = s.cycles + 3 ∧ u.x = s.x ∧ u.mem = s.mem) ∧
    (t.status ≠ .faulted →
      ∃ u, runSteps 4 s = .next u ∧ u.status = .running ∧ u.mem = t.mem ∧ u.x = s.x ∧ u.memwb.instr = encode i ∧
        u.cycles = s.cycles + 4 ∧
        (∀ ra rb off, i = .beq ra rb off → s.readReg ra = s.readReg rb →
          u.pc = t.pc ∧ u.ifid = bubbleIFID ∧ u.idex = bubbleIDEX ∧ u.exmem = bubbleEXMEM) ∧
        ∀ v, step u = .next v → v.status = .running →
          v.x = t.x ∧ v.wbend.instr = encode i ∧
          (t.status = .halted → step v = .next { v with status := .halted }) ∧
          (t.status = .running → ∀ z, step v = .next z → z.status = .running →
            z.flagUnsupported = t.flagUnsupported))

/-- R89, R57: with a `HALT` in MEMWB, the word behind it performs its Memory stage and no WriteBack: an out-of-range `LW` or
`SW` ends the run FAULTED; else the next two steps end it HALTED with every register unchanged, the word of an in-range
`SW` stored, and no other byte of memory changed. -/
def Obligations.WordBehindHalt : Prop :=
  ∀ s : State, s.status = .running → s.mem.wf = true → op s.memwb.instr = 6#10 → op s.wbend.instr ≠ 6#10 →
    ((op s.exmem.instr = 2#10 ∨ op s.exmem.instr = 3#10) → s.inRange s.exmem.aluResult = false →
      ∃ u, step s = .next u ∧ u.status = .faulted) ∧
    (((op s.exmem.instr = 2#10 ∨ op s.exmem.instr = 3#10) → s.inRange s.exmem.aluResult = true) →
      ∃ u, runSteps 2 s = .next u ∧ u.status = .halted ∧ u.x = s.x ∧ u.cycles = s.cycles + 1 ∧
        (op s.exmem.instr = 3#10 →
          u.memRead s.exmem.aluResult = s.exmem.readRegB ∧
          ∀ k, k < 4 * s.exmem.aluResult.toNat ∨ 4 * s.exmem.aluResult.toNat + 3 < k →
            readByte u.mem k = readByte s.mem k) ∧
        (op s.exmem.instr ≠ 3#10 → SameBytes s u))

/-- R79 a, d: instructions retire in the interpreter's order: under R79's condition on stores (`NoStaleFetch`, assumption log
8), what has retired after `k` cycles is, word by word and with the same taken branches, what the interpreter executes
first; at most one retires in a cycle; and the run that reaches HALTED has retired all of it, the interpreter's stopping
`HALT` last. The record of what retires is the model's own (assumption log 13). -/
def Obligations.InstructionsRetireInOrder : Prop :=
  ∀ (l : Launch) (k : Nat) (u : State), l.legal = true → NoStaleFetch (State.launch l) →
    runSteps k (State.launch l) = .next u →
    retiredBy l k = seqRetired (retiredBy l k).length (State.launch l) ∧
    (retiredBy l k).length ≤ (retiredBy l (k + 1)).length ∧ (retiredBy l (k + 1)).length ≤ (retiredBy l k).length + 1 ∧
    (u.status = .halted → ∃ t, SeqHalts (State.launch l) (retiredBy l k).length t)

/-- R79 b, c, d, R89, R106: under R79's condition that no store comes after the fetch of an instruction it overwrites
(`NoStaleFetch`, assumption log 8), a run of the pipeline that reaches HALTED ends as the sequential interpreter does: the
interpreter stops at a `HALT`, with the same registers and flag, and the pipeline's memory is the interpreter's after one
more effect, the Memory stage of the word behind the `HALT`. That word is `fetchWord(h + 1)` of the interpreter's final
memory, unless one of the two instructions before the `HALT` stores to it. For every legal launch, under both stall
settings. -/
def Obligations.PipelineHaltsAsInterpreter : Prop :=
  ∀ (l : Launch) (k : Nat) (u : State), l.legal = true → NoStaleFetch (State.launch l) →
    runSteps k (State.launch l) = .next u → u.status = .halted →
    ∃ n t t', SeqHalts (State.launch l) n t ∧ t.x = u.x ∧ t.flagUnsupported = u.flagUnsupported ∧
      behindHalt (wordBehind (State.launch l) n) t = .ok t' ∧ t'.mem = u.mem ∧
      ((∀ j, j + 1 < n → n ≤ j + 3 → storeAddress (seqAt j (State.launch l)) ≠ some (t.pc + 1#32)) →
        wordBehind (State.launch l) n = t.fetchWord (t.pc + 1#32))

/-- R79, last part, with its condition d (`NoStaleFetch`, assumption log 8): in a run of the pipeline that faults, from a legal
launch, the faulting word and address are those of the interpreter's faulting instruction, or of the word behind the `HALT`
at which the interpreter stops. -/
def Obligations.PipelineFaultsAsInterpreter : Prop :=
  ∀ (l : Launch) (k : Nat) (u : State) (r : FaultRecord), l.legal = true → NoStaleFetch (State.launch l) →
    runSteps k (State.launch l) = .next u → u.status = .faulted → u.fault = some r →
    ∃ n t, seqRun n (State.launch l) = .next t ∧
      ((t.status = .faulted ∧ ∃ q, t.fault = some q ∧ q.addr = r.addr ∧ q.instr = r.instr) ∨
       (t.status = .halted ∧ behindHalt (wordBehind (State.launch l) n) t = .error r.addr ∧
         r.instr = wordBehind (State.launch l) n))

/-- R110: the cycle count of every run that reaches HALTED, stale fetches included, is `R + 4 + S + 3·B` over the
instructions that retire: their number, one more for each `LW` whose next retired instruction uses its destination, three
more for each taken `BEQ`. -/
def Obligations.CycleCountAtHalt : Prop :=
  ∀ (l : Launch) (k : Nat) (u : State), runSteps k (State.launch l) = .next u → u.status = .halted →
    u.cycles = (retiredBy l k).length + 4 + loadUses l.stallFields (retiredBy l k) + 3 * takenBranches (retiredBy l k)

/-- R110 on the interpreter's run: under the condition of R79 d (`NoStaleFetch`, assumption log 8) the same count is read off
the sequential interpreter, which stops at the `HALT` with its `n`-th instruction. -/
def Obligations.CycleCountFromInterpreter : Prop :=
  ∀ (l : Launch) (k : Nat) (u : State), l.legal = true → NoStaleFetch (State.launch l) →
    runSteps k (State.launch l) = .next u → u.status = .halted →
    ∃ n t, SeqHalts (State.launch l) n t ∧ u.cycles = n + 4 + lostCycles n (State.launch l)

/-- R104, R79: a well-formed program (its condition d is `NoStaleFetch`, assumption log 8) runs safely on the pipeline: no fault is ever reported, the flag is never set, and the
run reaches HALTED. -/
def Obligations.WellFormedProgramRunsSafely : Prop :=
  ∀ l : Launch, WellFormedProgram l →
    SafeRun l ∧ ∃ k u, runSteps k (State.launch l) = .next u ∧ u.status = .halted
end

