-- ==== Sys2Proof/Laws/Decode.lean ====
section
/-!
SUPPORT. The codec: the fields of a packed word, and a word packed again from its fields.
-/

namespace Sys2Proof.Laws

/-- The opcode field of a packed word. -/
theorem op_packFields (o : BitVec 10) (a b : RegNum) (f : Offset) : op (packFields o a b f) = o := by
  apply BitVec.eq_of_getLsbD_eq
  intro i hi
  simp only [op, packFields, BitVec.getLsbD_extractLsb', BitVec.getLsbD_or, BitVec.getLsbD_shiftLeft,
    BitVec.getLsbD_setWidth]
  simp [hi, show ¬ 22 + i < 19 by omega, show ¬ 22 + i < 16 by omega, show 22 + i < 32 by omega, show i < 32 by omega,
    BitVec.getLsbD_of_ge a (22 + i - 19) (by omega), BitVec.getLsbD_of_ge b (22 + i - 16) (by omega),
    BitVec.getLsbD_of_ge f (22 + i) (by omega)]

/-- The `regA` field of a packed word. -/
theorem rA_packFields (o : BitVec 10) (a b : RegNum) (f : Offset) : rA (packFields o a b f) = a := by
  apply BitVec.eq_of_getLsbD_eq
  intro i hi
  simp only [rA, packFields, BitVec.getLsbD_extractLsb', BitVec.getLsbD_or, BitVec.getLsbD_shiftLeft,
    BitVec.getLsbD_setWidth]
  simp [hi, show 19 + i < 22 by omega, show ¬ 19 + i < 16 by omega, show 19 + i < 32 by omega, show i < 32 by omega,
    BitVec.getLsbD_of_ge b (19 + i - 16) (by omega), BitVec.getLsbD_of_ge f (19 + i) (by omega)]

/-- The `regB` field of a packed word. -/
theorem rB_packFields (o : BitVec 10) (a b : RegNum) (f : Offset) : rB (packFields o a b f) = b := by
  apply BitVec.eq_of_getLsbD_eq
  intro i hi
  simp only [rB, packFields, BitVec.getLsbD_extractLsb', BitVec.getLsbD_or, BitVec.getLsbD_shiftLeft,
    BitVec.getLsbD_setWidth]
  simp [hi, show 16 + i < 22 by omega, show 16 + i < 19 by omega, show 16 + i < 32 by omega,
    show i < 32 by omega]

/-- The offset field of a packed word. -/
theorem off16_packFields (o : BitVec 10) (a b : RegNum) (f : Offset) : off16 (packFields o a b f) = f := by
  apply BitVec.eq_of_getLsbD_eq
  intro i hi
  simp only [off16, packFields, BitVec.getLsbD_extractLsb', BitVec.getLsbD_or, BitVec.getLsbD_shiftLeft,
    BitVec.getLsbD_setWidth]
  simp [hi, show i < 22 by omega, show i < 19 by omega, show i < 32 by omega]

/-- "Every bit of the word belongs to a field; there are no unused bits" (R43). -/
theorem packFields_fields (w : Word) : packFields (op w) (rA w) (rB w) (off16 w) = w := by
  apply BitVec.eq_of_getLsbD_eq
  intro i hi
  have h : i < 16 ∨ (16 ≤ i ∧ i < 19) ∨ (19 ≤ i ∧ i < 22) ∨ (22 ≤ i ∧ i < 32) := by omega
  simp only [op, rA, rB, off16, packFields, BitVec.getLsbD_extractLsb', BitVec.getLsbD_or,
    BitVec.getLsbD_shiftLeft, BitVec.getLsbD_setWidth]
  rcases h with h | ⟨h1, h2⟩ | ⟨h1, h2⟩ | ⟨h1, h2⟩
  · simp [h, hi, show i < 22 by omega, show i < 19 by omega]
  · simp [hi, show i < 22 by omega, show i < 19 by omega, show ¬ i < 16 by omega, show i - 16 < 3 by omega,
      show 16 + (i - 16) = i by omega, show i - 16 < 32 by omega]
  · simp [hi, show i < 22 by omega, show ¬ i < 19 by omega, show ¬ i < 16 by omega, show i - 19 < 3 by omega,
      show ¬ i - 16 < 3 by omega, show 19 + (i - 19) = i by omega, show i - 19 < 32 by omega]
  · simp [hi, show ¬ i < 22 by omega, show ¬ i < 19 by omega, show ¬ i < 16 by omega, show i - 22 < 10 by omega,
      show ¬ i - 16 < 3 by omega, show ¬ i - 19 < 3 by omega, show 22 + (i - 22) = i by omega, show i - 22 < 32 by omega]

/-- `dst3` is the low three bits of the offset field (R43, R48). -/
theorem lowDest_off16 (w : Word) : lowDest (off16 w) = dst3 w := by
  apply BitVec.eq_of_getLsbD_eq
  intro i hi
  simp [lowDest, off16, dst3]

/-- A word has an instruction exactly when the decoder accepts it. -/
theorem instrOf_eq_some {w : Word} {i : Instr} : instrOf w = some i ↔ decode w = .ok i := by
  unfold instrOf
  split <;> simp_all

/-! ### The instruction of a word, by its opcode (R45) -/

theorem instrOf_add {w : Word} (h : op w = 0#10) : instrOf w = some (.add (rA w) (rB w) (off16 w)) := by
  simp [instrOf, decode, h]

theorem instrOf_nand {w : Word} (h : op w = 1#10) : instrOf w = some (.nand (rA w) (rB w) (off16 w)) := by
  simp [instrOf, decode, h]

theorem instrOf_lw {w : Word} (h : op w = 2#10) : instrOf w = some (.lw (rA w) (rB w) (off16 w)) := by
  simp [instrOf, decode, h]

theorem instrOf_sw {w : Word} (h : op w = 3#10) : instrOf w = some (.sw (rA w) (rB w) (off16 w)) := by
  simp [instrOf, decode, h]

theorem instrOf_beq {w : Word} (h : op w = 4#10) : instrOf w = some (.beq (rA w) (rB w) (off16 w)) := by
  simp [instrOf, decode, h]

theorem instrOf_jalr {w : Word} (h : op w = 5#10) : instrOf w = some (.jalr (rA w) (rB w) (off16 w)) := by
  simp [instrOf, decode, h]

theorem instrOf_halt {w : Word} (h : op w = 6#10) : instrOf w = some (.halt (rA w) (rB w) (off16 w)) := by
  simp [instrOf, decode, h]

theorem instrOf_noop {w : Word} (h : op w = 7#10) : instrOf w = some (.noop (rA w) (rB w) (off16 w)) := by
  simp [instrOf, decode, h]

theorem instrOf_undefined {w : Word} (h : 8 ≤ (op w).toNat) : instrOf w = none := by
  unfold instrOf decode
  generalize (op w).toNat = n at h
  match n, h with
  | n + 8, _ => rfl

/-- Every word is of one of the eight opcodes or undefined (R44, R45). -/
theorem op_cases (w : Word) :
    op w = 0#10 ∨ op w = 1#10 ∨ op w = 2#10 ∨ op w = 3#10 ∨ op w = 4#10 ∨ op w = 5#10 ∨ op w = 6#10 ∨
      op w = 7#10 ∨ 8 ≤ (op w).toNat := by
  generalize op w = o
  bv_omega

end Sys2Proof.Laws
end

