-- ==== Sys2Proof/Laws/Hazard.lean ====
section
/-!
SUPPORT. The Hazard Unit: what one forwarding point does to one operand slot, what supplies nothing, and when the stall
and the squash hold.
-/

namespace Sys2Proof.Laws

open Sys2Proof.Machine

@[simp] theorem applySupply_none (r : RegNum) (v : Word) : applySupply r v none = v := rfl

theorem applySupply_match (r : RegNum) (v u : Word) : applySupply r v (some (r, u)) = u := by
  simp [applySupply]

theorem applySupply_other {r d : RegNum} (v u : Word) (h : r ≠ d) : applySupply r v (some (d, u)) = v := by
  simp [applySupply, h]

/-- The fold of one slot, point by point, oldest first (R68). -/
theorem forwardSlot_eq (s : State) (r : RegNum) (v : Word) :
    forwardSlot s r v =
      applySupply r (applySupply r (applySupply r v (wbendSupply s.wbend)) (memwbSupply s.memwb))
        (exmemSupply s.exmem) := rfl

/-- A bubble in every later latch forwards nothing. -/
theorem instrOf_noopWord : instrOf noopWord = some (.noop 0 0 0) := by decide

theorem wbendSupply_bubble : wbendSupply bubbleWBEND = none := by decide

theorem memwbSupply_bubble : memwbSupply bubbleMEMWB = none := by decide

theorem exmemSupply_bubble : exmemSupply bubbleEXMEM = none := by decide

/-- When the stall holds, the word in IDEX is an `LW` whose destination the word in IFID names (R63). -/
theorem stalls_cases {s : State} (h : s.stalls = true) :
    ∃ ra rb off, instrOf s.idex.instr = some (.lw ra rb off) ∧ rb ∈ srcFields s.stallFields s.ifid.instr := by
  unfold State.stalls usesLoaded at h
  cases hi : instrOf s.idex.instr with
  | none => rw [hi] at h; cases h
  | some i =>
    rw [hi] at h
    cases i with
    | lw ra rb off => exact ⟨ra, rb, off, rfl, by simpa [loadDest] using h⟩
    | _ => cases h

/-- When the squash holds, the word in EXMEM is a `BEQ` whose outcome is 1 (R70). -/
theorem squashes_cases {s : State} (h : s.squashes = true) :
    ∃ ra rb off, instrOf s.exmem.instr = some (.beq ra rb off) ∧ s.exmem.aluResult = 1#32 := by
  unfold State.squashes at h
  rw [Bool.and_eq_true] at h
  cases hi : instrOf s.exmem.instr with
  | none => rw [hi] at h; cases h.1
  | some i =>
    rw [hi] at h
    cases i with
    | beq ra rb off => exact ⟨ra, rb, off, rfl, by simpa [flagTaken] using h.2⟩
    | _ => cases h.1

/-- Reading a register just written. -/
theorem readReg_writeReg_same (s : State) (r : RegNum) (v : Word) : (s.writeReg r v).readReg r = v := by
  simp [State.readReg, State.writeReg]

/-- Reading another register than the one just written. -/
theorem readReg_writeReg_other (s : State) {r q : RegNum} (v : Word) (h : q ≠ r) :
    (s.writeReg r v).readReg q = s.readReg q := by
  have : r.toNat ≠ q.toNat := fun e => h (BitVec.eq_of_toNat_eq e.symm)
  simp [State.readReg, State.writeReg, Vector.getElem_set_ne _ _ this]

end Sys2Proof.Laws
end

