-- ==== Sys2Proof/Laws/Memory.lean ====
section
/-!
SUPPORT. Memory: the canonical form is kept by every operation, a byte read after a write, a word read after a write,
and the cells of an image.
-/

namespace Sys2Proof.Laws

open Sys2Proof.Machine

/-! ### The canonical form -/

theorem sortedFrom_mono {lo lo' : Nat} {m : Memory} (h : Memory.sortedFrom lo m = true) (hl : lo' ≤ lo) :
    Memory.sortedFrom lo' m = true := by
  cases m with
  | nil => rfl
  | cons c t =>
    simp only [Memory.sortedFrom, Bool.and_eq_true, decide_eq_true_eq] at h ⊢
    exact ⟨⟨by omega, h.1.2⟩, h.2⟩

theorem sortedFrom_consCell {lo n : Nat} {v : Byte} {m : Memory} (hn : lo ≤ n)
    (h : Memory.sortedFrom (n + 1) m = true) : Memory.sortedFrom lo (consCell n v m) = true := by
  unfold consCell
  split
  · exact sortedFrom_mono h (by omega)
  · simp [Memory.sortedFrom, *]

/-- Writing a byte keeps the canonical form. -/
theorem sortedFrom_writeByte {lo n : Nat} {v : Byte} {m : Memory} (hn : lo ≤ n)
    (h : Memory.sortedFrom lo m = true) : Memory.sortedFrom lo (writeByte m n v) = true := by
  induction m generalizing lo with
  | nil => exact sortedFrom_consCell hn rfl
  | cons c t ih =>
    obtain ⟨a, b⟩ := c
    simp only [Memory.sortedFrom, Bool.and_eq_true, decide_eq_true_eq] at h
    simp only [writeByte]
    split
    · refine sortedFrom_consCell hn ?_
      simp only [Memory.sortedFrom, Bool.and_eq_true, decide_eq_true_eq]
      exact ⟨⟨by omega, h.1.2⟩, h.2⟩
    · split
      · next h1 h2 => subst h2; exact sortedFrom_consCell hn h.2
      · simp only [Memory.sortedFrom, Bool.and_eq_true, decide_eq_true_eq]
        exact ⟨⟨h.1.1, h.1.2⟩, ih (by omega) h.2⟩

theorem wf_writeByte {m : Memory} {n : Nat} {v : Byte} (h : m.wf = true) : (writeByte m n v).wf = true :=
  sortedFrom_writeByte (Nat.zero_le n) h

/-- Writing a word keeps the canonical form. -/
theorem wf_writeWord {m : Memory} {a : Nat} {v : Word} (h : m.wf = true) : (writeWord m a v).wf = true :=
  wf_writeByte (wf_writeByte (wf_writeByte (wf_writeByte h)))

/-! ### Staying inside the image -/

theorem within_consCell {k n : Nat} {v : Byte} {m : Memory} (hn : n < 4 * k) (h : Memory.within k m = true) :
    Memory.within k (consCell n v m) = true := by
  unfold consCell
  split
  · exact h
  · simp only [Memory.within, List.all_cons, Bool.and_eq_true, decide_eq_true_eq]
    exact ⟨hn, h⟩

/-- A byte written inside the image leaves every cell inside it. -/
theorem within_writeByte {k n : Nat} {v : Byte} {m : Memory} (hn : n < 4 * k) (h : Memory.within k m = true) :
    Memory.within k (writeByte m n v) = true := by
  induction m with
  | nil => exact within_consCell hn h
  | cons c t ih =>
    obtain ⟨a, b⟩ := c
    have h' := h
    simp only [Memory.within, List.all_cons, Bool.and_eq_true, decide_eq_true_eq] at h'
    simp only [writeByte]
    split
    · exact within_consCell hn h
    · split
      · exact within_consCell hn h'.2
      · simp only [Memory.within, List.all_cons, Bool.and_eq_true, decide_eq_true_eq]
        exact ⟨h'.1, ih h'.2⟩

/-- A word written inside the image leaves every cell inside it. -/
theorem within_writeWord {k a : Nat} {v : Word} {m : Memory} (ha : a < k) (h : Memory.within k m = true) :
    Memory.within k (writeWord m a v) = true :=
  within_writeByte (by omega) (within_writeByte (by omega) (within_writeByte (by omega)
    (within_writeByte (by omega) h)))

/-- A larger image holds every cell a smaller one does. -/
theorem within_mono {j k : Nat} {m : Memory} (hjk : j ≤ k) (h : Memory.within j m = true) :
    Memory.within k m = true := by
  simp only [Memory.within, List.all_eq_true, decide_eq_true_eq] at h ⊢
  intro c hc
  have := h c hc
  omega

/-! ### Reading bytes -/

/-- Below the first listed cell every byte reads as 0. -/
theorem readByte_below {lo n : Nat} {m : Memory} (h : Memory.sortedFrom lo m = true) (hn : n < lo) :
    readByte m n = 0#8 := by
  induction m generalizing lo with
  | nil => rfl
  | cons c t ih =>
    obtain ⟨a, b⟩ := c
    simp only [Memory.sortedFrom, Bool.and_eq_true, decide_eq_true_eq] at h
    simp only [readByte]
    rw [if_neg (by omega)]
    exact ih h.2 (by omega)

theorem readByte_consCell {n k : Nat} {v : Byte} {m : Memory} (h : Memory.sortedFrom (n + 1) m = true) :
    readByte (consCell n v m) k = if k = n then v else readByte m k := by
  unfold consCell
  split
  · next hv =>
    split
    · next hk => subst hk; rw [hv]; exact readByte_below h (by omega)
    · rfl
  · simp only [readByte, eq_comm]

/-- What a byte reads as after one byte is written. -/
theorem readByte_writeByte {m : Memory} {lo n k : Nat} {v : Byte} (h : Memory.sortedFrom lo m = true) :
    readByte (writeByte m n v) k = if k = n then v else readByte m k := by
  induction m generalizing lo with
  | nil => exact readByte_consCell rfl
  | cons c t ih =>
    obtain ⟨a, b⟩ := c
    have h' := h
    simp only [Memory.sortedFrom, Bool.and_eq_true, decide_eq_true_eq] at h'
    simp only [writeByte]
    split
    · refine readByte_consCell ?_
      simp only [Memory.sortedFrom, Bool.and_eq_true, decide_eq_true_eq]
      exact ⟨⟨by omega, h'.1.2⟩, h'.2⟩
    · split
      · next h1 h2 =>
        subst h2
        rw [readByte_consCell h'.2]
        by_cases hk : k = n
        · simp [hk]
        · have : ¬ n = k := fun e => hk e.symm
          simp [readByte, hk, this]
      · next h1 h2 =>
        simp only [readByte]
        rw [ih h'.2]
        by_cases hk : k = n
        · have : ¬ a = k := by omega
          simp [hk]
          omega
        · simp [hk]

/-! ### Reading words -/

/-- The bytes of a word put together again give the word. -/
theorem wordOfBytes_wordByte (w : Word) :
    wordOfBytes (wordByte w 0) (wordByte w 1) (wordByte w 2) (wordByte w 3) = w := by
  apply BitVec.eq_of_getLsbD_eq
  intro i hi
  have h8 : i < 8 ∨ (8 ≤ i ∧ i < 16) ∨ (16 ≤ i ∧ i < 24) ∨ (24 ≤ i ∧ i < 32) := by omega
  rcases h8 with h | ⟨h1, h2⟩ | ⟨h1, h2⟩ | ⟨h1, h2⟩ <;>
    simp only [wordOfBytes, wordByte, BitVec.getLsbD_or, BitVec.getLsbD_shiftLeft, BitVec.getLsbD_setWidth,
      BitVec.getLsbD_extractLsb'] <;>
    simp [show i < 32 from hi, *] <;>
    (try grind)

/-- A byte of memory outside the four of the written word reads as before. -/
theorem readByte_writeWord_outside {m : Memory} {a k : Nat} {v : Word} (h : m.wf = true)
    (hk : k < 4 * a ∨ 4 * a + 3 < k) : readByte (writeWord m a v) k = readByte m k := by
  unfold writeWord
  rw [readByte_writeByte (lo := 0) (wf_writeByte (wf_writeByte (wf_writeByte h))),
    readByte_writeByte (lo := 0) (wf_writeByte (wf_writeByte h)), readByte_writeByte (lo := 0) (wf_writeByte h),
    readByte_writeByte (lo := 0) h, if_neg (by omega), if_neg (by omega), if_neg (by omega), if_neg (by omega)]

/-- The word just written is read back. -/
theorem readWord_writeWord_same {m : Memory} {a : Nat} {v : Word} (h : m.wf = true) :
    readWord (writeWord m a v) a = v := by
  have e : ∀ k, readByte (writeWord m a v) k = if k = 4 * a + 3 then wordByte v 3 else
      if k = 4 * a + 2 then wordByte v 2 else if k = 4 * a + 1 then wordByte v 1 else
      if k = 4 * a then wordByte v 0 else readByte m k := by
    intro k
    unfold writeWord
    rw [readByte_writeByte (lo := 0) (wf_writeByte (wf_writeByte (wf_writeByte h))),
      readByte_writeByte (lo := 0) (wf_writeByte (wf_writeByte h)), readByte_writeByte (lo := 0) (wf_writeByte h),
      readByte_writeByte (lo := 0) h]
  unfold readWord
  rw [e, e, e, e]
  simpa using wordOfBytes_wordByte v

/-- Every other word is read as before. -/
theorem readWord_writeWord_other {m : Memory} {a b : Nat} {v : Word} (h : m.wf = true) (hab : b ≠ a) :
    readWord (writeWord m a v) b = readWord m b := by
  unfold readWord
  rw [readByte_writeWord_outside h (by omega), readByte_writeWord_outside h (by omega),
    readByte_writeWord_outside h (by omega), readByte_writeWord_outside h (by omega)]

/-! ### Equal memories are equal data -/

theorem sortedFrom_ext {lo : Nat} {m n : Memory} (hm : Memory.sortedFrom lo m = true)
    (hn : Memory.sortedFrom lo n = true) (h : ∀ k, readByte m k = readByte n k) : m = n := by
  induction m generalizing lo n with
  | nil =>
    cases n with
    | nil => rfl
    | cons d u =>
      obtain ⟨a', b'⟩ := d
      simp only [Memory.sortedFrom, Bool.and_eq_true, decide_eq_true_eq, bne_iff_ne] at hn
      have := h a'
      simp [readByte] at this
      exact absurd this.symm hn.1.2
  | cons c t ih =>
    obtain ⟨a, b⟩ := c
    simp only [Memory.sortedFrom, Bool.and_eq_true, decide_eq_true_eq, bne_iff_ne] at hm
    cases n with
    | nil =>
      have := h a
      simp [readByte] at this
      exact absurd this hm.1.2
    | cons d u =>
      obtain ⟨a', b'⟩ := d
      simp only [Memory.sortedFrom, Bool.and_eq_true, decide_eq_true_eq, bne_iff_ne] at hn
      have haa : a = a' := by
        rcases Nat.lt_trichotomy a a' with hlt | heq | hgt
        · have h1 := h a
          simp only [readByte, if_true] at h1
          rw [if_neg (by omega), readByte_below hn.2 (by omega)] at h1
          exact absurd h1 hm.1.2
        · exact heq
        · have h1 := h a'
          simp only [readByte, if_true] at h1
          rw [if_neg (by omega), readByte_below hm.2 (by omega)] at h1
          exact absurd h1.symm hn.1.2
      subst haa
      have hbb : b = b' := by simpa [readByte] using h a
      subst hbb
      congr 1
      refine ih hm.2 hn.2 fun k => ?_
      by_cases hk : a = k
      · subst hk; rw [readByte_below hm.2 (by omega), readByte_below hn.2 (by omega)]
      · simpa [readByte, hk] using h k

/-- Two memories in canonical form that read alike at every byte are one memory. -/
theorem wf_ext {m n : Memory} (hm : m.wf = true) (hn : n.wf = true) (h : ∀ k, readByte m k = readByte n k) :
    m = n :=
  sortedFrom_ext hm hn h

/-! ### The cells of an image (R102, R41) -/

theorem sortedFrom_append {lo mid : Nat} {m n : Memory} (hm : Memory.sortedFrom lo m = true)
    (hb : ∀ c ∈ m, c.1 < mid) (hl : lo ≤ mid) (hn : Memory.sortedFrom mid n = true) :
    Memory.sortedFrom lo (m ++ n) = true := by
  induction m generalizing lo with
  | nil => exact sortedFrom_mono hn hl
  | cons c t ih =>
    obtain ⟨a, b⟩ := c
    simp only [Memory.sortedFrom, Bool.and_eq_true, decide_eq_true_eq] at hm
    have ha := hb (a, b) (by simp)
    simp only [List.cons_append, Memory.sortedFrom, Bool.and_eq_true, decide_eq_true_eq]
    exact ⟨hm.1, ih hm.2 (fun c hc => hb c (by simp [hc])) (by simpa using ha)⟩

/-- The listed cells of one word, byte by byte. -/
theorem wordCells_eq (a : Nat) (w : Word) :
    wordCells a w = consCell a (wordByte w 0) (consCell (a + 1) (wordByte w 1)
      (consCell (a + 2) (wordByte w 2) (consCell (a + 3) (wordByte w 3) []))) := by
  simp only [wordCells, List.filter_cons, List.filter_nil, consCell, bne_iff_ne, ne_eq, ite_not]

theorem sortedFrom_wordCells (a : Nat) (w : Word) : Memory.sortedFrom a (wordCells a w) = true := by
  rw [wordCells_eq]
  exact sortedFrom_consCell (Nat.le_refl _) (sortedFrom_consCell (Nat.le_refl _)
    (sortedFrom_consCell (Nat.le_refl _) (sortedFrom_consCell (Nat.le_refl _) rfl)))

theorem mem_wordCells {a : Nat} {w : Word} {c : Host.Cell} (h : c ∈ wordCells a w) : a ≤ c.1 ∧ c.1 < a + 4 := by
  unfold wordCells at h
  have h := List.mem_of_mem_filter h
  simp only [List.mem_cons, List.not_mem_nil, or_false] at h
  rcases h with rfl | rfl | rfl | rfl <;> simp

/-- The cells of an image are in canonical form. -/
theorem sortedFrom_imageCells (a : Nat) (img : List Word) :
    Memory.sortedFrom (4 * a) (imageCells a img) = true := by
  induction img generalizing a with
  | nil => rfl
  | cons w t ih =>
    refine sortedFrom_append (mid := 4 * (a + 1)) (sortedFrom_wordCells _ _) (fun c hc => ?_) (by omega) (ih _)
    have := mem_wordCells hc
    omega

theorem mem_imageCells {a : Nat} {img : List Word} {c : Host.Cell} (h : c ∈ imageCells a img) :
    4 * a ≤ c.1 ∧ c.1 < 4 * (a + img.length) := by
  induction img generalizing a with
  | nil => simp [imageCells] at h
  | cons w t ih =>
    simp only [imageCells, List.mem_append] at h
    rcases h with h | h
    · have := mem_wordCells h; simp only [List.length_cons]; omega
    · have := ih h; simp only [List.length_cons]; omega

/-- The cells of an image laid from address 0 lie in the image. -/
theorem within_imageCells (img : List Word) : Memory.within img.length (imageCells 0 img) = true := by
  simp only [Memory.within, List.all_eq_true, decide_eq_true_eq]
  intro c hc
  have := mem_imageCells hc
  omega

theorem readByte_append {m n : Memory} {k : Nat} :
    readByte (m ++ n) k = if (∃ c ∈ m, c.1 = k) then readByte m k else readByte n k := by
  induction m with
  | nil => simp
  | cons c t ih =>
    obtain ⟨a, b⟩ := c
    by_cases hk : a = k
    · simp [readByte, hk]
    · have : (∃ c ∈ t, c.1 = k) ↔ ∃ c ∈ (a, b) :: t, c.1 = k := by
        constructor
        · rintro ⟨c, hc, h⟩
          exact ⟨c, List.mem_cons_of_mem _ hc, h⟩
        · rintro ⟨c, hc, h⟩
          rcases List.mem_cons.mp hc with rfl | hc
          · exact absurd h hk
          · exact ⟨c, hc, h⟩
      simp only [List.cons_append, readByte, if_neg hk, ih]
      exact if_congr this rfl rfl

/-- Cells below `mid` followed by cells from `mid` on read as the first below it and as the second from it. -/
theorem readByte_append_of_bounds {m n : Memory} {mid k : Nat}
    (hb : ∀ c ∈ m, c.1 < mid) (hn : Memory.sortedFrom mid n = true) :
    readByte (m ++ n) k = if k < mid then readByte m k else readByte n k := by
  rw [readByte_append]
  by_cases hex : ∃ c ∈ m, c.1 = k
  · obtain ⟨c, hc, rfl⟩ := hex
    rw [if_pos ⟨c, hc, rfl⟩, if_pos (hb c hc)]
  · rw [if_neg hex]
    by_cases hk : k < mid
    · rw [if_pos hk, readByte_below hn hk]
      symm
      clear hb hn
      induction m with
      | nil => rfl
      | cons c t ih =>
        obtain ⟨a, b⟩ := c
        have : ¬ a = k := fun e => hex ⟨(a, b), by simp, e⟩
        rw [readByte, if_neg this]
        exact ih fun ⟨c, hc, h⟩ => hex ⟨c, by simp [hc], h⟩
    · rw [if_neg hk]

theorem readByte_wordCells (a : Nat) (w : Word) (j : Nat) (hj : j < 4) :
    readByte (wordCells a w) (a + j) = wordByte w j := by
  rw [wordCells_eq]
  have h3 : Memory.sortedFrom (a + 3 + 1) [] = true := rfl
  have h2 := sortedFrom_consCell (n := a + 3) (v := wordByte w 3) (Nat.le_refl _) h3
  have h1 := sortedFrom_consCell (n := a + 2) (v := wordByte w 2) (Nat.le_refl _) h2
  have h0 := sortedFrom_consCell (n := a + 1) (v := wordByte w 1) (Nat.le_refl _) h1
  rw [readByte_consCell h0, readByte_consCell h1, readByte_consCell h2, readByte_consCell h3]
  have : j = 0 ∨ j = 1 ∨ j = 2 ∨ j = 3 := by omega
  rcases this with rfl | rfl | rfl | rfl <;> simp

/-- Reading a word of the image gives the word the launch supplied (R102). -/
theorem readWord_imageCells (a : Nat) (img : List Word) (i : Nat) (hi : i < img.length) :
    readWord (imageCells a img) (a + i) = img[i] := by
  have key : ∀ j, j < 4 → readByte (imageCells a img) (4 * (a + i) + j) = wordByte img[i] j := by
    intro j hj
    induction img generalizing a i with
    | nil => simp at hi
    | cons w t ih =>
      have hb : ∀ c ∈ wordCells (4 * a) w, c.1 < 4 * (a + 1) := fun c hc => by
        have := mem_wordCells hc; omega
      rw [imageCells, readByte_append_of_bounds hb (sortedFrom_imageCells _ _)]
      cases i with
      | zero =>
        rw [if_pos (by omega)]
        simpa using readByte_wordCells (4 * a) w j hj
      | succ i =>
        rw [if_neg (by omega)]
        have := ih (a + 1) i (by simpa using hi)
        simpa [Nat.add_assoc, Nat.add_comm, Nat.add_left_comm] using this
  unfold readWord
  have k0 := key 0 (by omega)
  have k1 := key 1 (by omega)
  have k2 := key 2 (by omega)
  have k3 := key 3 (by omega)
  rw [Nat.add_zero] at k0
  rw [k0, k1, k2, k3]
  exact wordOfBytes_wordByte _

/-- An address in range, as a natural number, lies below the size (R32). -/
theorem toNat_lt_of_inImage {n : Nat} {a : Word} (h : inImage n a = true) : a.toNat < n := by
  simp only [inImage, decide_eq_true_eq] at h
  have := BitVec.toInt_eq_toNat_cond a
  split at this <;> omega

end Sys2Proof.Laws
end

