-- ==== Sys2Proof/Laws/PerInstr.lean ====
section
/-!
SUPPORT. Per instruction: the fields read back from an instruction's word (R43, R53).
-/

namespace Sys2Proof.Laws

/-- The four fields of R43, read from the word of an instruction, are the instruction's own. -/
def EncodeFields.Statement (i : Instr) : Prop :=
  op (encode i) = i.opcode ∧ rA (encode i) = i.ra ∧ rB (encode i) = i.rb ∧ off16 (encode i) = i.off

/-- The fields of a packed instruction word, whatever the instruction. -/
theorem encodeFields_of_pack (i : Instr) : EncodeFields.Statement i :=
  ⟨op_packFields _ _ _ _, rA_packFields _ _ _ _, rB_packFields _ _ _ _, off16_packFields _ _ _ _⟩

theorem EncodeFields.add (ra rb : RegNum) (off : Offset) : EncodeFields.Statement (.add ra rb off) :=
  encodeFields_of_pack _

theorem EncodeFields.nand (ra rb : RegNum) (off : Offset) : EncodeFields.Statement (.nand ra rb off) :=
  encodeFields_of_pack _

theorem EncodeFields.lw (ra rb : RegNum) (off : Offset) : EncodeFields.Statement (.lw ra rb off) :=
  encodeFields_of_pack _

theorem EncodeFields.sw (ra rb : RegNum) (off : Offset) : EncodeFields.Statement (.sw ra rb off) :=
  encodeFields_of_pack _

theorem EncodeFields.beq (ra rb : RegNum) (off : Offset) : EncodeFields.Statement (.beq ra rb off) :=
  encodeFields_of_pack _

theorem EncodeFields.jalr (ra rb : RegNum) (off : Offset) : EncodeFields.Statement (.jalr ra rb off) :=
  encodeFields_of_pack _

theorem EncodeFields.halt (ra rb : RegNum) (off : Offset) : EncodeFields.Statement (.halt ra rb off) :=
  encodeFields_of_pack _

theorem EncodeFields.noop (ra rb : RegNum) (off : Offset) : EncodeFields.Statement (.noop ra rb off) :=
  encodeFields_of_pack _

end Sys2Proof.Laws
end

