-- ==== Sys2Proof/Laws/State.lean ====
section
/-!
SUPPORT. What each named update of the state does to each field: one lemma per field per update, all by `rfl`, so that
no later proof unfolds a record update; and what the derived reads see after an update.
-/

namespace Sys2Proof.Laws

open Sys2Proof.Machine

/-! ### `State.writeReg` -/

@[simp] theorem writeReg_nMem (s : State) (r : RegNum) (v : Word) :
    (s.writeReg r v).nMem = s.nMem := rfl
@[simp] theorem writeReg_stallFields (s : State) (r : RegNum) (v : Word) :
    (s.writeReg r v).stallFields = s.stallFields := rfl
@[simp] theorem writeReg_pc (s : State) (r : RegNum) (v : Word) :
    (s.writeReg r v).pc = s.pc := rfl
@[simp] theorem writeReg_mem (s : State) (r : RegNum) (v : Word) :
    (s.writeReg r v).mem = s.mem := rfl
@[simp] theorem writeReg_x (s : State) (r : RegNum) (v : Word) :
    (s.writeReg r v).x = s.x.set r.toNat v r.isLt := rfl
@[simp] theorem writeReg_ifid (s : State) (r : RegNum) (v : Word) :
    (s.writeReg r v).ifid = s.ifid := rfl
@[simp] theorem writeReg_idex (s : State) (r : RegNum) (v : Word) :
    (s.writeReg r v).idex = s.idex := rfl
@[simp] theorem writeReg_exmem (s : State) (r : RegNum) (v : Word) :
    (s.writeReg r v).exmem = s.exmem := rfl
@[simp] theorem writeReg_memwb (s : State) (r : RegNum) (v : Word) :
    (s.writeReg r v).memwb = s.memwb := rfl
@[simp] theorem writeReg_wbend (s : State) (r : RegNum) (v : Word) :
    (s.writeReg r v).wbend = s.wbend := rfl
@[simp] theorem writeReg_cycles (s : State) (r : RegNum) (v : Word) :
    (s.writeReg r v).cycles = s.cycles := rfl
@[simp] theorem writeReg_status (s : State) (r : RegNum) (v : Word) :
    (s.writeReg r v).status = s.status := rfl
@[simp] theorem writeReg_fault (s : State) (r : RegNum) (v : Word) :
    (s.writeReg r v).fault = s.fault := rfl
@[simp] theorem writeReg_flagUnsupported (s : State) (r : RegNum) (v : Word) :
    (s.writeReg r v).flagUnsupported = s.flagUnsupported := rfl

/-! ### `State.memWrite` -/

@[simp] theorem memWrite_nMem (s : State) (a v : Word) :
    (s.memWrite a v).nMem = s.nMem := rfl
@[simp] theorem memWrite_stallFields (s : State) (a v : Word) :
    (s.memWrite a v).stallFields = s.stallFields := rfl
@[simp] theorem memWrite_pc (s : State) (a v : Word) :
    (s.memWrite a v).pc = s.pc := rfl
@[simp] theorem memWrite_mem (s : State) (a v : Word) :
    (s.memWrite a v).mem = writeWord s.mem a.toNat v := rfl
@[simp] theorem memWrite_x (s : State) (a v : Word) :
    (s.memWrite a v).x = s.x := rfl
@[simp] theorem memWrite_ifid (s : State) (a v : Word) :
    (s.memWrite a v).ifid = s.ifid := rfl
@[simp] theorem memWrite_idex (s : State) (a v : Word) :
    (s.memWrite a v).idex = s.idex := rfl
@[simp] theorem memWrite_exmem (s : State) (a v : Word) :
    (s.memWrite a v).exmem = s.exmem := rfl
@[simp] theorem memWrite_memwb (s : State) (a v : Word) :
    (s.memWrite a v).memwb = s.memwb := rfl
@[simp] theorem memWrite_wbend (s : State) (a v : Word) :
    (s.memWrite a v).wbend = s.wbend := rfl
@[simp] theorem memWrite_cycles (s : State) (a v : Word) :
    (s.memWrite a v).cycles = s.cycles := rfl
@[simp] theorem memWrite_status (s : State) (a v : Word) :
    (s.memWrite a v).status = s.status := rfl
@[simp] theorem memWrite_fault (s : State) (a v : Word) :
    (s.memWrite a v).fault = s.fault := rfl
@[simp] theorem memWrite_flagUnsupported (s : State) (a v : Word) :
    (s.memWrite a v).flagUnsupported = s.flagUnsupported := rfl

/-! ### `State.setPc` -/

@[simp] theorem setPc_nMem (s : State) (v : Word) :
    (s.setPc v).nMem = s.nMem := rfl
@[simp] theorem setPc_stallFields (s : State) (v : Word) :
    (s.setPc v).stallFields = s.stallFields := rfl
@[simp] theorem setPc_pc (s : State) (v : Word) :
    (s.setPc v).pc = v := rfl
@[simp] theorem setPc_mem (s : State) (v : Word) :
    (s.setPc v).mem = s.mem := rfl
@[simp] theorem setPc_x (s : State) (v : Word) :
    (s.setPc v).x = s.x := rfl
@[simp] theorem setPc_ifid (s : State) (v : Word) :
    (s.setPc v).ifid = s.ifid := rfl
@[simp] theorem setPc_idex (s : State) (v : Word) :
    (s.setPc v).idex = s.idex := rfl
@[simp] theorem setPc_exmem (s : State) (v : Word) :
    (s.setPc v).exmem = s.exmem := rfl
@[simp] theorem setPc_memwb (s : State) (v : Word) :
    (s.setPc v).memwb = s.memwb := rfl
@[simp] theorem setPc_wbend (s : State) (v : Word) :
    (s.setPc v).wbend = s.wbend := rfl
@[simp] theorem setPc_cycles (s : State) (v : Word) :
    (s.setPc v).cycles = s.cycles := rfl
@[simp] theorem setPc_status (s : State) (v : Word) :
    (s.setPc v).status = s.status := rfl
@[simp] theorem setPc_fault (s : State) (v : Word) :
    (s.setPc v).fault = s.fault := rfl
@[simp] theorem setPc_flagUnsupported (s : State) (v : Word) :
    (s.setPc v).flagUnsupported = s.flagUnsupported := rfl

/-! ### `State.advance` -/

@[simp] theorem advance_nMem (s : State) :
    (s.advance).nMem = s.nMem := rfl
@[simp] theorem advance_stallFields (s : State) :
    (s.advance).stallFields = s.stallFields := rfl
@[simp] theorem advance_pc (s : State) :
    (s.advance).pc = s.pc + 1#32 := rfl
@[simp] theorem advance_mem (s : State) :
    (s.advance).mem = s.mem := rfl
@[simp] theorem advance_x (s : State) :
    (s.advance).x = s.x := rfl
@[simp] theorem advance_ifid (s : State) :
    (s.advance).ifid = s.ifid := rfl
@[simp] theorem advance_idex (s : State) :
    (s.advance).idex = s.idex := rfl
@[simp] theorem advance_exmem (s : State) :
    (s.advance).exmem = s.exmem := rfl
@[simp] theorem advance_memwb (s : State) :
    (s.advance).memwb = s.memwb := rfl
@[simp] theorem advance_wbend (s : State) :
    (s.advance).wbend = s.wbend := rfl
@[simp] theorem advance_cycles (s : State) :
    (s.advance).cycles = s.cycles := rfl
@[simp] theorem advance_status (s : State) :
    (s.advance).status = s.status := rfl
@[simp] theorem advance_fault (s : State) :
    (s.advance).fault = s.fault := rfl
@[simp] theorem advance_flagUnsupported (s : State) :
    (s.advance).flagUnsupported = s.flagUnsupported := rfl

/-! ### `State.raiseMemRangeFault` -/

@[simp] theorem raiseMemRangeFault_nMem (s : State) (r : FaultRecord) :
    (s.raiseMemRangeFault r).nMem = s.nMem := rfl
@[simp] theorem raiseMemRangeFault_stallFields (s : State) (r : FaultRecord) :
    (s.raiseMemRangeFault r).stallFields = s.stallFields := rfl
@[simp] theorem raiseMemRangeFault_pc (s : State) (r : FaultRecord) :
    (s.raiseMemRangeFault r).pc = s.pc := rfl
@[simp] theorem raiseMemRangeFault_mem (s : State) (r : FaultRecord) :
    (s.raiseMemRangeFault r).mem = s.mem := rfl
@[simp] theorem raiseMemRangeFault_x (s : State) (r : FaultRecord) :
    (s.raiseMemRangeFault r).x = s.x := rfl
@[simp] theorem raiseMemRangeFault_ifid (s : State) (r : FaultRecord) :
    (s.raiseMemRangeFault r).ifid = s.ifid := rfl
@[simp] theorem raiseMemRangeFault_idex (s : State) (r : FaultRecord) :
    (s.raiseMemRangeFault r).idex = s.idex := rfl
@[simp] theorem raiseMemRangeFault_exmem (s : State) (r : FaultRecord) :
    (s.raiseMemRangeFault r).exmem = s.exmem := rfl
@[simp] theorem raiseMemRangeFault_memwb (s : State) (r : FaultRecord) :
    (s.raiseMemRangeFault r).memwb = s.memwb := rfl
@[simp] theorem raiseMemRangeFault_wbend (s : State) (r : FaultRecord) :
    (s.raiseMemRangeFault r).wbend = s.wbend := rfl
@[simp] theorem raiseMemRangeFault_cycles (s : State) (r : FaultRecord) :
    (s.raiseMemRangeFault r).cycles = s.cycles := rfl
@[simp] theorem raiseMemRangeFault_status (s : State) (r : FaultRecord) :
    (s.raiseMemRangeFault r).status = .faulted := rfl
@[simp] theorem raiseMemRangeFault_fault (s : State) (r : FaultRecord) :
    (s.raiseMemRangeFault r).fault = some r := rfl
@[simp] theorem raiseMemRangeFault_flagUnsupported (s : State) (r : FaultRecord) :
    (s.raiseMemRangeFault r).flagUnsupported = s.flagUnsupported := rfl

/-! ### `State.haltMachine` -/

@[simp] theorem haltMachine_nMem (s : State) :
    (s.haltMachine).nMem = s.nMem := rfl
@[simp] theorem haltMachine_stallFields (s : State) :
    (s.haltMachine).stallFields = s.stallFields := rfl
@[simp] theorem haltMachine_pc (s : State) :
    (s.haltMachine).pc = s.pc := rfl
@[simp] theorem haltMachine_mem (s : State) :
    (s.haltMachine).mem = s.mem := rfl
@[simp] theorem haltMachine_x (s : State) :
    (s.haltMachine).x = s.x := rfl
@[simp] theorem haltMachine_ifid (s : State) :
    (s.haltMachine).ifid = s.ifid := rfl
@[simp] theorem haltMachine_idex (s : State) :
    (s.haltMachine).idex = s.idex := rfl
@[simp] theorem haltMachine_exmem (s : State) :
    (s.haltMachine).exmem = s.exmem := rfl
@[simp] theorem haltMachine_memwb (s : State) :
    (s.haltMachine).memwb = s.memwb := rfl
@[simp] theorem haltMachine_wbend (s : State) :
    (s.haltMachine).wbend = s.wbend := rfl
@[simp] theorem haltMachine_cycles (s : State) :
    (s.haltMachine).cycles = s.cycles := rfl
@[simp] theorem haltMachine_status (s : State) :
    (s.haltMachine).status = .halted := rfl
@[simp] theorem haltMachine_fault (s : State) :
    (s.haltMachine).fault = s.fault := rfl
@[simp] theorem haltMachine_flagUnsupported (s : State) :
    (s.haltMachine).flagUnsupported = s.flagUnsupported := rfl

/-! ### `State.markUnsupported` -/

@[simp] theorem markUnsupported_nMem (s : State) :
    (s.markUnsupported).nMem = s.nMem := rfl
@[simp] theorem markUnsupported_stallFields (s : State) :
    (s.markUnsupported).stallFields = s.stallFields := rfl
@[simp] theorem markUnsupported_pc (s : State) :
    (s.markUnsupported).pc = s.pc := rfl
@[simp] theorem markUnsupported_mem (s : State) :
    (s.markUnsupported).mem = s.mem := rfl
@[simp] theorem markUnsupported_x (s : State) :
    (s.markUnsupported).x = s.x := rfl
@[simp] theorem markUnsupported_ifid (s : State) :
    (s.markUnsupported).ifid = s.ifid := rfl
@[simp] theorem markUnsupported_idex (s : State) :
    (s.markUnsupported).idex = s.idex := rfl
@[simp] theorem markUnsupported_exmem (s : State) :
    (s.markUnsupported).exmem = s.exmem := rfl
@[simp] theorem markUnsupported_memwb (s : State) :
    (s.markUnsupported).memwb = s.memwb := rfl
@[simp] theorem markUnsupported_wbend (s : State) :
    (s.markUnsupported).wbend = s.wbend := rfl
@[simp] theorem markUnsupported_cycles (s : State) :
    (s.markUnsupported).cycles = s.cycles := rfl
@[simp] theorem markUnsupported_status (s : State) :
    (s.markUnsupported).status = s.status := rfl
@[simp] theorem markUnsupported_fault (s : State) :
    (s.markUnsupported).fault = s.fault := rfl
@[simp] theorem markUnsupported_flagUnsupported (s : State) :
    (s.markUnsupported).flagUnsupported = true := rfl

/-! ### Derived reads -/

@[simp] theorem writeReg_inRange (s : State) (r : RegNum) (v : Word) (c : Word) :
    (s.writeReg r v).inRange c = s.inRange c := rfl
@[simp] theorem writeReg_memRead (s : State) (r : RegNum) (v : Word) (c : Word) :
    (s.writeReg r v).memRead c = s.memRead c := rfl
@[simp] theorem writeReg_fetchWord (s : State) (r : RegNum) (v : Word) (c : Word) :
    (s.writeReg r v).fetchWord c = s.fetchWord c := rfl
@[simp] theorem memWrite_readReg (s : State) (a v : Word) (q : RegNum) :
    (s.memWrite a v).readReg q = s.readReg q := rfl
@[simp] theorem memWrite_inRange (s : State) (a v : Word) (c : Word) :
    (s.memWrite a v).inRange c = s.inRange c := rfl
@[simp] theorem setPc_readReg (s : State) (v : Word) (q : RegNum) :
    (s.setPc v).readReg q = s.readReg q := rfl
@[simp] theorem setPc_inRange (s : State) (v : Word) (c : Word) :
    (s.setPc v).inRange c = s.inRange c := rfl
@[simp] theorem setPc_memRead (s : State) (v : Word) (c : Word) :
    (s.setPc v).memRead c = s.memRead c := rfl
@[simp] theorem setPc_fetchWord (s : State) (v : Word) (c : Word) :
    (s.setPc v).fetchWord c = s.fetchWord c := rfl
@[simp] theorem advance_readReg (s : State) (q : RegNum) :
    (s.advance).readReg q = s.readReg q := rfl
@[simp] theorem advance_inRange (s : State) (c : Word) :
    (s.advance).inRange c = s.inRange c := rfl
@[simp] theorem advance_memRead (s : State) (c : Word) :
    (s.advance).memRead c = s.memRead c := rfl
@[simp] theorem advance_fetchWord (s : State) (c : Word) :
    (s.advance).fetchWord c = s.fetchWord c := rfl
@[simp] theorem raiseMemRangeFault_readReg (s : State) (r : FaultRecord) (q : RegNum) :
    (s.raiseMemRangeFault r).readReg q = s.readReg q := rfl
@[simp] theorem raiseMemRangeFault_inRange (s : State) (r : FaultRecord) (c : Word) :
    (s.raiseMemRangeFault r).inRange c = s.inRange c := rfl
@[simp] theorem raiseMemRangeFault_memRead (s : State) (r : FaultRecord) (c : Word) :
    (s.raiseMemRangeFault r).memRead c = s.memRead c := rfl
@[simp] theorem raiseMemRangeFault_fetchWord (s : State) (r : FaultRecord) (c : Word) :
    (s.raiseMemRangeFault r).fetchWord c = s.fetchWord c := rfl
@[simp] theorem haltMachine_readReg (s : State) (q : RegNum) :
    (s.haltMachine).readReg q = s.readReg q := rfl
@[simp] theorem haltMachine_inRange (s : State) (c : Word) :
    (s.haltMachine).inRange c = s.inRange c := rfl
@[simp] theorem haltMachine_memRead (s : State) (c : Word) :
    (s.haltMachine).memRead c = s.memRead c := rfl
@[simp] theorem haltMachine_fetchWord (s : State) (c : Word) :
    (s.haltMachine).fetchWord c = s.fetchWord c := rfl
@[simp] theorem markUnsupported_readReg (s : State) (q : RegNum) :
    (s.markUnsupported).readReg q = s.readReg q := rfl
@[simp] theorem markUnsupported_inRange (s : State) (c : Word) :
    (s.markUnsupported).inRange c = s.inRange c := rfl
@[simp] theorem markUnsupported_memRead (s : State) (c : Word) :
    (s.markUnsupported).memRead c = s.memRead c := rfl
@[simp] theorem markUnsupported_fetchWord (s : State) (c : Word) :
    (s.markUnsupported).fetchWord c = s.fetchWord c := rfl

/-! ### The reset state of a launch (R102) -/

@[simp] theorem launch_nMem (l : Launch) : (State.launch l).nMem = l.nMem := rfl
@[simp] theorem launch_stallFields (l : Launch) : (State.launch l).stallFields = l.stallFields := rfl
@[simp] theorem launch_pc (l : Launch) : (State.launch l).pc = 0#32 := rfl
@[simp] theorem launch_mem (l : Launch) : (State.launch l).mem = imageCells 0 l.image := rfl
@[simp] theorem launch_x (l : Launch) : (State.launch l).x = l.regInit := rfl
@[simp] theorem launch_ifid (l : Launch) : (State.launch l).ifid = bubbleIFID := rfl
@[simp] theorem launch_idex (l : Launch) : (State.launch l).idex = bubbleIDEX := rfl
@[simp] theorem launch_exmem (l : Launch) : (State.launch l).exmem = bubbleEXMEM := rfl
@[simp] theorem launch_memwb (l : Launch) : (State.launch l).memwb = bubbleMEMWB := rfl
@[simp] theorem launch_wbend (l : Launch) : (State.launch l).wbend = bubbleWBEND := rfl
@[simp] theorem launch_cycles (l : Launch) : (State.launch l).cycles = 0 := rfl
@[simp] theorem launch_status (l : Launch) : (State.launch l).status = .running := rfl
@[simp] theorem launch_fault (l : Launch) : (State.launch l).fault = none := rfl
@[simp] theorem launch_flagUnsupported (l : Launch) : (State.launch l).flagUnsupported = false := rfl

end Sys2Proof.Laws
end

