-- ==== Sys2Proof/Laws/Step.lean ====
section
/-!
SUPPORT. What the machine can do in one step, said once: the outcomes of `whenRunning`, of the Memory stage, of the
stages before it, and of the whole step; every later proof cites these and unfolds none of the definitions.
-/

namespace Sys2Proof.Laws

open Sys2Proof.Machine Sys2Proof.Safety

/-! ### Outcomes guarded by the run status -/

theorem whenRunning_of_running {s t : State} (h : s.status = .running) : s.whenRunning t = .next t := by
  simp [State.whenRunning, State.ended?, h]

theorem whenRunning_of_halted {s t : State} (h : s.status = .halted) : s.whenRunning t = .fault .halted := by
  simp [State.whenRunning, State.ended?, h]

theorem whenRunning_of_faulted {s t : State} (h : s.status = .faulted) :
    s.whenRunning t = .fault (.faulted s.fault) := by
  simp [State.whenRunning, State.ended?, h]

/-- A guarded effect answers a next state only in a RUNNING state, and then its own. -/
theorem whenRunning_eq_next {s t u : State} (h : s.whenRunning t = .next u) : s.status = .running ∧ u = t := by
  cases hs : s.status with
  | running => rw [whenRunning_of_running hs] at h; cases h; exact ⟨rfl, rfl⟩
  | halted => rw [whenRunning_of_halted hs] at h; cases h
  | faulted => rw [whenRunning_of_faulted hs] at h; cases h

/-! ### The stages before Memory -/

/-- What the cycle's earlier stages do to every field: nothing but IFID, IDEX, EXMEM, `pc` and the flag is assigned,
and the squash overrides the stall, which overrides Fetch and Decode (R59, R14). -/
theorem frontStages_eq (s : State) :
    frontStages s =
      { s with
        flagUnsupported := stickyUnsupported s.flagUnsupported s.wbend.instr
        pc := if s.squashes then s.exmem.branchTarget else if s.stalls then s.pc else s.pc + 1#32
        ifid := if s.squashes then bubbleIFID else if s.stalls then s.ifid else
          { instr := s.fetchWord s.pc, pcPlus1 := s.pc + 1#32 }
        idex := if s.squashes then bubbleIDEX else if s.stalls then bubbleIDEX else
          { instr := s.ifid.instr, pcPlus1 := s.ifid.pcPlus1, readRegA := s.readReg (rA s.ifid.instr),
            readRegB := s.readReg (rB s.ifid.instr), offset := sext32 (off16 s.ifid.instr) }
        exmem := if s.squashes then bubbleEXMEM else
          { instr := s.idex.instr, branchTarget := branchTargetOf s.idex.pcPlus1 s.idex.offset,
            aluResult := alu (instrOf s.idex.instr) s.forward.1 s.forward.2 s.idex.offset,
            readRegB := s.forward.2 } } := by
  unfold frontStages squashStage executeStage stallStage decodeStage fetchStage flagStage
  cases s.squashes <;> cases s.stalls <;> rfl

/-! ### The Memory stage -/

/-- The value an instruction leaves in MEMWB when its Memory stage does not fault (R72). -/
def memoryValue (s : State) : Word :=
  match instrOf s.exmem.instr with
  | some (.lw _ _ _) => s.memRead s.exmem.aluResult
  | some (.add _ _ _) => s.exmem.aluResult
  | some (.nand _ _ _) => s.exmem.aluResult
  | _ => 0#32

/-- The memory after the Memory stage: changed by an `SW` only (R72, R36). -/
def memoryAfter (s : State) : Memory :=
  match instrOf s.exmem.instr with
  | some (.sw _ _ _) => writeWord s.mem s.exmem.aluResult.toNat s.exmem.readRegB
  | _ => s.mem

/-- The Memory stage raises a fault: an access out of range (R73). -/
def memoryFaults (s : State) : Bool := isAccess (instrOf s.exmem.instr) && !s.inRange s.exmem.aluResult

/-- All the Memory stage can do (R72, R73). -/
theorem memoryStage_eq (s t : State) (hm : t.mem = s.mem) :
    memoryStage s t =
      if memoryFaults s then .error (s.faultRecord s.exmem.aluResult s.exmem.instr)
      else .ok { t with mem := memoryAfter s, memwb := { instr := s.exmem.instr, writeData := memoryValue s } } := by
  unfold memoryStage memoryFaults memoryAfter memoryValue
  cases hi : instrOf s.exmem.instr with
  | none => simp [hi, isAccess, passToWriteBack, ← hm]
  | some i =>
    cases hr : s.inRange s.exmem.aluResult <;> cases i <;>
      simp [hi, hr, isAccess, passToWriteBack, State.memWrite, ← hm]

/-! ### The whole cycle -/

/-- The registers after WriteBack (R74). -/
def regsAfter (s : State) : Vector Word 8 :=
  match dest s.memwb.instr with
  | some d => s.x.set d.toNat s.memwb.writeData d.isLt
  | none => s.x

/-- The state a committed cycle leaves: every field, from the pre-state alone (R56 to R75, R9). -/
def committed (s : State) : State :=
  { s with
    flagUnsupported := stickyUnsupported s.flagUnsupported s.wbend.instr
    pc := if s.squashes then s.exmem.branchTarget else if s.stalls then s.pc else s.pc + 1#32
    ifid := if s.squashes then bubbleIFID else if s.stalls then s.ifid else
      { instr := s.fetchWord s.pc, pcPlus1 := s.pc + 1#32 }
    idex := if s.squashes then bubbleIDEX else if s.stalls then bubbleIDEX else
      { instr := s.ifid.instr, pcPlus1 := s.ifid.pcPlus1, readRegA := s.readReg (rA s.ifid.instr),
        readRegB := s.readReg (rB s.ifid.instr), offset := sext32 (off16 s.ifid.instr) }
    exmem := if s.squashes then bubbleEXMEM else
      { instr := s.idex.instr, branchTarget := branchTargetOf s.idex.pcPlus1 s.idex.offset,
        aluResult := alu (instrOf s.idex.instr) s.forward.1 s.forward.2 s.idex.offset,
        readRegB := s.forward.2 }
    mem := memoryAfter s
    memwb := { instr := s.exmem.instr, writeData := memoryValue s }
    x := regsAfter s
    wbend := { instr := s.memwb.instr, writeData := s.memwb.writeData }
    cycles := s.cycles + 1 }

/-- All one cycle can do: halt, fault, or commit (R56, R77). -/
theorem cycle_eq (s : State) :
    cycle s =
      if s.haltRetires then s.haltMachine
      else if memoryFaults s then s.raiseMemRangeFault (s.faultRecord s.exmem.aluResult s.exmem.instr)
      else committed s := by
  unfold cycle
  cases s.haltRetires with
  | true => rfl
  | false =>
    rw [memoryStage_eq s (frontStages s) (by rw [frontStages_eq])]
    cases memoryFaults s with
    | true => rfl
    | false =>
      simp only [Bool.false_eq_true, if_false, frontStages_eq]
      unfold countStage writeBackStage committed regsAfter
      cases dest s.memwb.instr <;> rfl

/-- What one step can do: it answers a next state only from a RUNNING state, and then it halts, faults or commits. -/
theorem step_cases {s t : State} (h : step s = .next t) :
    s.status = .running ∧
    ((s.haltRetires = true ∧ t = s.haltMachine) ∨
     (s.haltRetires = false ∧ memoryFaults s = true ∧
        t = s.raiseMemRangeFault (s.faultRecord s.exmem.aluResult s.exmem.instr)) ∨
     (s.haltRetires = false ∧ memoryFaults s = false ∧ t = committed s)) := by
  obtain ⟨hr, ht⟩ := whenRunning_eq_next h
  refine ⟨hr, ?_⟩
  rw [cycle_eq] at ht
  cases hh : s.haltRetires <;> cases hm : memoryFaults s <;> simp [hh, hm] at ht ⊢ <;> exact ht

/-- The step of a RUNNING state is its cycle. -/
theorem step_of_running {s : State} (h : s.status = .running) : step s = .next (cycle s) :=
  whenRunning_of_running h

/-! ### The conditions of a cycle, in the spec's words about opcodes -/

/-- The halt check looks for opcode 6 in WBEND (R57). -/
theorem haltRetires_iff (s : State) : s.haltRetires = true ↔ op s.wbend.instr = 6#10 := by
  unfold State.haltRetires
  rcases op_cases s.wbend.instr with h | h | h | h | h | h | h | h | h
  · simp [instrOf_add h, isHalt, h]
  · simp [instrOf_nand h, isHalt, h]
  · simp [instrOf_lw h, isHalt, h]
  · simp [instrOf_sw h, isHalt, h]
  · simp [instrOf_beq h, isHalt, h]
  · simp [instrOf_jalr h, isHalt, h]
  · simp [instrOf_halt h, isHalt, h]
  · simp [instrOf_noop h, isHalt, h]
  · simp only [instrOf_undefined h, isHalt]; constructor
    · intro e; cases e
    · intro e; rw [e] at h; exact absurd h (by decide)

/-- The load-use condition on two words, in the spec's words (R63). -/
theorem usesLoaded_iff (f : StallFields) (p w : Word) : usesLoaded f p w = true ↔ op p = 2#10 ∧ rB p ∈ srcFields f w := by
  unfold usesLoaded
  rcases op_cases p with h | h | h | h | h | h | h | h | h
  · simp [instrOf_add h, loadDest, h]
  · simp [instrOf_nand h, loadDest, h]
  · simp [instrOf_lw h, loadDest, h]
  · simp [instrOf_sw h, loadDest, h]
  · simp [instrOf_beq h, loadDest, h]
  · simp [instrOf_jalr h, loadDest, h]
  · simp [instrOf_halt h, loadDest, h]
  · simp [instrOf_noop h, loadDest, h]
  · simp only [instrOf_undefined h, loadDest]; constructor
    · intro e; cases e
    · rintro ⟨e, -⟩; rw [e] at h; exact absurd h (by decide)

/-- The stall is the load-use condition of R63. -/
theorem stalls_iff (s : State) : s.stalls = true ↔ LoadUse s := usesLoaded_iff _ _ _

/-- The squash is the taken `BEQ` of R70. -/
theorem squashes_iff (s : State) : s.squashes = true ↔ TakenBranch s := by
  unfold State.squashes TakenBranch
  rcases op_cases s.exmem.instr with h | h | h | h | h | h | h | h | h
  · simp [instrOf_add h, isBeq, h]
  · simp [instrOf_nand h, isBeq, h]
  · simp [instrOf_lw h, isBeq, h]
  · simp [instrOf_sw h, isBeq, h]
  · simp [instrOf_beq h, isBeq, flagTaken, h]
  · simp [instrOf_jalr h, isBeq, h]
  · simp [instrOf_halt h, isBeq, h]
  · simp [instrOf_noop h, isBeq, h]
  · simp only [instrOf_undefined h, isBeq, Bool.false_and]; constructor
    · intro e; cases e
    · rintro ⟨e, -⟩; rw [e] at h; exact absurd h (by decide)

/-- An access is opcode 2 or 3 (R37). -/
theorem isAccess_iff (w : Word) : isAccess (instrOf w) = true ↔ op w = 2#10 ∨ op w = 3#10 := by
  rcases op_cases w with h | h | h | h | h | h | h | h | h
  · simp [instrOf_add h, isAccess, h]
  · simp [instrOf_nand h, isAccess, h]
  · simp [instrOf_lw h, isAccess, h]
  · simp [instrOf_sw h, isAccess, h]
  · simp [instrOf_beq h, isAccess, h]
  · simp [instrOf_jalr h, isAccess, h]
  · simp [instrOf_halt h, isAccess, h]
  · simp [instrOf_noop h, isAccess, h]
  · simp only [instrOf_undefined h, isAccess]; constructor
    · intro e; cases e
    · rintro (e | e) <;> (rw [e] at h; exact absurd h (by decide))

/-- The Memory stage faults exactly on an access out of range (R73). -/
theorem memoryFaults_iff (s : State) :
    memoryFaults s = true ↔
      (op s.exmem.instr = 2#10 ∨ op s.exmem.instr = 3#10) ∧ s.inRange s.exmem.aluResult = false := by
  rw [memoryFaults, Bool.and_eq_true, isAccess_iff, Bool.not_eq_true']

/-- A cycle commits exactly under `CommitsCycle`, to `committed`. -/
theorem step_of_commits {s : State} (h : CommitsCycle s) : step s = .next (committed s) := by
  obtain ⟨hr, hh, hm⟩ := h
  have h1 : s.haltRetires = false := by
    rw [← Bool.not_eq_true, haltRetires_iff]; exact hh
  have h2 : memoryFaults s = false := by
    rw [← Bool.not_eq_true, memoryFaults_iff]
    rintro ⟨ha, hb⟩
    rw [hm ha] at hb
    cases hb
  rw [step_of_running hr, cycle_eq, h1, h2]
  rfl

/-- What one step can do, under the conditions on the pre-state. -/
theorem step_cases_commits {s t : State} (h : step s = .next t) :
    (CommitsCycle s ∧ t = committed s) ∨
    (¬ CommitsCycle s ∧ s.status = .running ∧
      ((op s.wbend.instr = 6#10 ∧ t = s.haltMachine) ∨
       (op s.wbend.instr ≠ 6#10 ∧ (op s.exmem.instr = 2#10 ∨ op s.exmem.instr = 3#10) ∧
        s.inRange s.exmem.aluResult = false ∧
        t = s.raiseMemRangeFault (s.faultRecord s.exmem.aluResult s.exmem.instr)))) := by
  obtain ⟨hr, ⟨h1, ht⟩ | ⟨h1, h2, ht⟩ | ⟨h1, h2, ht⟩⟩ := step_cases h
  · rw [haltRetires_iff] at h1
    exact .inr ⟨fun hc => hc.2.1 h1, hr, .inl ⟨h1, ht⟩⟩
  · rw [← Bool.not_eq_true, haltRetires_iff] at h1
    rw [memoryFaults_iff] at h2
    refine .inr ⟨fun hc => ?_, hr, .inr ⟨h1, h2.1, h2.2, ht⟩⟩
    rw [hc.2.2 h2.1] at h2
    cases h2.2
  · rw [← Bool.not_eq_true, haltRetires_iff] at h1
    rw [← Bool.not_eq_true, memoryFaults_iff] at h2
    refine .inl ⟨⟨hr, h1, fun ha => ?_⟩, ht⟩
    cases hb : s.inRange s.exmem.aluResult with
    | true => rfl
    | false => exact absurd ⟨ha, hb⟩ h2

/-! ### Runs -/

theorem runSteps_zero (s : State) : runSteps 0 s = .next s := rfl

theorem runSteps_succ_of_next {k : Nat} {s t : State} (h : step s = .next t) :
    runSteps (k + 1) s = runSteps k t := by
  simp [runSteps, h]

/-- A run of `j + k` steps is a run of `j` followed by one of `k`. -/
theorem runSteps_add {j k : Nat} {s t : State} (h : runSteps j s = .next t) :
    runSteps (j + k) s = runSteps k t := by
  induction j generalizing s with
  | zero => cases h; rw [Nat.zero_add]
  | succ j ih =>
    unfold runSteps at h
    cases hs : step s with
    | next u =>
      rw [hs] at h
      rw [show j + 1 + k = (j + k) + 1 by omega, runSteps_succ_of_next hs]
      exact ih h
    | fault f => rw [hs] at h; cases h
    | refused r => rw [hs] at h; cases h

/-- An invariant of the step holds along every run. -/
theorem runSteps_invariant {P : State → Prop} (hstep : ∀ s t, P s → step s = .next t → P t)
    {k : Nat} {s t : State} (hs : P s) (h : runSteps k s = .next t) : P t := by
  induction k generalizing s with
  | zero => cases h; exact hs
  | succ k ih =>
    unfold runSteps at h
    cases hq : step s with
    | next u => rw [hq] at h; exact ih (hstep s u hs hq) h
    | fault f => rw [hq] at h; cases h
    | refused r => rw [hq] at h; cases h

/-- An invariant of the interpreter's step holds along every run of it. -/
theorem seqRun_invariant {P : State → Prop} (hstep : ∀ s t, P s → seqStep s = .next t → P t)
    {k : Nat} {s t : State} (hs : P s) (h : seqRun k s = .next t) : P t := by
  induction k generalizing s with
  | zero => cases h; exact hs
  | succ k ih =>
    unfold seqRun at h
    cases hq : seqStep s with
    | next u => rw [hq] at h; exact ih (hstep s u hs hq) h
    | fault f => rw [hq] at h; cases h
    | refused r => rw [hq] at h; cases h

/-- The interpreter answers a next state only from a RUNNING state. -/
theorem seqStep_running {s t : State} (h : seqStep s = .next t) : s.status = .running := by
  unfold seqStep at h
  split at h
  · next i _ => cases i <;> exact (whenRunning_eq_next h).1
  · exact (whenRunning_eq_next h).1

end Sys2Proof.Laws
end

