-- ==== Sys2Proof/Laws/Retire.lean ====
section
/-!
SUPPORT. What the record of the instructions in flight becomes in a step, what `retired` collects, and what placing a word
at `pc` sets.
-/

namespace Sys2Proof.Laws

open Sys2Proof.Machine Sys2Proof.Safety

/-! ### Retirement -/

/-- A cycle that ends the run moves nothing. -/
theorem flight_next_of_ended {f : Flight} {s t : State} (h : t.status ≠ .running) : f.next s t = f := by
  simp [Flight.next, h]

/-- The record after a committed cycle. -/
theorem flight_next_of_running {f : Flight} {s t : State} (h : t.status = .running) :
    f.next s t =
      { ifid := !s.squashes && (!s.stalls || f.ifid), idex := !s.squashes && !s.stalls && f.ifid,
        exmem := !s.squashes && f.idex, memwb := f.exmem, wbend := f.memwb,
        memwbTaken := f.exmem && s.squashes, wbendTaken := f.memwbTaken } := by
  simp [Flight.next, h]

theorem retired_zero (f : Flight) (s : State) : retired 0 f s = [] := rfl

theorem retired_succ_of_next {k : Nat} {f : Flight} {s t : State} (h : step s = .next t) :
    retired (k + 1) f s = f.retires s ++ retired k (f.next s t) t := by
  simp [retired, h]

/-- At most one instruction retires in a cycle (R79 a). -/
theorem retires_length_le (f : Flight) (s : State) : (f.retires s).length ≤ 1 := by
  unfold Flight.retires; split <;> simp

/-! ### A word placed at `pc` -/

theorem inImage_maxWords {pc : Word} (h : pc.toNat < 65536) : inImage Config.maxWords pc = true := by
  have e : pc.toInt = pc.toNat := BitVec.toInt_eq_toNat_of_lt (by omega)
  unfold inImage
  rw [decide_eq_true_iff, e]
  exact ⟨Int.natCast_nonneg _, Int.ofNat_lt.mpr h⟩

/-- What placing a word does where an image can hold it. -/
theorem placeAtPc_eq {s : State} (h : s.pc.toNat < 65536) (w : Word) :
    placeAtPc s 32 w.toNat =
      { loadAtPc s w with
        ifid := bubbleIFID, idex := bubbleIDEX, exmem := executedAlone (loadAtPc s w) w,
        memwb := accessedAlone (loadAtPc s w) w,
        wbend := { instr := w, writeData := (accessedAlone (loadAtPc s w) w).writeData } } := by
  have e : BitVec.ofNat 32 (w.toNat % 2 ^ 32) = w := by rw [Nat.mod_eq_of_lt w.isLt]; simp
  unfold placeAtPc
  rw [if_pos (inImage_maxWords h), e]

/-- The operands of a word executed alone are the registers: bubbles forward nothing. -/
theorem executedAlone_eq (s : State) (w : Word) :
    executedAlone s w =
      { instr := w, branchTarget := branchTargetOf (s.pc + 1#32) (sext32 (off16 w)),
        aluResult := alu (instrOf w) (s.readReg (rA w)) (s.readReg (rB w)) (sext32 (off16 w)),
        readRegB := s.readReg (rB w) } := by
  simp [executedAlone, executeStage, decodeStage, enterPipeline, State.forward, forwardSlot, wbendSupply_bubble,
    memwbSupply_bubble, exmemSupply_bubble, applySupply]
  exact ⟨rfl, rfl⟩

@[simp] theorem loadAtPc_pc (s : State) (w : Word) : (loadAtPc s w).pc = s.pc := rfl
@[simp] theorem loadAtPc_x (s : State) (w : Word) : (loadAtPc s w).x = s.x := rfl
@[simp] theorem loadAtPc_status (s : State) (w : Word) : (loadAtPc s w).status = s.status := rfl

end Sys2Proof.Laws
end

