-- ==== Sys2Proof/Tests/Slice0.lean ====
section
/-!
SUPPORT. Tests: words written out from the spec's encoding, ill-formed terms, one step of each instruction against the
spec's worked examples, and for each statement with hypotheses a state and operands that meet them together.
-/

namespace Sys2Proof.Tests

open Sys2Proof Sys2Proof.Machine Sys2Proof.Safety

/-! ## Decoding: words of 95_test_vectors.md §2.1 and the worked examples, by hand from R43, R53 -/

theorem test_decode_add : decode 0x00090000#32 = .ok (.add 1 1 0) := by decide
theorem test_decode_add_high_bits : decode 0x0009000B#32 = .ok (.add 1 1 0x000B) := by decide
theorem test_decode_nand : decode 0x004A0003#32 = .ok (.nand 1 2 3) := by decide
theorem test_decode_lw_negative : decode 0x0081FFFF#32 = .ok (.lw 0 1 0xFFFF) := by decide
theorem test_decode_sw : decode 0x00C10004#32 = .ok (.sw 0 1 4) := by decide
theorem test_decode_beq : decode 0x0100FFFC#32 = .ok (.beq 0 0 0xFFFC) := by decide
theorem test_decode_jalr : decode 0x014A0000#32 = .ok (.jalr 1 2 0) := by decide
theorem test_decode_halt : decode 0x01800000#32 = .ok (.halt 0 0 0) := by decide
theorem test_decode_noop : decode 0x01C00000#32 = .ok (.noop 0 0 0) := by decide
/-- V-E10 and V-E9: the first undefined opcode, and a negative word. -/
theorem test_decode_undefined :
    decode 0x02000000#32 = .error (.undefinedOpcode 8) ∧ decode 0xFFFFFFFF#32 = .error (.undefinedOpcode 1023) := by
  decide
theorem test_decodeBytes_short : decodeBytes [0, 0, 0] = .error .tooShort := by decide
/-- The lower halves of the fields differ, so no field is read for another: op 3, A 5, B 2, offset 0x8001. -/
theorem test_fields :
    decodeFields 0x00EA8001#32 = { opcode := 3, regA := 5, regB := 2, offset16 := 0x8001 } := by decide
theorem test_encode_words :
    encode (.lw 0 1 5) = 0x00810005#32 ∧ encode (.noop 0 0 0) = noopWord ∧ encode (.halt 0 0 0) = haltWord := by decide
theorem test_table_word : decodeTableWord 32 0x00C10004 = some (.sw 0 1 4) := by decide
/-- V-E2, V-E11, V-E12: sign extension at its boundaries. -/
theorem test_sext :
    sext32 0xFFFF#16 = 0xFFFFFFFF#32 ∧ sext32 0x8000#16 = 0xFFFF8000#32 ∧ sext32 0x7FFF#16 = 0x00007FFF#32 := by decide

/-! ## Well-formedness: one ill-formed term for each check -/

theorem test_illformed_destHighBits :
    (Instr.add 1 1 8).check = .error .destHighBits ∧ (Instr.nand 1 1 0x8000).check = .error .destHighBits := by decide
theorem test_illformed_reservedOpcode : (Instr.jalr 1 2 0).check = .error .reservedOpcode := by decide
theorem test_wellformed : (Instr.add 1 1 7).wellFormed = true ∧ (Instr.lw 0 1 0xFFFF).wellFormed = true := by decide

/-! ## Small states -/

/-- A launch of an image with the first four registers given. -/
def launchOf (img : List Word) (r0 r1 r2 r3 : Word) : Launch :=
  { image := img, regInit := #v[r0, r1, r2, r3, 0, 0, 0, 0], stallFields := .sources }

/-- The reset state of such a launch. -/
def stateOf (img : List Word) (r0 r1 r2 r3 : Word) : State := State.launch (launchOf img r0 r1 r2 r3)

/-- The next state, where there is one. -/
def nextOf : Host.Outcome State Fault Refusal → Option State
  | .next t => some t
  | .fault _ => none
  | .refused _ => none

/-- A register of the next state. -/
def regOf (o : Host.Outcome State Fault Refusal) (r : RegNum) : Option Word := (nextOf o).map (State.readReg · r)

/-! ## One step of each instruction (worked examples of R80 to R88, vectors of §2) -/

/-- V-A1: `add 1 1 0` with x1 = 3 writes r0, an ordinary register. -/
theorem test_add_r0 : regOf (exec (.add 1 1 0) (stateOf [] 0 3 0 0)) 0 = some 6#32 := by decide
/-- V-A2: overflow wraps. -/
theorem test_add_wraps : regOf (exec (.add 1 2 3) (stateOf [] 0 0x7FFFFFFF 1 0)) 3 = some 0x80000000#32 := by decide
/-- V-A5. -/
theorem test_nand_ones : regOf (exec (.nand 1 2 3) (stateOf [] 0 0xFFFFFFFF 0xFFFFFFFF 9)) 3 = some 0#32 := by decide
theorem test_nand_zero : regOf (exec (.nand 0 0 1) (stateOf [] 0 0 0 0)) 1 = some 0xFFFFFFFF#32 := by decide
/-- V-L2: base and destination the same register. -/
theorem test_lw_same : regOf (exec (.lw 1 1 0) (stateOf [0x00890000, 0x01800000] 0 1 0 0)) 1 = some 25165824#32 := by decide
/-- V-F2: a negative address faults and records address and word. -/
theorem test_lw_negative_faults :
    (nextOf (exec (.lw 0 1 0xFFFF) (stateOf [0x0081FFFF] 0 0 0 0))).bind State.fault =
      some { addr := 0xFFFFFFFF#32, instr := 0x0081FFFF#32, cycle := 0 } := by decide
/-- V-L6: the word stored is read back, and its neighbour is not touched. -/
theorem test_sw_stores :
    (nextOf (exec (.sw 0 1 4) (stateOf [1, 2, 3, 4, 5] 0 42 0 0))).map (fun t => (t.memRead 4, t.memRead 3)) =
      some (42#32, 4#32) := by decide
/-- V-F3: an out-of-range store writes nothing. -/
theorem test_sw_range :
    (nextOf (exec (.sw 0 1 2) (stateOf [1, 2] 0 7 0 0))).map (fun t => (t.status.code, t.mem)) =
      some (2, (stateOf [1, 2] 0 7 0 0).mem) := by decide
/-- V-C7: a taken branch to a negative address wraps modulo 2^32. -/
theorem test_beq_taken :
    (nextOf (exec (.beq 0 0 0xFFFB) (stateOf [] 0 0 0 0))).map State.pc = some 0xFFFFFFFC#32 := by decide
/-- V-C1: not taken. -/
theorem test_beq_not_taken : (nextOf (exec (.beq 0 1 1) (stateOf [] 0 1 0 0))).map State.pc = some 1#32 := by decide
/-- V-C8: no jump, no link, the flag is set. -/
theorem test_jalr_inert :
    (nextOf (exec (.jalr 1 2 0) (stateOf [] 0 5 6 0))).map (fun t => (t.pc, t.readReg 2, t.flagUnsupported)) =
      some (1#32, 6#32, true) := by decide
theorem test_halt_stops :
    (nextOf (exec (.halt 0 0 0) (stateOf [] 0 0 0 0))).map (fun t => (t.status, t.pc)) = some (.halted, 0#32) := by decide
theorem test_noop_fields_ignored :
    exec (.noop 3 1 7) (stateOf [] 0 1 2 3) = exec (.noop 0 0 0) (stateOf [] 0 1 2 3) := rfl
/-- V-S3: an undefined word retires by setting the flag. -/
theorem test_undefined_word :
    (nextOf (seqStep (stateOf [0x02000000] 0 0 0 0))).map (fun t => (t.pc, t.flagUnsupported)) = some (1#32, true) := by
  decide

/-! ## One cycle (rows of the traces of 95_test_vectors.md) -/

/-- Trace T3, the row of `cycles` 5: r2 matches WBEND (10) and EXMEM (5); the newest wins. -/
def traceT3Row5 : State :=
  { stateOf [] 0 5 10 0 with
    idex := { instr := 0x00100004, pcPlus1 := 4, readRegA := 0, readRegB := 0, offset := 4 }
    exmem := { instr := 0x00080002, branchTarget := 0, aluResult := 5, readRegB := 0 }
    memwb := { instr := 0x00000003, writeData := 0 }
    wbend := { instr := 0x00090002, writeData := 10 } }

theorem test_forward_newest : traceT3Row5.forward = (5#32, 0#32) := by decide

/-- Trace T1, the row of `cycles` 2: the `add` behind the `lw` stalls. -/
def traceT1Row2 : State :=
  { stateOf [0x00810005, 0x00090002, 0x004A0003] 0 0 0 0 with
    pc := 2
    ifid := { instr := 0x00090002, pcPlus1 := 2 }
    idex := { instr := 0x00810005, pcPlus1 := 1, readRegA := 0, readRegB := 0, offset := 5 } }

theorem test_stall_holds :
    (nextOf (step traceT1Row2)).map (fun t => (t.pc, t.ifid.instr, t.idex, t.exmem.aluResult)) =
      some (2#32, 0x00090002#32, bubbleIDEX, 5#32) := by decide

/-- V-L10: a `NOOP` behind an `LW` whose destination is r0 stalls under ALL_FIELDS only. -/
theorem test_all_fields_stalls_bubble :
    srcFields .allFields noopWord = [0, 0] ∧ srcFields .sources noopWord = [] := by decide

/-- Trace T4, the row of `cycles` 3: stall and squash in one cycle. -/
def traceT4Row3 : State :=
  { stateOf [0x01000003, 0x00810005, 0x00090002, 0x00090003, 0x01800000, 9] 0 0 0 0 with
    pc := 3
    ifid := { instr := 0x00090002, pcPlus1 := 3 }
    idex := { instr := 0x00810005, pcPlus1 := 2, readRegA := 0, readRegB := 0, offset := 5 }
    exmem := { instr := 0x01000003, branchTarget := 4, aluResult := 1, readRegB := 0 } }

theorem test_squash_wins :
    (nextOf (step traceT4Row3)).map (fun t => (t.pc, t.ifid, t.idex, t.exmem, t.memwb.instr)) =
      some (4#32, bubbleIFID, bubbleIDEX, bubbleEXMEM, 0x01000003#32) := by decide

/-- Trace T5, the row of `cycles` 4: the word behind `HALT` stores. -/
def traceT5Row4 : State :=
  { stateOf [0x01800000, 0x00C10002, 0] 0 55 0 0 with
    pc := 4
    cycles := 4
    exmem := { instr := 0x00C10002, branchTarget := 4, aluResult := 2, readRegB := 55 }
    memwb := { instr := 0x01800000, writeData := 0 } }

theorem test_word_behind_halt :
    (nextOf (runSteps 2 traceT5Row4)).map (fun t => (t.memRead 2, t.cycles, t.status)) = some (55#32, 5, .halted) := by decide

/-- An `LW` out of range in EXMEM with an `ADD` in MEMWB: the whole cycle is discarded (R92, R96). -/
def faultingState : State :=
  { stateOf [0, 0] 1 2 3 4 with
    cycles := 3
    exmem := { instr := 0x00810064, branchTarget := 101, aluResult := 100, readRegB := 0 }
    memwb := { instr := 0x00090002, writeData := 77 } }

theorem test_fault_discards :
    (nextOf (step faultingState)).map (fun t => (t.fault, t.readReg 2, t.cycles, t.memwb.instr)) =
      some (some { addr := 100, instr := 0x00810064, cycle := 3 }, 3#32, 3, 0x00090002#32) := by decide

/-- V-S1: the one-word image reports 5 cycles, with six snapshots. -/
theorem test_one_word_halt :
    ((runTrace 9 (stateOf [0x01800000] 0 0 0 0)).report, (runTrace 9 (stateOf [0x01800000] 0 0 0 0)).snapshots.length) =
      (some (.halted 5 false), 6) := by decide

/-- The first step from reset fetches and runs the placed word: a `HALT` stops, a `JALR` sets the flag. -/
theorem test_withFetchWord_reset :
    (nextOf (step (State.reset.withFetchWord 32 0x01800000))).map (fun t => (t.status, t.pc)) = some (.halted, 0#32) ∧
    (nextOf (step (State.reset.withFetchWord 32 0x014A0000))).map (fun t => (t.flagUnsupported, t.ifid.instr, t.pc)) =
      some (true, 0x014A0000#32, 1#32) := by decide

/-- V-A1 and V-C7, placed: the sum is in r0, and the branch is taken, after one step. -/
theorem test_withFetchWord_runs :
    (nextOf (step ((stateOf [] 0 3 0 0).withFetchWord 32 0x00090000))).map (State.readReg · 0) = some 6#32 ∧
    (nextOf (step ((stateOf [] 0 3 0 0).withFetchWord 32 0x0100FFFC))).map State.pc = some 0xFFFFFFFD#32 := by decide

theorem test_launch_refused_by_size (l : Launch) (h : l.image.length = 65537) :
    launch l = .error (.imageTooLarge 65537) := by
  simp [launch, Launch.legal, Launch.nMem, Config.maxWords, h]

/-! ## Witnesses: a state and operands that meet the hypotheses of each statement together -/

theorem witness_UndefinedWordsRefusedByName :
    8 ≤ (op 0x02000000#32).toNat ∧ (op 0x01FFFFFF#32).toNat < 8 ∧ (0x80000000#32).msb = true := by decide

/-- A RUNNING state, all that AddNandSequentialEffect, JalrNoopSequentialEffect and HaltSequentialEffect ask. -/
theorem witness_running : (stateOf [1, 2] 0 1 2 3).status = .running := rfl

theorem witness_LwSequentialEffect :
    (stateOf [1, 2] 0 1 2 3).status = .running ∧
    (stateOf [1, 2] 0 1 2 3).inRange (aluLw ((stateOf [1, 2] 0 1 2 3).readReg 0) (sext32 1)) = true := by decide

theorem witness_SwSequentialEffect :
    (stateOf [1, 2] 0 1 2 3).status = .running ∧ (stateOf [1, 2] 0 1 2 3).mem.wf = true ∧
    (stateOf [1, 2] 0 1 2 3).inRange (aluSw ((stateOf [1, 2] 0 1 2 3).readReg 0) (sext32 1)) = true := by decide

/-- The two sides of the range at their boundary: −1 and `N_MEM`. -/
theorem witness_LwSwOutOfRangeFault :
    (sext32 0xFFFF + (stateOf [1, 2] 0 1 2 3).readReg 0).toInt < 0 ∧
    ((stateOf [1, 2] 0 1 2 3).nMem : Int) ≤ (sext32 2 + (stateOf [1, 2] 0 1 2 3).readReg 0).toInt := by decide

theorem witness_BeqSequentialEffect :
    (stateOf [] 7 7 8 0).status = .running ∧ (stateOf [] 7 7 8 0).readReg 0 = (stateOf [] 7 7 8 0).readReg 1 ∧
    (stateOf [] 7 7 8 0).readReg 0 ≠ (stateOf [] 7 7 8 0).readReg 2 := by decide

theorem witness_InterpreterStep :
    decode ((stateOf [0x00C10004] 0 0 0 0).fetchWord 0) = .ok (.sw 0 1 4) ∧
    8 ≤ (op ((stateOf [0x02000000] 0 0 0 0).fetchWord 0)).toNat ∧ (stateOf [0x02000000] 0 0 0 0).status = .running := by
  decide

theorem witness_EndedStatesHaveNoCycle :
    (stateOf [] 0 0 0 0).haltMachine.status = .halted ∧
    ((stateOf [] 0 0 0 0).raiseMemRangeFault { addr := 1, instr := 2, cycle := 3 }).status = .faulted := ⟨rfl, rfl⟩

/-- A state whose cycle commits, with an `LW` at the last address of the image in EXMEM. -/
def committing : State :=
  { stateOf [1, 2] 0 1 2 3 with
    exmem := { instr := 0x00810000, branchTarget := 0, aluResult := 1, readRegB := 0 } }

theorem witness_CommitsCycle : CommitsCycle committing := ⟨by decide, by decide, by decide⟩

/-- A `HALT` in WBEND, over an `LW` that would fault. -/
def halting : State := { faultingState with wbend := { instr := 0x0180FFFF, writeData := 0 } }

theorem witness_HaltCheckEndsRun : halting.status = .running ∧ op halting.wbend.instr = 6#10 := by decide

theorem witness_FaultDiscardsCycle :
    faultingState.status = .running ∧ op faultingState.wbend.instr ≠ 6#10 ∧ op faultingState.exmem.instr = 2#10 ∧
    (faultingState.nMem : Int) ≤ faultingState.exmem.aluResult.toInt := by decide

/-- The address just past the image, and a negative one, in an `SW`. -/
theorem witness_FaultDiscardsCycle_boundaries :
    op 0x00C10002#32 = 3#10 ∧ ((stateOf [1, 2] 0 0 0 0).nMem : Int) ≤ (2#32).toInt ∧ (0x80000000#32).toInt < 0 := by decide

theorem witness_RunningStepHasOneOutcome :
    committing.status = .running ∧ CommitsCycle committing ∧ halting.status = .running ∧ op halting.wbend.instr = 6#10 ∧
    faultingState.status = .running ∧ ¬ CommitsCycle faultingState :=
  ⟨rfl, witness_CommitsCycle, rfl, by decide, rfl, fun h => absurd (h.2.2 (by decide)) (by decide)⟩

theorem loadUse_traceT1Row2 : LoadUse traceT1Row2 := ⟨by decide, by decide⟩

theorem not_takenBranch_traceT1Row2 : ¬ TakenBranch traceT1Row2 := fun h => absurd h.1 (by decide)

theorem commits_traceT1Row2 : CommitsCycle traceT1Row2 := ⟨by decide, by decide, by decide⟩

theorem loadUse_traceT4Row3 : LoadUse traceT4Row3 := ⟨by decide, by decide⟩

theorem takenBranch_traceT4Row3 : TakenBranch traceT4Row3 := ⟨by decide, by decide⟩

theorem commits_traceT4Row3 : CommitsCycle traceT4Row3 := ⟨by decide, by decide, by decide⟩

theorem not_takenBranch_committing : ¬ TakenBranch committing := fun h => absurd h.1 (by decide)

theorem not_loadUse_committing : ¬ LoadUse committing := fun h => absurd h.1 (by decide)

theorem witness_DecodeStageReadsPreState : CommitsCycle committing ∧ ¬ TakenBranch committing ∧ ¬ LoadUse committing :=
  ⟨witness_CommitsCycle, not_takenBranch_committing, not_loadUse_committing⟩

theorem witness_PcInCommittedCycle :
    (CommitsCycle traceT4Row3 ∧ TakenBranch traceT4Row3) ∧
    (CommitsCycle traceT1Row2 ∧ ¬ TakenBranch traceT1Row2 ∧ LoadUse traceT1Row2) ∧
    (CommitsCycle committing ∧ ¬ TakenBranch committing ∧ ¬ LoadUse committing) :=
  ⟨⟨commits_traceT4Row3, takenBranch_traceT4Row3⟩,
    ⟨commits_traceT1Row2, not_takenBranch_traceT1Row2, loadUse_traceT1Row2⟩,
    ⟨witness_CommitsCycle, not_takenBranch_committing, not_loadUse_committing⟩⟩

/-- Fetch at the last word of the image, just past it, and at a negative address. -/
theorem witness_FetchStageLatchesWord :
    (0 ≤ (1#32).toInt ∧ (1#32).toInt < (committing.nMem : Int)) ∧
    ¬ (0 ≤ (2#32).toInt ∧ (2#32).toInt < (committing.nMem : Int)) ∧
    ¬ (0 ≤ (0xFFFFFFFF#32).toInt ∧ (0xFFFFFFFF#32).toInt < (committing.nMem : Int)) ∧
    (∀ p : Word, CommitsCycle { committing with pc := p } ∧ ¬ TakenBranch { committing with pc := p } ∧
      ¬ LoadUse { committing with pc := p }) :=
  ⟨by decide, by decide, by decide,
    fun _ => ⟨witness_CommitsCycle, not_takenBranch_committing, not_loadUse_committing⟩⟩

theorem witness_StepTakesDecodedInstruction :
    CommitsCycle committing ∧ ¬ TakenBranch committing ∧ ¬ LoadUse committing ∧
    decode (committing.fetchWord committing.pc) = .ok (.add 0 0 1) :=
  ⟨witness_CommitsCycle, not_takenBranch_committing, not_loadUse_committing, by decide⟩

theorem witness_LoadUseStallOneCycle :
    CommitsCycle traceT1Row2 ∧ ¬ TakenBranch traceT1Row2 ∧ LoadUse traceT1Row2 :=
  ⟨commits_traceT1Row2, not_takenBranch_traceT1Row2, loadUse_traceT1Row2⟩

theorem witness_ExecuteStageResult :
    CommitsCycle traceT3Row5 ∧ ¬ TakenBranch traceT3Row5 ∧
    OperandIs traceT3Row5 (rA traceT3Row5.idex.instr) traceT3Row5.idex.readRegA 5 ∧
    OperandIs traceT3Row5 (rB traceT3Row5.idex.instr) traceT3Row5.idex.readRegB 0 := by
  refine ⟨⟨by decide, by decide, by decide⟩, fun h => absurd h.1 (by decide), ?_, ?_⟩
  · unfold OperandIs Produces; decide
  · unfold OperandIs Produces; decide

/-- The opcodes of ExecuteStageResult's clauses, first and last of each range. -/
theorem witness_ExecuteStageResult_opcodes :
    op 0x00090000#32 = 0#10 ∧ op 0x004A0003#32 = 1#10 ∧ op 0x00810003#32 = 2#10 ∧ op 0x00C10004#32 = 3#10 ∧
    op 0x01000003#32 = 4#10 ∧ 5 ≤ (op 0x014A0000#32).toNat ∧ 5 ≤ (op 0xFFFFFFFF#32).toNat := by decide

theorem witness_TakenBranchSquashes : CommitsCycle traceT4Row3 ∧ TakenBranch traceT4Row3 :=
  ⟨commits_traceT4Row3, takenBranch_traceT4Row3⟩

/-- One state for each clause of MemoryStageResult: only the word in EXMEM differs. -/
theorem witness_MemoryStageResult :
    ∀ w ∈ [0x00810000#32, 0x00C10000#32, 0x00090000#32, 0x004A0003#32, 0x01000003#32, 0xFFFFFFFF#32],
      CommitsCycle { committing with exmem := { committing.exmem with instr := w } } ∧ committing.mem.wf = true := by
  intro w _
  refine ⟨⟨rfl, witness_CommitsCycle.2.1, fun _ => ?_⟩, by decide⟩
  show committing.inRange 1 = true
  decide

/-- One state for each clause of WriteBackStageResult: `LW`, `ADD` to r0, `NAND`, and `SW` and an undefined word. -/
theorem witness_WriteBackStageResult :
    ∀ w ∈ [0x00810000#32, 0x00090000#32, 0x004A0003#32, 0x00C10000#32, 0xFFFFFFFF#32],
      CommitsCycle { committing with memwb := { instr := w, writeData := 9 } } :=
  fun _ _ => witness_CommitsCycle

theorem step_committing : step committing = .next (cycle committing) := Laws.step_of_running rfl

theorem step_faultingState : step faultingState = .next (cycle faultingState) := Laws.step_of_running rfl

theorem step_halting : step halting = .next (cycle halting) := Laws.step_of_running rfl

/-- A committing and a faulting step: CycleCounterCountsCommits, ParametersConstant. -/
theorem witness_CycleCounterCountsCommits :
    (step committing = .next (cycle committing) ∧ CommitsCycle committing) ∧
    (step faultingState = .next (cycle faultingState) ∧ ¬ CommitsCycle faultingState) :=
  ⟨⟨step_committing, witness_CommitsCycle⟩,
    ⟨step_faultingState, fun h => absurd (h.2.2 (by decide)) (by decide)⟩⟩

/-- `JALR`, the first undefined opcode, and a `NOOP` in WBEND; and a step from a state whose flag is set. -/
theorem witness_UnsupportedFlagAtRetirement :
    (∀ w ∈ [0x014A0000#32, 0x02000000#32, 0x01C00000#32],
      CommitsCycle { committing with wbend := { instr := w, writeData := 0 } }) ∧
    op 0x014A0000#32 = 5#10 ∧ 8 ≤ (op 0x02000000#32).toNat ∧
    ¬ (op 0x01C00000#32 = 5#10 ∨ 8 ≤ (op 0x01C00000#32).toNat) ∧
    step { committing with flagUnsupported := true } = .next (cycle { committing with flagUnsupported := true }) := by
  refine ⟨fun w hw => ⟨rfl, ?_, witness_CommitsCycle.2.2⟩, by decide, by decide, by decide, Laws.step_of_running rfl⟩
  simp only [List.mem_cons, List.not_mem_nil, or_false] at hw
  rcases hw with rfl | rfl | rfl <;> decide

/-- Inert words in every latch at once. -/
def inertEverywhere : State :=
  { stateOf [1, 2] 0 1 2 3 with
    ifid := { instr := 0x014A0000, pcPlus1 := 1 }
    idex := { instr := 0x018A0000, pcPlus1 := 1, readRegA := 1, readRegB := 2, offset := 0 }
    exmem := { instr := 0x01CA0000, branchTarget := 1, aluResult := 0, readRegB := 2 }
    memwb := { instr := 0x02000000, writeData := 0 }
    wbend := { instr := 0xFFFFFFFF, writeData := 0 } }

theorem witness_InertWordsInEveryStage :
    CommitsCycle inertEverywhere ∧ step inertEverywhere = .next (cycle inertEverywhere) ∧
    5 ≤ (op inertEverywhere.ifid.instr).toNat ∧ 5 ≤ (op inertEverywhere.idex.instr).toNat ∧
    5 ≤ (op inertEverywhere.exmem.instr).toNat ∧ 5 ≤ (op inertEverywhere.memwb.instr).toNat ∧
    5 ≤ (op inertEverywhere.wbend.instr).toNat :=
  ⟨⟨by decide, by decide, by decide⟩, Laws.step_of_running rfl, by decide, by decide, by decide, by decide, by decide⟩

/-- The opcodes of the clauses of SrcFieldsTable and DestinationTable. -/
theorem witness_SrcFieldsTable_DestinationTable :
    op 0x00090000#32 = 0#10 ∧ op 0x004A0003#32 = 1#10 ∧ op 0x00810003#32 = 2#10 ∧ op 0x00C10004#32 = 3#10 ∧
    op 0x01000003#32 = 4#10 ∧ 5 ≤ (op 0x014A0000#32).toNat ∧ 3 ≤ (op 0x00C10004#32).toNat := by decide

/-- An `ADD` to r0 in MEMWB, and the reader of r0 in IFID. -/
def writingBack : State :=
  { stateOf [1, 2] 0 1 2 3 with
    ifid := { instr := 0x00000004, pcPlus1 := 1 }
    memwb := { instr := 0x00090000, writeData := 9 } }

theorem commits_writingBack : CommitsCycle writingBack := ⟨by decide, by decide, by decide⟩

theorem witness_OneRegisterWritePerCycle :
    step writingBack = .next (cycle writingBack) ∧ (cycle writingBack).readReg 0 ≠ writingBack.readReg 0 :=
  ⟨Laws.step_of_running rfl, by decide⟩

theorem witness_WriteBackReachesReaderByForwarding :
    CommitsCycle writingBack ∧ step writingBack = .next (cycle writingBack) ∧ ¬ TakenBranch writingBack ∧
    ¬ LoadUse writingBack ∧ Produces writingBack.memwb.instr 0 ∧
    rA writingBack.ifid.instr = 0 ∧ rB writingBack.ifid.instr = 0 ∧
    ¬ Produces (cycle writingBack).memwb.instr 0 ∧ ¬ Produces (cycle writingBack).exmem.instr 0 := by
  refine ⟨commits_writingBack, Laws.step_of_running rfl, fun h => absurd h.1 (by decide),
    fun h => absurd h.1 (by decide), ?_, by decide, by decide, ?_, ?_⟩ <;> unfold Produces <;> decide

/-- An in-range `SW` in EXMEM. -/
def storing : State := { committing with exmem := { committing.exmem with instr := 0x00C10000, readRegB := 9 } }

theorem commits_storing : CommitsCycle storing := ⟨by decide, by decide, by decide⟩

theorem witness_OneWordStorePerCycle :
    step storing = .next (cycle storing) ∧ storing.mem.wf = true ∧
    step committing = .next (cycle committing) ∧ committing.mem.wf = true :=
  ⟨Laws.step_of_running rfl, by decide, step_committing, by decide⟩

theorem witness_StoreSeenFromNextCycle :
    CommitsCycle storing ∧ storing.mem.wf = true ∧ op storing.exmem.instr = 3#10 ∧ ¬ LoadUse storing :=
  ⟨commits_storing, by decide, by decide, fun h => absurd h.1 (by decide)⟩

theorem witness_MemoryInvKeptByStep : MemoryInv storing ∧ step storing = .next (cycle storing) :=
  ⟨⟨by decide, by decide, by decide⟩, Laws.step_of_running rfl⟩

theorem witness_MemoryInvKeptByExec :
    MemoryInv (stateOf [1, 2] 0 1 2 3) ∧
    ∃ t, exec (.sw 0 1 1) (stateOf [1, 2] 0 1 2 3) = .next t :=
  ⟨⟨by decide, by decide, by decide⟩, _, rfl⟩

/-- An `LW` in EXMEM, and a step from it. -/
theorem witness_LoadUseInvKeptByStep : LoadUseInv committing ∧ step committing = .next (cycle committing) :=
  ⟨fun _ => by decide, step_committing⟩

/-- The invariant of the status meets a state that faults and one that halts in the step. -/
theorem witness_StatusInvKeptByStep :
    StatusInv faultingState ∧ step faultingState = .next (cycle faultingState) ∧
    StatusInv halting ∧ step halting = .next (cycle halting) :=
  ⟨⟨fun _ => rfl, fun h => absurd h (by decide), fun h => absurd h (by decide)⟩, step_faultingState,
    ⟨fun _ => rfl, fun h => absurd h (by decide), fun h => absurd h (by decide)⟩, step_halting⟩

theorem witness_LatchInvKeptByStep : LatchInv traceT4Row3 ∧ step traceT4Row3 = .next (cycle traceT4Row3) :=
  ⟨⟨by decide, fun _ => .inr rfl, fun h => absurd h (by decide), fun _ => rfl, fun _ => rfl⟩, Laws.step_of_running rfl⟩

/-- The empty launch, and the largest legal one. -/
theorem witness_InvariantsAtReset :
    Launch.empty.legal = true ∧ (∀ l : Launch, l.image.length = 65536 → l.legal = true) := by
  refine ⟨by decide, fun l h => ?_⟩
  simp [Launch.legal, Launch.nMem, Config.maxWords, h]

/-- A squash with an instruction in every latch but IFID, where a bubble is recorded. -/
theorem witness_FlightInvKeptByStep :
    FlightInv { traceT4Row3 with ifid := bubbleIFID } ⟨false, true, true, true, true, false, false⟩ ∧
    step { traceT4Row3 with ifid := bubbleIFID } = .next (cycle { traceT4Row3 with ifid := bubbleIFID }) :=
  ⟨by unfold FlightInv; decide, Laws.step_of_running rfl⟩

/-- The first and the last address that an image can hold. -/
theorem witness_PlacedInstructionRunsAtNextStep :
    ((stateOf [] 0 1 2 3).status = .running ∧ (stateOf [] 0 1 2 3).pc.toNat < 65536 ∧ (stateOf [] 0 1 2 3).mem.wf = true) ∧
    { stateOf [] 0 1 2 3 with pc := 65535 }.status = .running ∧ (65535#32).toNat < 65536 := by decide

/-- Two different states that differ in dead fields of every latch. -/
def inertOther : State :=
  { inertEverywhere with
    exmem := { instr := 0x01CA0000, branchTarget := 7, aluResult := 1, readRegB := 5 }
    memwb := { instr := 0x02000000, writeData := 8 }
    wbend := { instr := 0xFFFFFFFF, writeData := 3 } }

theorem witness_DeadLatchFieldsUnobservable :
    LiveEq inertEverywhere inertOther ∧ inertEverywhere ≠ inertOther ∧
    step inertEverywhere = .next (cycle inertEverywhere) := by
  refine ⟨⟨⟨rfl, rfl⟩, rfl, rfl, rfl, rfl, ⟨rfl, rfl⟩, rfl, rfl, rfl, rfl, rfl, rfl, fun _ => rfl, fun _ => rfl,
    fun h => absurd h (by decide), fun h => absurd h (by decide), fun h => absurd h (by decide),
    fun h => absurd h (by decide), fun h => absurd h (by decide)⟩, by decide, Laws.step_of_running rfl⟩

theorem witness_FaultingAddressRecoverable :
    CommitsCycle committing ∧ ¬ TakenBranch committing ∧ LatchInv committing :=
  ⟨witness_CommitsCycle, not_takenBranch_committing, by decide, fun h => absurd h (by decide),
    fun h => absurd h (by decide), fun _ => rfl, fun _ => rfl⟩

theorem witness_SnapshotCopiesState :
    committing.status = .running ∧ committing.haltMachine.status ≠ .running ∧ 1 < committing.nMem := by decide

/-- The two sides of the launch's bound. -/
theorem witness_LaunchRefusesLargeImage :
    (∃ l : Launch, l.image.length = 65536) ∧ ∃ l : Launch, l.image.length = 65537 :=
  ⟨⟨{ Launch.empty with image := List.replicate 65536 0#32 }, List.length_replicate⟩,
    ⟨{ Launch.empty with image := List.replicate 65537 0#32 }, List.length_replicate⟩⟩

/-- V-S1, cycle by cycle: the one-word image after six steps. -/
theorem witness_OneSnapshotPerCycle :
    ∃ u, runSteps 6 (stateOf [0x01800000] 0 0 0 0) = .next u ∧ u.status ≠ .running := ⟨_, rfl, by decide⟩

theorem witness_WarmUpFourBubbles :
    (∃ u, runSteps 1 (stateOf [0x01800000] 0 0 0 0) = .next u) ∧ (∃ u, runSteps 4 (stateOf [0x01800000] 0 0 0 0) = .next u) ∧
    ∃ u, runSteps 5 (stateOf [0x01800000] 0 0 0 0) = .next u ∧ u.status = .running := ⟨⟨_, rfl⟩, ⟨_, rfl⟩, _, rfl, by decide⟩

theorem drained_stateOf (img : List Word) (a b c d : Word) : Drained (stateOf img a b c d) := ⟨rfl, rfl, rfl, rfl, rfl⟩

/-- A drained state that runs an `ADD`, one that takes a `BEQ`, one that faults and one that halts. -/
theorem witness_StepsRunDecodedInstruction :
    (decode ((stateOf [0x00090000] 0 3 0 0).fetchWord 0) = .ok (.add 1 1 0) ∧
      ∃ t, exec (.add 1 1 0) (stateOf [0x00090000] 0 3 0 0) = .next t ∧ t.status = .running) ∧
    (decode ((stateOf [0x01000003] 0 0 0 0).fetchWord 0) = .ok (.beq 0 0 3) ∧
      ∃ t, exec (.beq 0 0 3) (stateOf [0x01000003] 0 0 0 0) = .next t ∧ t.status = .running) ∧
    (decode ((stateOf [0x00810064] 0 0 0 0).fetchWord 0) = .ok (.lw 0 1 100) ∧
      ∃ t, exec (.lw 0 1 100) (stateOf [0x00810064] 0 0 0 0) = .next t ∧ t.status = .faulted) ∧
    (decode ((stateOf [0x01800000] 0 0 0 0).fetchWord 0) = .ok (.halt 0 0 0) ∧
      ∃ t, exec (.halt 0 0 0) (stateOf [0x01800000] 0 0 0 0) = .next t ∧ t.status = .halted) :=
  ⟨⟨by decide, _, rfl, by decide⟩, ⟨by decide, _, rfl, by decide⟩, ⟨by decide, _, rfl, by decide⟩,
    ⟨by decide, _, rfl, by decide⟩⟩

/-- V-S5, and V-S6 with the address just past the image: both sides of WordBehindHalt. -/
theorem witness_WordBehindHalt :
    (traceT5Row4.status = .running ∧ traceT5Row4.mem.wf = true ∧ op traceT5Row4.memwb.instr = 6#10 ∧
      op traceT5Row4.wbend.instr ≠ 6#10 ∧ op traceT5Row4.exmem.instr = 3#10 ∧
      traceT5Row4.inRange traceT5Row4.exmem.aluResult = true) ∧
    traceT5Row4.inRange 3 = false := by decide

/-! ### Runs of the interpreter that stay in a short list of states -/

/-- A list of states closed under the interpreter's step, in which no store meets a program counter, has no stale
fetch. -/
theorem noStaleFetch_of_list (L : List State) {s : State} (hs : s ∈ L)
    (hc : ∀ t ∈ L, ∀ u, seqStep t = .next u → u ∈ L)
    (hd : ∀ t ∈ L, ∀ u ∈ L, ∀ a, storeAddress t = some a → u.pc ≠ a) : NoStaleFetch s := by
  intro i d ti t tm a hi ha ht hm _ _
  have hti := Laws.seqRun_invariant (P := (· ∈ L)) (fun t u ht h => hc t ht u h) hs hi
  have htm := Laws.seqRun_invariant (P := (· ∈ L)) (fun t u ht h => hc t ht u h) (hc ti hti t ht) hm
  exact hd ti hti tm htm a ha

/-- A program that ends in its first step, which is no store, has no stale fetch. -/
theorem noStaleFetch_of_one_step {s u : State} {f : Fault} (h0 : seqStep s = .next u) (h1 : seqStep u = .fault f)
    (e0 : storeAddress s = none) (e1 : storeAddress u = none) : NoStaleFetch s := by
  refine noStaleFetch_of_list [s, u] (by simp) ?_ ?_
  · intro t ht v hv
    simp only [List.mem_cons, List.not_mem_nil, or_false] at ht ⊢
    rcases ht with rfl | rfl
    · rw [h0] at hv; cases hv; exact .inr rfl
    · rw [h1] at hv; cases hv
  · intro t ht v _ a ha
    simp only [List.mem_cons, List.not_mem_nil, or_false] at ht
    rcases ht with rfl | rfl
    · rw [e0] at ha; cases ha
    · rw [e1] at ha; cases ha

/-- `sw 0 1 3; halt; noop; .fill 0` with x1 = 7: a store and a halt. -/
def storeThenHalt : Launch := launchOf [0x00C10003, 0x01800000, 0x01C00000, 0] 0 7 0 0

/-- Its state after the store. -/
def storeThenHalt1 : State := ((State.launch storeThenHalt).memWrite 3 7).advance

/-- Its state after the halt. -/
def storeThenHalt2 : State := storeThenHalt1.haltMachine

theorem seqStep_storeThenHalt : seqStep (State.launch storeThenHalt) = .next storeThenHalt1 := rfl

theorem seqStep_storeThenHalt1 : seqStep storeThenHalt1 = .next storeThenHalt2 := rfl

theorem seqStep_storeThenHalt2 : seqStep storeThenHalt2 = .fault .halted := rfl

theorem closed_storeThenHalt :
    ∀ t ∈ [State.launch storeThenHalt, storeThenHalt1, storeThenHalt2], ∀ u, seqStep t = .next u →
      u ∈ [State.launch storeThenHalt, storeThenHalt1, storeThenHalt2] := by
  intro t ht u hu
  simp only [List.mem_cons, List.not_mem_nil, or_false] at ht ⊢
  rcases ht with rfl | rfl | rfl
  · rw [seqStep_storeThenHalt] at hu; cases hu; exact .inr (.inl rfl)
  · rw [seqStep_storeThenHalt1] at hu; cases hu; exact .inr (.inr rfl)
  · rw [seqStep_storeThenHalt2] at hu; cases hu

theorem noStaleFetch_storeThenHalt : NoStaleFetch (State.launch storeThenHalt) := by
  refine noStaleFetch_of_list _ (by simp) closed_storeThenHalt ?_
  intro t ht u hu a ha
  have e0 : storeAddress (State.launch storeThenHalt) = some 3#32 := by decide
  have e1 : storeAddress storeThenHalt1 = none := by decide
  have e2 : storeAddress storeThenHalt2 = none := by decide
  simp only [List.mem_cons, List.not_mem_nil, or_false] at ht hu
  rcases ht with rfl | rfl | rfl
  · rw [e0] at ha; cases ha
    rcases hu with rfl | rfl | rfl <;> decide
  · rw [e1] at ha; cases ha
  · rw [e2] at ha; cases ha

/-- A legal launch with a store whose run reaches HALTED: PipelineHaltsAsInterpreter, InstructionsRetireInOrder,
CycleCountFromInterpreter. -/
theorem witness_PipelineHaltsAsInterpreter :
    storeThenHalt.legal = true ∧ NoStaleFetch (State.launch storeThenHalt) ∧
    ∃ u, runSteps 7 (State.launch storeThenHalt) = .next u ∧ u.status = .halted :=
  ⟨by decide, noStaleFetch_storeThenHalt, _, rfl, by decide⟩

/-- V-S6: `halt`, then an `LW` out of range behind it. -/
def haltThenBadLoad : Launch := launchOf [0x01800000, 0x00810032] 0 0 0 0

theorem noStaleFetch_haltThenBadLoad : NoStaleFetch (State.launch haltThenBadLoad) :=
  noStaleFetch_of_one_step (u := (State.launch haltThenBadLoad).haltMachine) (f := .halted) rfl rfl (by decide) (by decide)

/-- V-F2: an `LW` out of range. -/
def badLoad : Launch := launchOf [0x0081FFFF] 0 0 0 0

/-- The interpreter's state at its fault. -/
def badLoad1 : State :=
  { State.launch badLoad with status := .faulted, fault := some { addr := 0xFFFFFFFF, instr := 0x0081FFFF, cycle := 0 } }

theorem noStaleFetch_badLoad : NoStaleFetch (State.launch badLoad) :=
  noStaleFetch_of_one_step (u := badLoad1) (f := .faulted badLoad1.fault) rfl rfl (by decide) (by decide)

/-- Legal launches whose runs reach FAULTED: by the word behind the `HALT`, and by the interpreter's own fault. -/
theorem witness_PipelineFaultsAsInterpreter :
    (haltThenBadLoad.legal = true ∧ NoStaleFetch (State.launch haltThenBadLoad) ∧
      ∃ u r, runSteps 5 (State.launch haltThenBadLoad) = .next u ∧ u.status = .faulted ∧ u.fault = some r) ∧
    badLoad.legal = true ∧ NoStaleFetch (State.launch badLoad) ∧
    ∃ u r, runSteps 4 (State.launch badLoad) = .next u ∧ u.status = .faulted ∧ u.fault = some r :=
  ⟨⟨by decide, noStaleFetch_haltThenBadLoad, _, _, rfl, by decide, rfl⟩,
    by decide, noStaleFetch_badLoad, _, _, rfl, by decide, rfl⟩

/-- V-H3: a store to the third word behind it, which the pipeline has fetched. -/
def staleHalt : Launch :=
  launchOf [0x00C10003, 0x01C00000, 0x01C00000, 0x01800000, 0x01800000] 0 0x00120002 3 0

/-- V-H3 does not meet the condition of R79 d, and its run reaches HALTED. -/
theorem test_stale_fetch : ¬ NoStaleFetch (State.launch staleHalt) := fun h =>
  h 0 2 (State.launch staleHalt) _ _ 3#32 rfl (by decide) rfl rfl (by decide) (by decide) (by decide)

/-- V-H3 reports 8, counted on what retires: four instructions. -/
theorem witness_CycleCountAtHalt :
    ∃ u, runSteps 9 (State.launch staleHalt) = .next u ∧ u.status = .halted ∧ u.cycles = 8 ∧
      (retiredBy staleHalt 9).length = 4 := ⟨_, rfl, by decide, by decide, by decide⟩

/-- `sw 0 1 5; beq 0 0 3`: the branch is fetched too late to be stale at its target (R107). -/
theorem test_branch_is_no_stale_fetch :
    lostCycles 1 (seqAt 1 (stateOf [0x00C10005, 0x01000003, 0, 0, 0, 0x01800000] 0 0x01800000 0 0)) = 3 := by decide

/-- V-C6's kind: an `LW` whose word is used next, and the taken branch behind it, as they retire. -/
theorem test_retired :
    retiredBy (launchOf [0x00810003, 0x01010001, 0x01800000, 0] 0 0 0 0) 12 =
      [⟨0x00810003, false⟩, ⟨0x01010001, true⟩, ⟨0, false⟩] := by decide

/-- The store-and-halt program is well-formed. -/
theorem witness_WellFormedProgramRunsSafely : WellFormedProgram storeThenHalt := by
  have hin : ∀ n t, seqRun n (State.launch storeThenHalt) = .next t →
      t ∈ [State.launch storeThenHalt, storeThenHalt1, storeThenHalt2] := fun n t h =>
    Laws.seqRun_invariant (P := (· ∈ [State.launch storeThenHalt, storeThenHalt1, storeThenHalt2]))
      (fun t u ht h => closed_storeThenHalt t ht u h) (by simp) h
  have e0 : instrOf ((State.launch storeThenHalt).fetchWord (State.launch storeThenHalt).pc) = some (.sw 0 1 3) := by
    decide
  have e1 : instrOf (storeThenHalt1.fetchWord storeThenHalt1.pc) = some (.halt 0 0 0) := by decide
  have e2 : instrOf (storeThenHalt2.fetchWord storeThenHalt2.pc) = some (.halt 0 0 0) := by decide
  refine ⟨by decide, noStaleFetch_storeThenHalt, ?_, ?_, 2, storeThenHalt2, storeThenHalt2, ⟨rfl, rfl⟩, rfl⟩
  · intro n t i h _ hi
    have := hin n t h
    simp only [List.mem_cons, List.not_mem_nil, or_false] at this
    rcases this with rfl | rfl | rfl
    · rw [e0] at hi; cases hi; rfl
    · rw [e1] at hi; cases hi; rfl
    · rw [e2] at hi; cases hi; rfl
  · intro n t h _
    have := hin n t h
    simp only [List.mem_cons, List.not_mem_nil, or_false] at this
    rcases this with rfl | rfl | rfl
    · rw [e0]; simp
    · rw [e1]; simp
    · rw [e2]; simp

end Sys2Proof.Tests
end

section
/-!
PROOFS. The scope of the machine: the fields of a word read as numbers (R6, R7, R43, R47), the launch's bound (R4, R31),
and the parameters that no step changes (R4, R23, R42).
-/

namespace Sys2Proof.Proofs

open Sys2Proof Sys2Proof.Machine Sys2Proof.Safety Sys2Proof.Laws

/-! ### The fields of a word, as numbers -/

/-- The opcode field reaches bit 31, so it is a quotient with no remainder to take (R43). -/
theorem op_toNat (w : Word) : (op w).toNat = w.toNat / 2 ^ 22 := by
  have hw : w.toNat < 2 ^ 32 := w.isLt
  rw [op, BitVec.extractLsb'_toNat, Nat.shiftRight_eq_div_pow]
  exact Nat.mod_eq_of_lt (by omega)

theorem rA_toNat (w : Word) : (rA w).toNat = w.toNat / 2 ^ 19 % 8 := by
  rw [rA, BitVec.extractLsb'_toNat, Nat.shiftRight_eq_div_pow]

theorem rB_toNat (w : Word) : (rB w).toNat = w.toNat / 2 ^ 16 % 8 := by
  rw [rB, BitVec.extractLsb'_toNat, Nat.shiftRight_eq_div_pow]

theorem off16_toNat (w : Word) : (off16 w).toNat = w.toNat % 2 ^ 16 := by
  rw [off16, BitVec.extractLsb'_toNat, Nat.shiftRight_zero]

theorem dst3_toNat (w : Word) : (dst3 w).toNat = w.toNat % 8 := by
  rw [dst3, BitVec.extractLsb'_toNat, Nat.shiftRight_zero]

/-- The extension keeps the signed value of the field: two's complement on 16 bits (R7, R47). -/
theorem sext32_toInt (v : Offset) :
    (sext32 v).toInt = if 2 ^ 15 ≤ v.toNat then (v.toNat : Int) - 2 ^ 16 else (v.toNat : Int) := by
  have hkeep : (sext32 v).toInt = v.toInt := BitVec.toInt_signExtend_of_le (by decide)
  rw [hkeep, BitVec.toInt_eq_toNat_cond]
  by_cases hneg : 2 ^ 15 ≤ v.toNat
  · rw [if_pos hneg, if_neg (by omega)]
    rfl
  · rw [if_neg hneg, if_pos (by omega)]

/-- Settles O3, one lemma per field. -/
theorem fieldsOfWordAsNumbers : Obligations.FieldsOfWordAsNumbers := by
  intro w
  refine ⟨op_toNat w, rA_toNat w, rB_toNat w, off16_toNat w, dst3_toNat w, ?_⟩
  rw [sext32_toInt, off16_toNat]

/-! ### The launch -/

theorem legal_iff (l : Launch) : l.legal = true ↔ l.image.length ≤ 65536 := decide_eq_true_iff

theorem launch_of_legal {l : Launch} (h : l.legal = true) : launch l = .ok (State.launch l) := if_pos h

theorem launch_of_not_legal {l : Launch} (h : ¬ l.legal = true) :
    launch l = .error (.imageTooLarge l.image.length) := if_neg h

/-- Settles O46: the bound of R4 is what makes an image legal. -/
theorem launchRefusesLargeImage : Obligations.LaunchRefusesLargeImage := by
  intro l
  constructor
  · intro hfits
    exact launch_of_legal ((legal_iff l).mpr hfits)
  · intro hlarge
    exact launch_of_not_legal (fun hlegal => absurd ((legal_iff l).mp hlegal) (by omega))

/-! ### What no step changes -/

@[simp] theorem committed_nMem (s : State) : (committed s).nMem = s.nMem := rfl
@[simp] theorem committed_stallFields (s : State) : (committed s).stallFields = s.stallFields := rfl
@[simp] theorem committed_fault (s : State) : (committed s).fault = s.fault := rfl

/-- A halt, a fault and a commit each keep the launch parameters (R4, R42). -/
theorem step_sameParams {s t : State} (h : step s = .next t) : SameParams s t := by
  obtain ⟨-, ⟨-, rfl⟩ | ⟨-, -, rfl⟩ | ⟨-, -, rfl⟩⟩ := step_cases h
  · exact ⟨haltMachine_nMem s, haltMachine_stallFields s⟩
  · exact ⟨raiseMemRangeFault_nMem s _, raiseMemRangeFault_stallFields s _⟩
  · exact ⟨committed_nMem s, committed_stallFields s⟩

/-- Only a step that ends FAULTED writes the record (R91, R92). -/
theorem step_fault_of_not_faulted {s t : State} (h : step s = .next t) (ht : t.status ≠ .faulted) :
    t.fault = s.fault := by
  obtain ⟨-, ⟨-, rfl⟩ | ⟨-, -, rfl⟩ | ⟨-, -, rfl⟩⟩ := step_cases h
  · exact haltMachine_fault s
  · exact absurd (raiseMemRangeFault_status s _) ht
  · exact committed_fault s

/-- Settles O36, over what one step can do. -/
theorem parametersConstant : Obligations.ParametersConstant := by
  intro s t h
  refine ⟨step_sameParams h, fun hrun => step_fault_of_not_faulted h ?_⟩
  rw [hrun]
  decide

end Sys2Proof.Proofs
end

section
/-!
PROOFS. The state across one cycle: what a committed cycle leaves in each field, and from it the agreement of status and
record (R23, R57, R91, R92), the program counter (R14), the register file (R12) and the data of the latches (R15, R61, R66,
R72, R74).
-/

namespace Sys2Proof.Proofs

open Sys2Proof Sys2Proof.Machine Sys2Proof.Safety Sys2Proof.Laws

/-! ### The fields a committed cycle leaves -/

@[simp] theorem committed_status (s : State) : (committed s).status = s.status := rfl
@[simp] theorem committed_cycles (s : State) : (committed s).cycles = s.cycles + 1 := rfl
@[simp] theorem committed_mem (s : State) : (committed s).mem = memoryAfter s := rfl
@[simp] theorem committed_x (s : State) : (committed s).x = regsAfter s := rfl
@[simp] theorem committed_memwb (s : State) :
    (committed s).memwb = { instr := s.exmem.instr, writeData := memoryValue s } := rfl
@[simp] theorem committed_wbend (s : State) :
    (committed s).wbend = { instr := s.memwb.instr, writeData := s.memwb.writeData } := rfl
@[simp] theorem committed_flagUnsupported (s : State) :
    (committed s).flagUnsupported = stickyUnsupported s.flagUnsupported s.wbend.instr := rfl

/-! ### Status and fault record -/

theorem statusInv_haltMachine {s : State} (hfault : s.fault = none) (hop : op s.wbend.instr = 6#10) :
    StatusInv s.haltMachine :=
  ⟨fun _ => hfault, fun h => absurd h (by simp), fun _ => hop⟩

theorem statusInv_raiseMemRangeFault {s : State} (hop : op s.exmem.instr = 2#10 ∨ op s.exmem.instr = 3#10)
    (hout : s.inRange s.exmem.aluResult = false) :
    StatusInv (s.raiseMemRangeFault (s.faultRecord s.exmem.aluResult s.exmem.instr)) :=
  ⟨fun h => absurd (raiseMemRangeFault_status s _) h, fun _ => ⟨rfl, hop, hout⟩, fun h => absurd h (by simp)⟩

/-- A state that still runs meets the invariant when it has no record. -/
theorem statusInv_of_running {s : State} (hrun : s.status = .running) (hfault : s.fault = none) : StatusInv s :=
  ⟨fun _ => hfault, fun h => absurd h (by simp [hrun]), fun h => absurd h (by simp [hrun])⟩

/-- Settles O40: a step starts RUNNING and so without a record, and each of its three outcomes sets status and record
together. -/
theorem statusInvKeptByStep : Obligations.StatusInvKeptByStep := by
  rintro s t ⟨hnone, -, -⟩ h
  obtain ⟨hrun, -⟩ := step_cases h
  have hfault : s.fault = none := hnone (by simp [hrun])
  obtain ⟨-, rfl⟩ | ⟨-, -, ⟨hop, rfl⟩ | ⟨-, hop, hout, rfl⟩⟩ := step_cases_commits h
  · exact statusInv_of_running hrun hfault
  · exact statusInv_haltMachine hfault hop
  · exact statusInv_raiseMemRangeFault hop hout

/-! ### The program counter -/

theorem committed_pc_of_takenBranch {s : State} (h : TakenBranch s) : (committed s).pc = s.exmem.branchTarget :=
  if_pos ((squashes_iff s).mpr h)

theorem committed_pc_of_not_takenBranch {s : State} (h : ¬ TakenBranch s) :
    (committed s).pc = if s.stalls then s.pc else s.pc + 1#32 :=
  if_neg (mt (squashes_iff s).mp h)

/-- Settles O17: the squash overrides the stall, which overrides Fetch. -/
theorem pcInCommittedCycle : Obligations.PcInCommittedCycle := by
  intro s hc
  refine ⟨committed s, step_of_commits hc, committed_pc_of_takenBranch, fun hb hl => ?_, fun hb hl => ?_⟩
  · rw [committed_pc_of_not_takenBranch hb, if_pos ((stalls_iff s).mpr hl)]
  · rw [committed_pc_of_not_takenBranch hb, if_neg (mt (stalls_iff s).mp hl)]

/-! ### The register file -/

/-- The words that produce `r` are those with destination `r` (R48, R67). -/
theorem produces_iff_dest (w : Word) (r : RegNum) : Produces w r ↔ dest w = some r := by
  unfold Produces dest
  rcases op_cases w with h | h | h | h | h | h | h | h | h
  · simp [instrOf_add h, destOf, lowDest_off16, h]
  · simp [instrOf_nand h, destOf, lowDest_off16, h]
  · simp [instrOf_lw h, destOf, h]
  · simp [instrOf_sw h, destOf, h]
  · simp [instrOf_beq h, destOf, h]
  · simp [instrOf_jalr h, destOf, h]
  · simp [instrOf_halt h, destOf, h]
  · simp [instrOf_noop h, destOf, h]
  · have hne : op w ≠ 0#10 ∧ op w ≠ 1#10 ∧ op w ≠ 2#10 := by bv_omega
    simp [instrOf_undefined h, destOf, hne]

theorem regsAfter_of_dest {s : State} {d : RegNum} (h : dest s.memwb.instr = some d) :
    regsAfter s = (s.writeReg d s.memwb.writeData).x := by
  simp [regsAfter, h]

theorem regsAfter_of_no_dest {s : State} (h : dest s.memwb.instr = none) : regsAfter s = s.x := by
  simp [regsAfter, h]

/-- A register reads the same in two states with the same register file. -/
theorem readReg_congr {s t : State} (h : t.x = s.x) (q : RegNum) : t.readReg q = s.readReg q := by
  simp [State.readReg, h]

/-- WriteBack leaves every register but the destination of the word in MEMWB (R12, R74). -/
theorem committed_readReg_of_not_dest {s : State} {q : RegNum} (h : dest s.memwb.instr ≠ some q) :
    (committed s).readReg q = s.readReg q := by
  cases hd : dest s.memwb.instr with
  | none => exact readReg_congr (regsAfter_of_no_dest hd) q
  | some d =>
    have hqd : q ≠ d := fun e => h (by rw [hd, e])
    calc (committed s).readReg q
        = (s.writeReg d s.memwb.writeData).readReg q := readReg_congr (regsAfter_of_dest hd) q
      _ = s.readReg q := readReg_writeReg_other s _ hqd

/-- A register that a step changes is the destination of the word in MEMWB. -/
theorem dest_of_readReg_ne {s t : State} {q : RegNum} (h : step s = .next t) (hq : t.readReg q ≠ s.readReg q) :
    dest s.memwb.instr = some q := by
  obtain ⟨-, ⟨-, rfl⟩ | ⟨-, -, rfl⟩ | ⟨-, -, rfl⟩⟩ := step_cases h
  · exact absurd (haltMachine_readReg s q) hq
  · exact absurd (raiseMemRangeFault_readReg s _ q) hq
  · by_contra hne
    exact hq (committed_readReg_of_not_dest hne)

/-- Settles O32: every changed register is the one destination of the word in MEMWB. -/
theorem oneRegisterWritePerCycle : Obligations.OneRegisterWritePerCycle := by
  intro s t q h hq
  have hd : dest s.memwb.instr = some q := dest_of_readReg_ne h hq
  refine ⟨(produces_iff_dest _ q).mpr hd, fun q' hq' => ?_⟩
  have hd' : dest s.memwb.instr = some q' := dest_of_readReg_ne h hq'
  exact Option.some.inj (hd'.symm.trans hd)

/-! ### The data of the latches -/

/-- The `BEQ` outcome is 0 or 1 (R15, R66). -/
theorem alu_beq_bit {w : Word} (h : op w = 4#10) (a b off : Word) :
    alu (instrOf w) a b off = 0#32 ∨ alu (instrOf w) a b off = 1#32 := by
  rw [instrOf_beq h]
  by_cases hab : a = b
  · exact .inr (if_pos hab)
  · exact .inl (if_neg hab)

/-- The opcodes from 5 on are `JALR`, `HALT`, `NOOP` and the undefined ones. -/
theorem op_cases_of_five_le {w : Word} (h : 5 ≤ (op w).toNat) :
    op w = 5#10 ∨ op w = 6#10 ∨ op w = 7#10 ∨ 8 ≤ (op w).toNat := by
  generalize op w = o at h
  bv_omega

/-- An opcode without an ALU operation gives 0 (R66, D11). -/
theorem alu_eq_zero {w : Word} (h : 5 ≤ (op w).toNat) (a b off : Word) : alu (instrOf w) a b off = 0#32 := by
  obtain h | h | h | h := op_cases_of_five_le h
  · rw [instrOf_jalr h]; rfl
  · rw [instrOf_halt h]; rfl
  · rw [instrOf_noop h]; rfl
  · rw [instrOf_undefined h]; rfl

/-- A word that produces nothing takes 0 to MEMWB (R72). -/
theorem memoryValue_eq_zero {s : State} (h : 3 ≤ (op s.exmem.instr).toNat) : memoryValue s = 0#32 := by
  have hop : op s.exmem.instr = 3#10 ∨ op s.exmem.instr = 4#10 ∨ 5 ≤ (op s.exmem.instr).toNat := by
    generalize op s.exmem.instr = o at h
    bv_omega
  unfold memoryValue
  obtain h | h | h := hop
  · rw [instrOf_sw h]
  · rw [instrOf_beq h]
  · obtain h | h | h | h := op_cases_of_five_le h
    · rw [instrOf_jalr h]
    · rw [instrOf_halt h]
    · rw [instrOf_noop h]
    · rw [instrOf_undefined h]

/-- The word that a committed cycle leaves in IDEX, decoded or a bubble, comes with its own offset (R61, R64, R70). -/
theorem committed_idex_offset (s : State) :
    (committed s).idex.offset = sext32 (off16 (committed s).idex.instr) := by
  have hbubble : bubbleIDEX.offset = sext32 (off16 bubbleIDEX.instr) := by decide
  unfold committed
  cases s.squashes
  · cases s.stalls
    · rfl
    · exact hbubble
  · exact hbubble

/-- EXMEM after a committed cycle: a bubble, or the word of IDEX with a result of the `alu` table (R66, R70). -/
theorem committed_exmem_cases (s : State) :
    (committed s).exmem = bubbleEXMEM ∨
    ∃ a b off, (committed s).exmem.instr = s.idex.instr ∧
      (committed s).exmem.aluResult = alu (instrOf s.idex.instr) a b off := by
  unfold committed
  cases s.squashes
  · exact .inr ⟨s.forward.1, s.forward.2, s.idex.offset, rfl, rfl⟩
  · exact .inl rfl

theorem committed_exmem_beq_bit {s : State} (h : op (committed s).exmem.instr = 4#10) :
    (committed s).exmem.aluResult = 0#32 ∨ (committed s).exmem.aluResult = 1#32 := by
  obtain hb | ⟨a, b, off, hi, ha⟩ := committed_exmem_cases s
  · rw [hb]; exact .inl rfl
  · rw [ha]; exact alu_beq_bit (hi ▸ h) a b off

theorem committed_exmem_eq_zero {s : State} (h : 5 ≤ (op (committed s).exmem.instr).toNat) :
    (committed s).exmem.aluResult = 0#32 := by
  obtain hb | ⟨a, b, off, hi, ha⟩ := committed_exmem_cases s
  · rw [hb]; rfl
  · rw [ha]; exact alu_eq_zero (hi ▸ h) a b off

/-- Settles O41: a cycle that ends the run moves no latch; a committed one computes the data of IDEX, EXMEM and MEMWB anew
and copies MEMWB to WBEND. -/
theorem latchInvKeptByStep : Obligations.LatchInvKeptByStep := by
  intro s t hinv h
  obtain ⟨-, ⟨-, rfl⟩ | ⟨-, -, rfl⟩ | ⟨-, -, rfl⟩⟩ := step_cases h
  · exact hinv
  · exact hinv
  · obtain ⟨-, -, -, hmemwb, -⟩ := hinv
    exact ⟨committed_idex_offset s, committed_exmem_beq_bit, committed_exmem_eq_zero, memoryValue_eq_zero, hmemwb⟩

end Sys2Proof.Proofs
end

section
/-!
PROOFS. The end of a run: an ended state takes no cycle and executes nothing (R23, R56, R97), and every cycle started
delivers one snapshot (R28, R29).
-/

namespace Sys2Proof.Proofs

open Sys2Proof Sys2Proof.Machine Sys2Proof.Safety Sys2Proof.Laws

/-! ### Ended states -/

/-- Every instruction's meaning is an effect that only a RUNNING machine has (R56). -/
theorem exec_eq_whenRunning (i : Instr) (s : State) : ∃ t, exec i s = s.whenRunning t := by
  cases i <;> exact ⟨_, rfl⟩

theorem step_of_halted {s : State} (h : s.status = .halted) : step s = .fault .halted := whenRunning_of_halted h

theorem step_of_faulted {s : State} (h : s.status = .faulted) : step s = .fault (.faulted s.fault) :=
  whenRunning_of_faulted h

/-- Settles O13: step and instruction meanings alike go through `whenRunning`. -/
theorem endedStatesHaveNoCycle : Obligations.EndedStatesHaveNoCycle := by
  intro s
  constructor
  · intro h
    refine ⟨step_of_halted h, fun i => ?_⟩
    obtain ⟨t, ht⟩ := exec_eq_whenRunning i s
    rw [ht, whenRunning_of_halted h]
  · intro h
    refine ⟨step_of_faulted h, fun i => ?_⟩
    obtain ⟨t, ht⟩ := exec_eq_whenRunning i s
    rw [ht, whenRunning_of_faulted h]

/-! ### The snapshot of a cycle -/

theorem emitted_of_running {s : State} (h : s.status = .running) : s.emitted = [s.snapshot] := by
  simp [State.emitted, h]

theorem emitted_of_ended {s : State} (h : s.status ≠ .running) : s.emitted = [] := by
  cases hs : s.status with
  | running => exact absurd hs h
  | halted => simp [State.emitted, hs]
  | faulted => simp [State.emitted, hs]

theorem snapshot_mem_length (s : State) : s.snapshot.mem.length = s.nMem := by simp [State.snapshot]

theorem snapshot_mem_getElem? {s : State} {i : Nat} (h : i < s.nMem) :
    s.snapshot.mem[i]? = some (readWord s.mem i) := by
  simp [State.snapshot, h]

/-- Settles O47: the memory is read word by word, and every other field is the state's own. -/
theorem snapshotCopiesState : Obligations.SnapshotCopiesState := by
  intro s
  refine ⟨emitted_of_running, emitted_of_ended, rfl, snapshot_mem_length s, fun i hi => snapshot_mem_getElem? hi, ?_⟩
  exact ⟨rfl, rfl, rfl, rfl, rfl, rfl, rfl, rfl, rfl, rfl, rfl, rfl⟩

/-! ### The snapshots of a run -/

/-- A run of one step or more starts with a step. -/
theorem runSteps_succ_eq_next {k : Nat} {s u : State} (h : runSteps (k + 1) s = .next u) :
    ∃ t, step s = .next t ∧ runSteps k t = .next u := by
  unfold runSteps at h
  cases hs : step s with
  | next t => rw [hs] at h; exact ⟨t, rfl, h⟩
  | fault f => rw [hs] at h; cases h
  | refused r => rw [hs] at h; cases h

theorem runTrace_succ_of_next {k : Nat} {s t : State} (h : step s = .next t) :
    runTrace (k + 1) s = { runTrace k t with snapshots := s.emitted ++ (runTrace k t).snapshots } := by
  simp [runTrace, h]

/-- The trace of a run that takes all its `k` steps: one snapshot for each, the last state and its report (R28, R29). -/
theorem runTrace_of_runSteps {k : Nat} {s u : State} (h : runSteps k s = .next u) :
    (runTrace k s).snapshots.length = k ∧ (runTrace k s).final = u ∧ (runTrace k s).report = u.report := by
  induction k generalizing s with
  | zero => cases h; exact ⟨rfl, rfl, rfl⟩
  | succ k ih =>
    obtain ⟨t, hst, htu⟩ := runSteps_succ_eq_next h
    obtain ⟨hlen, hfinal, hreport⟩ := ih htu
    rw [runTrace_succ_of_next hst, emitted_of_running (step_cases hst).1]
    exact ⟨by simp [hlen], hfinal, hreport⟩

/-- A cycle that ends the run does not count, and every other does (R75, R92, R93). -/
theorem step_cycles {s t : State} (h : step s = .next t) :
    t.cycles = if t.status = .running then s.cycles + 1 else s.cycles := by
  obtain ⟨hrun, ⟨-, rfl⟩ | ⟨-, -, rfl⟩ | ⟨-, -, rfl⟩⟩ := step_cases h
  · simp
  · simp
  · simp [hrun]

/-- An ended state is the last of its run. -/
theorem runSteps_of_ended {k : Nat} {s u : State} (hs : s.status ≠ .running) (h : runSteps k s = .next u) : k = 0 := by
  cases k with
  | zero => rfl
  | succ k =>
    obtain ⟨t, hst, -⟩ := runSteps_succ_eq_next h
    exact absurd (step_cases hst).1 hs

/-- The steps of a run that ends are the committed cycles and the one that ends it. -/
theorem runSteps_cycles_of_ended {k : Nat} {s u : State} (hs : s.status = .running) (h : runSteps k s = .next u)
    (hu : u.status ≠ .running) : s.cycles + k = u.cycles + 1 := by
  induction k generalizing s with
  | zero => cases h; exact absurd hs hu
  | succ k ih =>
    obtain ⟨t, hst, htu⟩ := runSteps_succ_eq_next h
    have hcycles := step_cycles hst
    by_cases ht : t.status = .running
    · rw [if_pos ht] at hcycles
      have := ih ht htu
      omega
    · rw [if_neg ht] at hcycles
      obtain rfl := runSteps_of_ended ht htu
      cases htu
      omega

theorem report_of_ended {s : State} (h : s.status ≠ .running) : s.report ≠ none := by
  cases hs : s.status with
  | running => exact absurd hs h
  | halted => simp [State.report, hs]
  | faulted => simp [State.report, hs]

/-- Settles O48: as many snapshots as steps, and as many steps as committed cycles and the one that ends the run. -/
theorem oneSnapshotPerCycle : Obligations.OneSnapshotPerCycle := by
  intro l k u h hu
  obtain ⟨hlen, hfinal, hreport⟩ := runTrace_of_runSteps h
  have hcycles := runSteps_cycles_of_ended (launch_status l) h hu
  rw [launch_cycles, Nat.zero_add] at hcycles
  exact ⟨hlen.trans hcycles, hfinal, hreport, report_of_ended hu⟩

end Sys2Proof.Proofs
end

section
/-!
PROOFS. An instruction placed at `pc` (R27, assumption log 3): the word is there to fetch (R33), and the one cycle from the
placed state has the instruction's whole sequential effect (R80 to R87).
-/

namespace Sys2Proof.Proofs

open Sys2Proof Sys2Proof.Machine Sys2Proof.Safety Sys2Proof.Laws

/-! ### The word of an instruction -/

theorem op_encode (i : Instr) : op (encode i) = i.opcode := op_packFields _ _ _ _
theorem rA_encode (i : Instr) : rA (encode i) = i.ra := rA_packFields _ _ _ _
theorem rB_encode (i : Instr) : rB (encode i) = i.rb := rB_packFields _ _ _ _
theorem off16_encode (i : Instr) : off16 (encode i) = i.off := off16_packFields _ _ _ _

/-- An instruction's word stands for the instruction (R45, R53). -/
theorem instrOf_encode (i : Instr) : instrOf (encode i) = some i := by
  have hop := op_encode i
  have hra := rA_encode i
  have hrb := rB_encode i
  have hoff := off16_encode i
  cases i with
  | add => rw [instrOf_add hop, hra, hrb, hoff]; rfl
  | nand => rw [instrOf_nand hop, hra, hrb, hoff]; rfl
  | lw => rw [instrOf_lw hop, hra, hrb, hoff]; rfl
  | sw => rw [instrOf_sw hop, hra, hrb, hoff]; rfl
  | beq => rw [instrOf_beq hop, hra, hrb, hoff]; rfl
  | jalr => rw [instrOf_jalr hop, hra, hrb, hoff]; rfl
  | halt => rw [instrOf_halt hop, hra, hrb, hoff]; rfl
  | noop => rw [instrOf_noop hop, hra, hrb, hoff]; rfl

theorem dest_encode (i : Instr) : dest (encode i) = destOf (some i) := by rw [dest, instrOf_encode]

/-- Of the instructions, `JALR` alone is unsupported (R58). -/
theorem unsupported_encode (i : Instr) : unsupported (encode i) = (i.opcode == 5#10) := by
  rw [unsupported, op_encode]
  cases i <;> rfl

/-! ### The meaning of every instruction in a RUNNING state, said once -/

/-- What Execute computes for the instruction from the registers: a result, an address, or the `BEQ` outcome (R66). -/
def resultOf (i : Instr) (s : State) : Word := alu (some i) (s.readReg i.ra) (s.readReg i.rb) (sext32 i.off)

/-- The instruction raises `MemRangeFault`: it is an access out of range (R73, R82, R83). -/
def accessFaults (i : Instr) (s : State) : Bool := isAccess (some i) && !s.inRange (resultOf i s)

/-- The value for the instruction's destination (R80, R81, R82); 0 for one that has none. -/
def valueOf (i : Instr) (s : State) : Word :=
  match i with
  | .lw _ _ _ => s.memRead (resultOf i s)
  | .add _ _ _ => resultOf i s
  | .nand _ _ _ => resultOf i s
  | _ => 0#32

/-- The memory the instruction leaves: an `SW` changes one word of it (R83). -/
def memoryOf (i : Instr) (s : State) : Memory :=
  match i with
  | .sw _ _ _ => writeWord s.mem (resultOf i s).toNat (s.readReg i.rb)
  | _ => s.mem

/-- The state an instruction leaves that neither halts nor faults (R80 to R87). `exec_eq` ties it to `exec`. -/
def completed (i : Instr) (s : State) : State :=
  { s with
    pc := if isBeq (some i) && flagTaken (resultOf i s) then branchTargetOf (s.pc + 1#32) (sext32 i.off)
      else s.pc + 1#32
    x := match destOf (some i) with
      | some d => (s.writeReg d (valueOf i s)).x
      | none => s.x
    mem := memoryOf i s
    flagUnsupported := i.opcode == 5#10 || s.flagUnsupported }

/-- The range check of an access is what decides its fault (R73). -/
theorem ite_inRange {i : Instr} {s : State} (h : isAccess (some i) = true) (t u : State) :
    (if s.inRange (resultOf i s) then t else u) = if accessFaults i s then u else t := by
  rw [accessFaults, h]
  cases s.inRange (resultOf i s) <;> rfl

/-- All an instruction can do, as `cycle_eq` says it of a cycle: halt, fault, or complete. -/
theorem exec_eq {s : State} (hrun : s.status = .running) (i : Instr) :
    exec i s = .next
      (if isHalt (some i) then s.haltMachine
      else if accessFaults i s then s.raiseMemRangeFault (s.faultRecord (resultOf i s) (encode i))
      else completed i s) := by
  cases i with
  | add ra rb off => exact whenRunning_of_running hrun
  | nand ra rb off => exact whenRunning_of_running hrun
  | lw ra rb off => exact (whenRunning_of_running hrun).trans (congrArg _ (ite_inRange (i := .lw ra rb off) rfl _ _))
  | sw ra rb off => exact (whenRunning_of_running hrun).trans (congrArg _ (ite_inRange (i := .sw ra rb off) rfl _ _))
  | beq ra rb off =>
    refine (whenRunning_of_running hrun).trans (congrArg _ ?_)
    change (if flagTaken (resultOf (.beq ra rb off) s) then _ else _) = completed (.beq ra rb off) s
    cases htaken : flagTaken (resultOf (.beq ra rb off) s) <;> simp only [completed, htaken] <;> rfl
  | jalr ra rb off => exact whenRunning_of_running hrun
  | halt ra rb off => exact whenRunning_of_running hrun
  | noop ra rb off => exact whenRunning_of_running hrun

/-! ### The Memory stage of an instruction in EXMEM -/

section Exmem

variable {i : Instr} {p : State} (hinstr : p.exmem.instr = encode i) (hresult : p.exmem.aluResult = resultOf i p)

include hinstr hresult

theorem memoryFaults_of_exmem : memoryFaults p = accessFaults i p := by
  rw [memoryFaults, hinstr, instrOf_encode, hresult]
  rfl

theorem memoryValue_of_exmem : memoryValue p = valueOf i p := by
  rw [memoryValue, hinstr, instrOf_encode, hresult]
  cases i <;> rfl

end Exmem

/-! ### An instruction that stands in the latches whose stages act on the machine -/

/-- `t` and `u` agree in all that a sequential effect can change; the latches and the counter may differ. -/
def SameEffect (t u : State) : Prop :=
  u.pc = t.pc ∧ u.x = t.x ∧ u.mem = t.mem ∧ SameStatus t u ∧ u.flagUnsupported = t.flagUnsupported ∧ SameParams t u

theorem SameEffect.refl (t : State) : SameEffect t t := ⟨rfl, rfl, rfl, ⟨rfl, rfl⟩, rfl, ⟨rfl, rfl⟩⟩

/-- The instruction stands in EXMEM, in MEMWB where its access does not fault, and in WBEND, with the data that the stages
compute for it at the state's `pc` and registers, behind a bubble in IDEX. -/
structure StandsInLatches (i : Instr) (p : State) : Prop where
  running : p.status = .running
  idex : p.idex = bubbleIDEX
  exmem : p.exmem =
    { instr := encode i, branchTarget := branchTargetOf (p.pc + 1#32) (sext32 i.off), aluResult := resultOf i p,
      readRegB := p.readReg i.rb }
  memwb : accessFaults i p = false → p.memwb = { instr := encode i, writeData := valueOf i p }
  wbend : p.wbend.instr = encode i

namespace StandsInLatches

variable {i : Instr} {p : State}

/-! The conditions of the cycle are those of the instruction. -/

theorem exmem_instrOf (h : StandsInLatches i p) : instrOf p.exmem.instr = some i := by
  rw [h.exmem, instrOf_encode]

theorem haltRetires_eq (h : StandsInLatches i p) : p.haltRetires = isHalt (some i) := by
  rw [State.haltRetires, h.wbend, instrOf_encode]

theorem memoryFaults_eq (h : StandsInLatches i p) : memoryFaults p = accessFaults i p :=
  memoryFaults_of_exmem (by rw [h.exmem]) (by rw [h.exmem])

theorem squashes_eq (h : StandsInLatches i p) : p.squashes = (isBeq (some i) && flagTaken (resultOf i p)) := by
  rw [State.squashes, h.exmem_instrOf, h.exmem]

/-- A bubble in IDEX stalls nothing (R63). -/
theorem stalls_eq_false (h : StandsInLatches i p) : p.stalls = false := by
  rw [State.stalls, usesLoaded, h.idex]
  rfl

/-! The fields that a committed cycle leaves are those the instruction leaves. -/

theorem committed_pc (h : StandsInLatches i p) : (committed p).pc = (completed i p).pc := by
  unfold committed completed
  rw [h.squashes_eq, h.stalls_eq_false, h.exmem]
  rfl

theorem memoryAfter_eq (h : StandsInLatches i p) : memoryAfter p = memoryOf i p := by
  rw [memoryAfter, h.exmem_instrOf, h.exmem]
  cases i <;> rfl

theorem regsAfter_eq (h : StandsInLatches i p) (hok : accessFaults i p = false) : regsAfter p = (completed i p).x := by
  rw [regsAfter, h.memwb hok, dest_encode, completed]
  cases destOf (some i) <;> rfl

theorem flag_eq (h : StandsInLatches i p) :
    stickyUnsupported p.flagUnsupported p.wbend.instr = (completed i p).flagUnsupported := by
  rw [h.wbend, stickyUnsupported, unsupported_encode, Bool.or_comm]
  rfl

theorem committed_effect (h : StandsInLatches i p) (hok : accessFaults i p = false) :
    SameEffect (completed i p) (committed p) :=
  ⟨h.committed_pc, h.regsAfter_eq hok, h.memoryAfter_eq, ⟨rfl, rfl⟩, h.flag_eq, ⟨rfl, rfl⟩⟩

/-- One cycle has the effect of the instruction: both halt, both fault with one record, or both complete. -/
theorem step_effect (h : StandsInLatches i p) : ∃ t u, exec i p = .next t ∧ step p = .next u ∧ SameEffect t u := by
  refine ⟨_, _, exec_eq h.running i, step_of_running h.running, ?_⟩
  rw [cycle_eq, h.haltRetires_eq, h.memoryFaults_eq, h.exmem]
  split
  · exact SameEffect.refl _
  · cases hok : accessFaults i p with
    | true => exact SameEffect.refl _
    | false => exact h.committed_effect hok

end StandsInLatches

/-! ### Placing an instruction -/

/-- Execute leaves an instruction alone in the pipeline with its result on the registers (R66). -/
theorem executedAlone_encode (s : State) (i : Instr) :
    executedAlone s (encode i) =
      { instr := encode i, branchTarget := branchTargetOf (s.pc + 1#32) (sext32 i.off), aluResult := resultOf i s,
        readRegB := s.readReg i.rb } := by
  rw [executedAlone_eq, instrOf_encode, rA_encode, rB_encode, off16_encode]
  rfl

/-- The state whose Memory stage `accessedAlone` takes: the instruction alone in EXMEM. -/
def aloneInExmem (s : State) (i : Instr) : State :=
  { enterPipeline s (encode i) with exmem := executedAlone s (encode i) }

theorem memoryFaults_aloneInExmem (s : State) (i : Instr) : memoryFaults (aloneInExmem s i) = accessFaults i s :=
  memoryFaults_of_exmem (p := aloneInExmem s i) rfl (by rw [aloneInExmem, executedAlone_encode]; rfl)

theorem memoryValue_aloneInExmem (s : State) (i : Instr) : memoryValue (aloneInExmem s i) = valueOf i s :=
  (memoryValue_of_exmem (p := aloneInExmem s i) rfl (by rw [aloneInExmem, executedAlone_encode]; rfl)).trans
    (by cases i <;> rfl)

/-- The Memory stage leaves it with the value for its destination, where it does not fault (R72). -/
theorem accessedAlone_encode {s : State} {i : Instr} (hok : accessFaults i s = false) :
    accessedAlone s (encode i) = { instr := encode i, writeData := valueOf i s } := by
  have hstage := memoryStage_eq (aloneInExmem s i) (aloneInExmem s i) rfl
  rw [memoryFaults_aloneInExmem, hok, memoryValue_aloneInExmem] at hstage
  unfold aloneInExmem at hstage
  rw [accessedAlone, hstage]
  rfl

/-- A placed instruction stands in the latches. -/
theorem standsInLatches_placed {s : State} (i : Instr) (hrun : s.status = .running) (hpc : s.pc.toNat < 65536) :
    StandsInLatches i (s.withFetchWord 32 (encode i).toNat) := by
  rw [State.withFetchWord, placeAtPc_eq hpc]
  exact ⟨hrun, rfl, executedAlone_encode _ i, accessedAlone_encode, rfl⟩

/-- Below 2^31 the signed reading of an address is its unsigned one, so the bound of the image decides (R7, R32). -/
theorem inImage_of_lt {n : Nat} {a : Word} (hn : a.toNat < n) (ha : a.toNat < 2 ^ 31) : inImage n a = true := by
  have hsigned : a.toInt = a.toNat := BitVec.toInt_eq_toNat_of_lt (by omega)
  rw [inImage, decide_eq_true_iff, hsigned]
  omega

/-- The placed word is the one Fetch reads at `pc` (R33). -/
theorem fetchWord_placed {s : State} (w : Word) (hpc : s.pc.toNat < 65536) (hwf : s.mem.wf = true) :
    (s.withFetchWord 32 w.toNat).fetchWord s.pc = w := by
  rw [State.withFetchWord, placeAtPc_eq hpc]
  have hin : inImage (max s.nMem (s.pc.toNat + 1)) s.pc = true := inImage_of_lt (by omega) (by omega)
  exact (if_pos hin).trans (readWord_writeWord_same hwf)

/-- Settles O56: the placed instruction stands in the latches, so its cycle has its effect; and its word is at `pc`. -/
theorem placedInstructionRunsAtNextStep : Obligations.PlacedInstructionRunsAtNextStep := by
  intro s i hrun hpc
  constructor
  · intro hwf
    rw [fetchWord_placed (encode i) hpc hwf]
    exact instrOf_eq_some.mp (instrOf_encode i)
  · exact (standsInLatches_placed i hrun hpc).step_effect

end Sys2Proof.Proofs
end

section
/-!
PROOFS. The unified memory: a cycle and an instruction alike leave it as it is or store one word in range (R36, R37), so
its canonical form and its bounds stand (R31, R42), and a store is seen from the next cycle on (R39).
-/

namespace Sys2Proof.Proofs

open Sys2Proof Sys2Proof.Machine Sys2Proof.Safety Sys2Proof.Laws

/-! ### The one way memory changes -/

/-- The memory of `t` is that of `s` with the word `v` stored at `a`, an address in range (R32, R36). -/
structure StoresWord (s t : State) (a v : Word) : Prop where
  inRange : s.inRange a = true
  mem : t.mem = writeWord s.mem a.toNat v

namespace StoresWord

variable {s t : State} {a v : Word}

theorem memRead (h : StoresWord s t a v) (hwf : s.mem.wf = true) : t.memRead a = v := by
  rw [State.memRead, h.mem]
  exact readWord_writeWord_same hwf

/-- A fetch from the stored address, where the image has the same size, takes the stored word (R33, R39). -/
theorem fetchWord (h : StoresWord s t a v) (hwf : s.mem.wf = true) (hparams : SameParams s t) : t.fetchWord a = v := by
  have hin : t.inRange a = true := by
    rw [State.inRange, hparams.1]
    exact h.inRange
  exact (if_pos hin).trans (h.memRead hwf)

theorem readByte_outside (h : StoresWord s t a v) (hwf : s.mem.wf = true) {k : Nat}
    (hk : k < 4 * a.toNat ∨ 4 * a.toNat + 3 < k) : readByte t.mem k = readByte s.mem k := by
  rw [h.mem]
  exact readByte_writeWord_outside hwf hk

theorem memoryInv (h : StoresWord s t a v) (hparams : SameParams s t) (hinv : MemoryInv s) : MemoryInv t := by
  obtain ⟨hwf, hwithin, hmax⟩ := hinv
  rw [MemoryInv, hparams.1, h.mem]
  exact ⟨wf_writeWord hwf, within_writeWord (toNat_lt_of_inImage h.inRange) hwithin, hmax⟩

end StoresWord

theorem sameBytes_of_mem_eq {s t : State} (h : t.mem = s.mem) : SameBytes s t := fun k => by rw [h]

theorem memoryInv_of_mem_eq {s t : State} (h : t.mem = s.mem) (hparams : SameParams s t) (hinv : MemoryInv s) :
    MemoryInv t := by
  rw [MemoryInv, hparams.1, h]
  exact hinv

/-! ### Memory across one cycle -/

theorem memoryAfter_of_sw {s : State} (h : op s.exmem.instr = 3#10) :
    memoryAfter s = writeWord s.mem s.exmem.aluResult.toNat s.exmem.readRegB := by
  simp [memoryAfter, instrOf_sw h]

/-- No word but an `SW` has a memory effect (R37, R72). -/
theorem memoryAfter_of_not_sw {s : State} (h : op s.exmem.instr ≠ 3#10) : memoryAfter s = s.mem := by
  unfold memoryAfter
  rcases op_cases s.exmem.instr with hop | hop | hop | hop | hop | hop | hop | hop | hop
  · rw [instrOf_add hop]
  · rw [instrOf_nand hop]
  · rw [instrOf_lw hop]
  · exact absurd hop h
  · rw [instrOf_beq hop]
  · rw [instrOf_jalr hop]
  · rw [instrOf_halt hop]
  · rw [instrOf_noop hop]
  · rw [instrOf_undefined hop]

theorem committed_sameParams (s : State) : SameParams s (committed s) := ⟨committed_nMem s, committed_stallFields s⟩

/-- A committed cycle with an `SW` in EXMEM stores its word: the range check has passed (R73). -/
theorem committed_storesWord {s : State} (hc : CommitsCycle s) (hop : op s.exmem.instr = 3#10) :
    StoresWord s (committed s) s.exmem.aluResult s.exmem.readRegB := by
  obtain ⟨-, -, hin⟩ := hc
  exact ⟨hin (.inr hop), memoryAfter_of_sw hop⟩

/-- All a step can do to memory: nothing, or the store of the `SW` in EXMEM (R36, R37). -/
theorem step_mem_cases {s t : State} (h : step s = .next t) :
    t.mem = s.mem ∨ (op s.exmem.instr = 3#10 ∧ StoresWord s t s.exmem.aluResult s.exmem.readRegB) := by
  obtain ⟨hc, rfl⟩ | ⟨-, -, ⟨-, rfl⟩ | ⟨-, -, -, rfl⟩⟩ := step_cases_commits h
  · by_cases hop : op s.exmem.instr = 3#10
    · exact .inr ⟨hop, committed_storesWord hc hop⟩
    · exact .inl (memoryAfter_of_not_sw hop)
  · exact .inl (haltMachine_mem s)
  · exact .inl (raiseMemRangeFault_mem s _)

/-- Settles O37: a step leaves memory as it is or stores one word in range, and either keeps the invariant. -/
theorem memoryInvKeptByStep : Obligations.MemoryInvKeptByStep := by
  intro s t hinv h
  obtain hmem | ⟨-, hstore⟩ := step_mem_cases h
  · exact memoryInv_of_mem_eq hmem (step_sameParams h) hinv
  · exact hstore.memoryInv (step_sameParams h) hinv

/-- Settles O33, over all a step can do to memory. -/
theorem oneWordStorePerCycle : Obligations.OneWordStorePerCycle := by
  intro s t h hwf
  obtain hmem | ⟨hop, hstore⟩ := step_mem_cases h
  · exact .inl (sameBytes_of_mem_eq hmem)
  · exact .inr ⟨hop, hstore.inRange, hstore.memRead hwf, fun k hk => hstore.readByte_outside hwf hk⟩

/-! ### A store and the fetch of its own cycle -/

theorem not_takenBranch_of_sw {s : State} (h : op s.exmem.instr = 3#10) : ¬ TakenBranch s := by
  rintro ⟨hbeq, -⟩
  rw [h] at hbeq
  exact absurd hbeq (by decide)

/-- With no squash and no stall, Fetch latches the word that the pre-state holds at `pc` (R39, R60). -/
theorem committed_ifid_of_fetch {s : State} (hb : ¬ TakenBranch s) (hl : ¬ LoadUse s) :
    (committed s).ifid = { instr := s.fetchWord s.pc, pcPlus1 := s.pc + 1#32 } :=
  (if_neg (mt (squashes_iff s).mp hb)).trans (if_neg (mt (stalls_iff s).mp hl))

/-- Settles O34: the store is in the memory of the post-state, and Fetch reads that of the pre-state. -/
theorem storeSeenFromNextCycle : Obligations.StoreSeenFromNextCycle := by
  intro s hc hwf hop
  refine ⟨committed s, step_of_commits hc, ?_, fun hl => ?_⟩
  · exact (committed_storesWord hc hop).fetchWord hwf (committed_sameParams s)
  · rw [committed_ifid_of_fetch (not_takenBranch_of_sw hop) hl]

/-! ### Memory across one instruction of the interpreter -/

/-- What one instruction can do: it answers a next state only from a RUNNING state, and then it halts, faults or
completes. -/
theorem exec_cases {i : Instr} {s t : State} (h : exec i s = .next t) :
    s.status = .running ∧
    ((isHalt (some i) = true ∧ t = s.haltMachine) ∨
     (isHalt (some i) = false ∧ accessFaults i s = true ∧
        t = s.raiseMemRangeFault (s.faultRecord (resultOf i s) (encode i))) ∨
     (isHalt (some i) = false ∧ accessFaults i s = false ∧ t = completed i s)) := by
  obtain ⟨u, hguard⟩ := exec_eq_whenRunning i s
  have hrun : s.status = .running := (whenRunning_eq_next (hguard.symm.trans h)).1
  refine ⟨hrun, ?_⟩
  rw [exec_eq hrun] at h
  cases h
  cases hhalt : isHalt (some i) with
  | true => exact .inl ⟨rfl, rfl⟩
  | false =>
    cases hfault : accessFaults i s with
    | true => exact .inr (.inl ⟨rfl, rfl, rfl⟩)
    | false => exact .inr (.inr ⟨rfl, rfl, rfl⟩)

/-- An instruction keeps the launch parameters (R4, R42). -/
theorem exec_sameParams {i : Instr} {s t : State} (h : exec i s = .next t) : SameParams s t := by
  obtain ⟨-, ⟨-, rfl⟩ | ⟨-, -, rfl⟩ | ⟨-, -, rfl⟩⟩ := exec_cases h
  · exact ⟨haltMachine_nMem s, haltMachine_stallFields s⟩
  · exact ⟨raiseMemRangeFault_nMem s _, raiseMemRangeFault_stallFields s _⟩
  · exact ⟨rfl, rfl⟩

/-- An access that does not fault is in range (R73). -/
theorem inRange_of_not_accessFaults {i : Instr} {s : State} (hi : isAccess (some i) = true)
    (hok : accessFaults i s = false) : s.inRange (resultOf i s) = true := by
  rw [accessFaults, hi] at hok
  simpa using hok

/-- A completed instruction leaves memory as it is, or is an `SW` and stores its word (R80 to R87). -/
theorem completed_mem_cases {i : Instr} {s : State} (hok : accessFaults i s = false) :
    (completed i s).mem = s.mem ∨ StoresWord s (completed i s) (resultOf i s) (s.readReg i.rb) := by
  cases i with
  | sw ra rb off => exact .inr ⟨inRange_of_not_accessFaults rfl hok, rfl⟩
  | _ => exact .inl rfl

/-- All an instruction can do to memory: nothing, or the store of an `SW` (R36, R83). -/
theorem exec_mem_cases {i : Instr} {s t : State} (h : exec i s = .next t) :
    t.mem = s.mem ∨ StoresWord s t (resultOf i s) (s.readReg i.rb) := by
  obtain ⟨-, ⟨-, rfl⟩ | ⟨-, -, rfl⟩ | ⟨-, hok, rfl⟩⟩ := exec_cases h
  · exact .inl (haltMachine_mem s)
  · exact .inl (raiseMemRangeFault_mem s _)
  · exact completed_mem_cases hok

/-- Settles O38: an instruction too leaves memory as it is or stores one word in range. -/
theorem memoryInvKeptByExec : Obligations.MemoryInvKeptByExec := by
  intro i s t hinv h
  obtain hmem | hstore := exec_mem_cases h
  · exact memoryInv_of_mem_eq hmem (exec_sameParams h) hinv
  · exact hstore.memoryInv (exec_sameParams h) hinv

end Sys2Proof.Proofs
end

section
/-!
PROOFS. The codec: decoding and encoding are inverse on words and on bytes (R43, R45, R53), the undefined opcodes are the
only words without an instruction (R50, R55), and the destination of every word (R48).
-/

namespace Sys2Proof.Proofs

open Sys2Proof Sys2Proof.Machine Sys2Proof.Safety Sys2Proof.Laws

/-! ### Decoding gives an instruction back from its word -/

theorem decode_encode (i : Instr) : decode (encode i) = .ok i := instrOf_eq_some.mp (instrOf_encode i)

/-- To decode a word, name the instruction whose word it is. -/
theorem decode_of_encode {w : Word} {i : Instr} (h : encode i = w) : decode w = .ok i := h ▸ decode_encode i

/-- A word laid out as bytes decodes as the word does, and nothing after its four bytes is read (R52). -/
theorem decodeBytes_bytesOfWord {w : Word} {i : Instr} (h : decode w = .ok i) (rest : List Byte) :
    decodeBytes (bytesOfWord w ++ rest) = .ok (i, rest) := by
  simp only [bytesOfWord, List.cons_append, List.nil_append, decodeBytes, wordOfBytes_wordByte, h]

/-! ### A word that decodes is the word of its instruction -/

/-- The four fields fix the word, since no bit is outside them (R43). -/
theorem encode_eq_of_fields {w : Word} {i : Instr} (hop : i.opcode = op w) (hra : i.ra = rA w) (hrb : i.rb = rB w)
    (hoff : i.off = off16 w) : encode i = w := by
  rw [encode, hop, hra, hrb, hoff, packFields_fields]

/-- A word of one of the eight opcodes is the word of an instruction (R45). -/
theorem exists_encode_eq {w : Word} (hdef : (op w).toNat < 8) : ∃ i, encode i = w := by
  rcases op_cases w with h | h | h | h | h | h | h | h | h
  · exact ⟨.add (rA w) (rB w) (off16 w), encode_eq_of_fields h.symm rfl rfl rfl⟩
  · exact ⟨.nand (rA w) (rB w) (off16 w), encode_eq_of_fields h.symm rfl rfl rfl⟩
  · exact ⟨.lw (rA w) (rB w) (off16 w), encode_eq_of_fields h.symm rfl rfl rfl⟩
  · exact ⟨.sw (rA w) (rB w) (off16 w), encode_eq_of_fields h.symm rfl rfl rfl⟩
  · exact ⟨.beq (rA w) (rB w) (off16 w), encode_eq_of_fields h.symm rfl rfl rfl⟩
  · exact ⟨.jalr (rA w) (rB w) (off16 w), encode_eq_of_fields h.symm rfl rfl rfl⟩
  · exact ⟨.halt (rA w) (rB w) (off16 w), encode_eq_of_fields h.symm rfl rfl rfl⟩
  · exact ⟨.noop (rA w) (rB w) (off16 w), encode_eq_of_fields h.symm rfl rfl rfl⟩
  · exact absurd hdef (Nat.not_lt.mpr h)

/-- An undefined word is refused by the name of its opcode (R50). -/
theorem decode_undefined {w : Word} (h : 8 ≤ (op w).toNat) : decode w = .error (.undefinedOpcode (op w)) := by
  unfold decode
  generalize (op w).toNat = n at h
  match n, h with
  | _ + 8, _ => rfl

/-- Words of undefined opcodes do not decode, and any other is the word of the one instruction it decodes to. -/
theorem encode_of_decode {w : Word} {i : Instr} (h : decode w = .ok i) : encode i = w := by
  have hdef : (op w).toNat < 8 := by
    by_contra hundef
    rw [decode_undefined (Nat.not_lt.mp hundef)] at h
    cases h
  obtain ⟨j, rfl⟩ := exists_encode_eq hdef
  rw [decode_encode] at h
  cases h
  rfl

/-- Settles O1: the fields survive packing, the bytes put together give the word, and the fields fix the word. -/
theorem decodeEncodeAgree : Obligations.DecodeEncodeAgree :=
  ⟨decode_encode, fun i rest => decodeBytes_bytesOfWord (decode_encode i) rest, fun _ _ h => encode_of_decode h⟩

/-! ### The undefined words -/

/-- Bit 31 is the top bit of the opcode field (R43, R55). -/
theorem eight_le_op_of_msb {w : Word} (h : w.msb = true) : 8 ≤ (op w).toNat := by
  have htop : 2 ^ 31 ≤ w.toNat := BitVec.le_toNat_of_msb_true h
  rw [op_toNat]
  omega

/-- Settles O2: below opcode 8 a word is that of an instruction, and its opcode is the instruction's. -/
theorem undefinedWordsRefusedByName : Obligations.UndefinedWordsRefusedByName := by
  intro w
  refine ⟨decode_undefined, fun hdef => ?_, eight_le_op_of_msb⟩
  obtain ⟨i, rfl⟩ := exists_encode_eq hdef
  exact ⟨i, decode_encode i, (op_encode i).symm⟩

/-- Settles O4: each word is computed from its instruction by the encoder, which the decoder inverts. -/
theorem specWordsDecode : Obligations.SpecWordsDecode :=
  ⟨decode_of_encode (by decide), decode_of_encode (by decide), decode_of_encode (by decide),
    decode_of_encode (by decide), decode_of_encode (by decide), decode_of_encode (by decide),
    decode_of_encode (by decide), decode_of_encode (by decide)⟩

/-! ### The destination of a word -/

/-- Only opcodes 0, 1 and 2 produce a value (R48, R67). -/
theorem not_produces_of_three_le {w : Word} (h : 3 ≤ (op w).toNat) (r : RegNum) : ¬ Produces w r := by
  rintro (⟨hop, -⟩ | ⟨hop | hop, -⟩)
  all_goals
    rw [hop] at h
    exact absurd h (by decide)

/-- Settles O31: the destination is the register the word produces, by `produces_iff_dest`. -/
theorem destinationTable : Obligations.DestinationTable := by
  intro w
  refine ⟨fun hlw => ?_, fun halu => ?_, fun hnone => ?_⟩
  · exact (produces_iff_dest w (rB w)).mp (.inl ⟨hlw, rfl⟩)
  · exact (produces_iff_dest w (dst3 w)).mp (.inr ⟨halu, rfl⟩)
  · exact Option.eq_none_iff_forall_ne_some.mpr fun r hdest =>
      not_produces_of_three_le hnone r ((produces_iff_dest w r).mpr hdest)

end Sys2Proof.Proofs
end

section
/-!
PROOFS. The load-use stall: the source fields of every opcode (R46, R65), the stall's one cycle (R63, R64, R109), and the
invariant it keeps, that no word in IDEX uses what an `LW` in EXMEM will load (R78).
-/

namespace Sys2Proof.Proofs

open Sys2Proof Sys2Proof.Machine Sys2Proof.Safety Sys2Proof.Laws

/-! ### The source fields -/

theorem srcFields_allFields (w : Word) : srcFields .allFields w = [rA w, rB w] := rfl

theorem srcFields_of_two_operands {w : Word} (h : op w = 0#10 ∨ op w = 1#10 ∨ op w = 3#10 ∨ op w = 4#10) :
    srcFields .sources w = [rA w, rB w] := by
  obtain h | h | h | h := h
  · rw [srcFields, instrOf_add h]; rfl
  · rw [srcFields, instrOf_nand h]; rfl
  · rw [srcFields, instrOf_sw h]; rfl
  · rw [srcFields, instrOf_beq h]; rfl

theorem srcFields_of_lw {w : Word} (h : op w = 2#10) : srcFields .sources w = [rA w] := by
  rw [srcFields, instrOf_lw h]; rfl

theorem srcFields_of_five_le {w : Word} (h : 5 ≤ (op w).toNat) : srcFields .sources w = [] := by
  obtain h | h | h | h := op_cases_of_five_le h
  · rw [srcFields, instrOf_jalr h]; rfl
  · rw [srcFields, instrOf_halt h]; rfl
  · rw [srcFields, instrOf_noop h]; rfl
  · rw [srcFields, instrOf_undefined h]; rfl

/-- Settles O30, row by row. -/
theorem srcFieldsTable : Obligations.SrcFieldsTable := fun w =>
  ⟨srcFields_of_two_operands, srcFields_of_lw, srcFields_of_five_le, srcFields_allFields w⟩

/-- The opcodes below 5, in the groups of the table of R65. -/
theorem op_cases_of_lt_five {w : Word} (h : (op w).toNat < 5) :
    op w = 2#10 ∨ op w = 0#10 ∨ op w = 1#10 ∨ op w = 3#10 ∨ op w = 4#10 := by
  generalize op w = o at h
  bv_omega

/-- Both settings compare every register that the word uses: ALL_FIELDS only adds to SOURCES. -/
theorem srcFields_sources_subset (f : StallFields) (w : Word) : srcFields .sources w ⊆ srcFields f w := by
  cases f with
  | sources => exact List.Subset.refl _
  | allFields =>
    rw [srcFields_allFields]
    by_cases h : 5 ≤ (op w).toNat
    · rw [srcFields_of_five_le h]; exact List.nil_subset _
    · obtain h | h := op_cases_of_lt_five (Nat.not_le.mp h)
      · rw [srcFields_of_lw h]; simp
      · rw [srcFields_of_two_operands h]; exact List.Subset.refl _

/-! ### What a committed cycle moves into IDEX and EXMEM -/

theorem committed_exmem_of_squash {s : State} (h : s.squashes = true) : (committed s).exmem = bubbleEXMEM := if_pos h

theorem committed_exmem_of_not_squash {s : State} (h : s.squashes = false) :
    (committed s).exmem =
      { instr := s.idex.instr, branchTarget := branchTargetOf s.idex.pcPlus1 s.idex.offset,
        aluResult := alu (instrOf s.idex.instr) s.forward.1 s.forward.2 s.idex.offset, readRegB := s.forward.2 } :=
  if_neg (Bool.eq_false_iff.mp h)

theorem committed_idex_of_squash {s : State} (h : s.squashes = true) : (committed s).idex = bubbleIDEX := if_pos h

theorem committed_idex_of_stall {s : State} (h : s.stalls = true) : (committed s).idex = bubbleIDEX := by
  simp only [committed, h, if_true, ite_self]

theorem committed_idex_of_flow {s : State} (hb : s.squashes = false) (hl : s.stalls = false) :
    (committed s).idex =
      { instr := s.ifid.instr, pcPlus1 := s.ifid.pcPlus1, readRegA := s.readReg (rA s.ifid.instr),
        readRegB := s.readReg (rB s.ifid.instr), offset := sext32 (off16 s.ifid.instr) } :=
  (if_neg (Bool.eq_false_iff.mp hb)).trans (if_neg (Bool.eq_false_iff.mp hl))

theorem committed_ifid_of_squash {s : State} (h : s.squashes = true) : (committed s).ifid = bubbleIFID := if_pos h

theorem committed_ifid_of_stall {s : State} (hb : s.squashes = false) (hl : s.stalls = true) :
    (committed s).ifid = s.ifid :=
  (if_neg (Bool.eq_false_iff.mp hb)).trans (if_pos hl)

theorem squashes_eq_false {s : State} (h : ¬ TakenBranch s) : s.squashes = false :=
  Bool.eq_false_iff.mpr (mt (squashes_iff s).mp h)

theorem stalls_eq_false {s : State} (h : ¬ LoadUse s) : s.stalls = false :=
  Bool.eq_false_iff.mpr (mt (stalls_iff s).mp h)

theorem not_takenBranch {s : State} (h : s.squashes = false) : ¬ TakenBranch s :=
  mt (squashes_iff s).mpr (Bool.eq_false_iff.mp h)

theorem not_loadUse {s : State} (h : s.stalls = false) : ¬ LoadUse s :=
  mt (stalls_iff s).mpr (Bool.eq_false_iff.mp h)

/-! ### The invariant of R78 -/

/-- A bubble in IDEX uses no register. -/
theorem loadUseInv_of_idex_bubble {s : State} (h : s.idex = bubbleIDEX) : LoadUseInv s := by
  intro _
  rw [h, srcFields_of_five_le (by decide)]
  exact List.not_mem_nil

/-- Where the load-use condition fails, under either setting, the word of IFID may follow that of IDEX. -/
theorem loadUseInv_committed_of_flow {s : State} (hb : ¬ TakenBranch s) (hl : ¬ LoadUse s) :
    LoadUseInv (committed s) := by
  rw [LoadUseInv, committed_exmem_of_not_squash (squashes_eq_false hb),
    committed_idex_of_flow (squashes_eq_false hb) (stalls_eq_false hl)]
  intro hlw huses
  exact hl ⟨hlw, srcFields_sources_subset _ _ huses⟩

theorem loadUseInv_committed (s : State) : LoadUseInv (committed s) := by
  by_cases hb : TakenBranch s
  · exact loadUseInv_of_idex_bubble (committed_idex_of_squash ((squashes_iff s).mpr hb))
  · by_cases hl : LoadUse s
    · exact loadUseInv_of_idex_bubble (committed_idex_of_stall ((stalls_iff s).mpr hl))
    · exact loadUseInv_committed_of_flow hb hl

/-- Settles O39: a cycle that ends the run moves no latch, and a committed one stalls where the invariant would break. -/
theorem loadUseInvKeptByStep : Obligations.LoadUseInvKeptByStep := by
  intro s t hinv h
  obtain ⟨-, ⟨-, rfl⟩ | ⟨-, -, rfl⟩ | ⟨-, -, rfl⟩⟩ := step_cases h
  · exact hinv
  · exact hinv
  · exact loadUseInv_committed s

/-! ### The stall -/

/-- A bubble in IDEX starts no stall: it is no `LW`. -/
theorem not_loadUse_of_idex_bubble {s : State} (h : s.idex = bubbleIDEX) : ¬ LoadUse s := by
  rintro ⟨hlw, -⟩
  rw [h] at hlw
  exact absurd hlw (by decide)

/-- Settles O21: the bubble that the stall puts into IDEX ends it. -/
theorem loadUseStallOneCycle : Obligations.LoadUseStallOneCycle := by
  intro s hc hb hl
  have hsquash := squashes_eq_false hb
  have hstall := (stalls_iff s).mpr hl
  have hidex := committed_idex_of_stall hstall
  refine ⟨committed s, step_of_commits hc, committed_ifid_of_stall hsquash hstall, ?_, hidex, ?_, rfl, rfl, rfl,
    not_loadUse_of_idex_bubble hidex⟩
  · rw [committed_pc_of_not_takenBranch hb, if_pos hstall]
  · rw [committed_exmem_of_not_squash hsquash]

end Sys2Proof.Proofs
end

section
/-!
PROOFS. One cycle of the engine, stage by stage (R56 to R77): its outcome and its count, Fetch and Decode, forwarding and
Execute, the squash, Memory, WriteBack and the flag.
-/

namespace Sys2Proof.Proofs

open Sys2Proof Sys2Proof.Machine Sys2Proof.Safety Sys2Proof.Laws

/-! ### The outcome of a cycle and its count -/

theorem committed_status_of_commits {s : State} (h : CommitsCycle s) : (committed s).status = .running := h.1

/-- Settles O14: the three outcomes of a cycle end in three different statuses. -/
theorem runningStepHasOneOutcome : Obligations.RunningStepHasOneOutcome := by
  intro s hrun
  have hstep := step_of_running hrun
  refine ⟨cycle s, hstep, ?_⟩
  obtain ⟨hc, ht⟩ | ⟨hc, -, ⟨hop, ht⟩ | ⟨hop, -, -, ht⟩⟩ := step_cases_commits hstep <;> rw [ht]
  · obtain ⟨-, hop, -⟩ := id hc
    simp [hrun, hc, hop]
  · simp [hc, hop]
  · simp [hc, hop]

/-- Settles O27, over all one step can do. -/
theorem cycleCounterCountsCommits : Obligations.CycleCounterCountsCommits := by
  intro s t h
  obtain ⟨hc, rfl⟩ | ⟨hc, -, ⟨-, rfl⟩ | ⟨-, -, -, rfl⟩⟩ := step_cases_commits h
  · exact ⟨fun _ => committed_cycles s, fun hn => absurd hc hn⟩
  · exact ⟨fun hc' => absurd hc' hc, fun _ => haltMachine_cycles s⟩
  · exact ⟨fun hc' => absurd hc' hc, fun _ => raiseMemRangeFault_cycles s _⟩

/-! ### Fetch and Decode -/

theorem committed_pc_of_flow {s : State} (hb : ¬ TakenBranch s) (hl : ¬ LoadUse s) : (committed s).pc = s.pc + 1#32 :=
  (committed_pc_of_not_takenBranch hb).trans (if_neg (mt (stalls_iff s).mp hl))

theorem fetchWord_of_inRange {s : State} {a : Word} (h : s.inRange a = true) : s.fetchWord a = readWord s.mem a.toNat :=
  if_pos h

theorem fetchWord_of_not_inRange {s : State} {a : Word} (h : ¬ s.inRange a = true) : s.fetchWord a = noopWord :=
  if_neg h

/-- Settles O18: the range check of Fetch is the signed one of R32. -/
theorem fetchStageLatchesWord : Obligations.FetchStageLatchesWord := by
  intro s hc hb hl
  refine ⟨committed s, step_of_commits hc, committed_status_of_commits hc, ?_, committed_pc_of_flow hb hl, ?_, ?_⟩ <;>
    rw [committed_ifid_of_fetch hb hl]
  · exact fun hin => fetchWord_of_inRange (decide_eq_true hin)
  · exact fun hout => fetchWord_of_not_inRange (mt of_decide_eq_true hout)

/-- Settles O19: IFID takes the fetched word itself. -/
theorem stepTakesDecodedInstruction : Obligations.StepTakesDecodedInstruction := by
  intro s i hc hb hl hi
  refine ⟨committed s, step_of_commits hc, ?_, ?_, committed_pc_of_flow hb hl, committed_cycles s⟩ <;>
    rw [committed_ifid_of_fetch hb hl]
  exact hi

/-- Settles O20: Decode reads the register file of the pre-state. -/
theorem decodeStageReadsPreState : Obligations.DecodeStageReadsPreState := fun s hc hb hl =>
  ⟨committed s, step_of_commits hc, committed_idex_of_flow (squashes_eq_false hb) (stalls_eq_false hl)⟩

/-! ### Forwarding -/

theorem memwbSupply_of_dest {l : MEMWB} {d : RegNum} (h : dest l.instr = some d) :
    memwbSupply l = some (d, l.writeData) := by
  simp [memwbSupply, h]

theorem memwbSupply_of_no_dest {l : MEMWB} (h : dest l.instr = none) : memwbSupply l = none := by
  simp [memwbSupply, h]

/-- WBEND supplies as the same contents would in MEMWB (R67 rows 1 and 2). -/
theorem wbendSupply_eq_memwbSupply (l : WBEND) :
    wbendSupply l = memwbSupply { instr := l.instr, writeData := l.writeData } := rfl

theorem applySupply_memwb_of_produces {l : MEMWB} {r : RegNum} (h : Produces l.instr r) (v : Word) :
    applySupply r v (memwbSupply l) = l.writeData := by
  rw [memwbSupply_of_dest ((produces_iff_dest _ r).mp h), applySupply_match]

theorem applySupply_memwb_of_not_produces {l : MEMWB} {r : RegNum} (h : ¬ Produces l.instr r) (v : Word) :
    applySupply r v (memwbSupply l) = v := by
  rw [produces_iff_dest] at h
  cases hd : dest l.instr with
  | none => rw [memwbSupply_of_no_dest hd, applySupply_none]
  | some d =>
    rw [memwbSupply_of_dest hd]
    exact applySupply_other v _ fun e => h (by rw [hd, e])

/-- The word in EXMEM produces `r` there: an `ADD` or `NAND` does, an `LW` not yet (R67 row 3). -/
def ProducesResult (w : Word) (r : RegNum) : Prop := (op w = 0#10 ∨ op w = 1#10) ∧ dst3 w = r

theorem produces_of_result {w : Word} {r : RegNum} (h : ProducesResult w r) : Produces w r := .inr h

theorem exmemSupply_of_alu {l : EXMEM} (h : op l.instr = 0#10 ∨ op l.instr = 1#10) :
    exmemSupply l = some (dst3 l.instr, l.aluResult) := by
  unfold exmemSupply
  obtain h | h := h
  · rw [instrOf_add h, ← lowDest_off16]
  · rw [instrOf_nand h, ← lowDest_off16]

theorem exmemSupply_of_not_alu {l : EXMEM} (h : ¬ (op l.instr = 0#10 ∨ op l.instr = 1#10)) : exmemSupply l = none := by
  unfold exmemSupply
  rcases op_cases l.instr with hop | hop | hop | hop | hop | hop | hop | hop | hop
  · exact absurd (.inl hop) h
  · exact absurd (.inr hop) h
  · rw [instrOf_lw hop]
  · rw [instrOf_sw hop]
  · rw [instrOf_beq hop]
  · rw [instrOf_jalr hop]
  · rw [instrOf_halt hop]
  · rw [instrOf_noop hop]
  · rw [instrOf_undefined hop]

theorem applySupply_exmem_of_produces {l : EXMEM} {r : RegNum} (h : ProducesResult l.instr r) (v : Word) :
    applySupply r v (exmemSupply l) = l.aluResult := by
  obtain ⟨hop, rfl⟩ := h
  rw [exmemSupply_of_alu hop, applySupply_match]

theorem applySupply_exmem_of_not_produces {l : EXMEM} {r : RegNum} (h : ¬ ProducesResult l.instr r) (v : Word) :
    applySupply r v (exmemSupply l) = v := by
  by_cases hop : op l.instr = 0#10 ∨ op l.instr = 1#10
  · rw [exmemSupply_of_alu hop]
    exact applySupply_other v _ fun e => h ⟨hop, e.symm⟩
  · rw [exmemSupply_of_not_alu hop, applySupply_none]

theorem operandIs_def (s : State) (r : RegNum) (v0 v : Word) :
    OperandIs s r v0 v ↔
      (ProducesResult s.exmem.instr r ∧ v = s.exmem.aluResult) ∨
      (¬ ProducesResult s.exmem.instr r ∧
        ((Produces s.memwb.instr r ∧ v = s.memwb.writeData) ∨
         (¬ Produces s.memwb.instr r ∧
           ((Produces s.wbend.instr r ∧ v = s.wbend.writeData) ∨ (¬ Produces s.wbend.instr r ∧ v = v0))))) := by
  rw [OperandIs, ProducesResult, and_assoc]

/-- The fold over the points, oldest first, is the reading newest first: a later match replaces an earlier one (R68). -/
theorem operandIs_iff (s : State) (r : RegNum) (v0 v : Word) : OperandIs s r v0 v ↔ v = forwardSlot s r v0 := by
  rw [operandIs_def, forwardSlot_eq, wbendSupply_eq_memwbSupply]
  by_cases he : ProducesResult s.exmem.instr r
  · rw [applySupply_exmem_of_produces he]
    simp [he]
  · rw [applySupply_exmem_of_not_produces he]
    simp only [he, not_false_iff, true_and, false_and, false_or]
    by_cases hm : Produces s.memwb.instr r
    · rw [applySupply_memwb_of_produces hm]
      simp [hm]
    · rw [applySupply_memwb_of_not_produces hm]
      simp only [hm, not_false_iff, true_and, false_and, false_or]
      by_cases hw : Produces s.wbend.instr r
      · rw [applySupply_memwb_of_produces (l := ⟨s.wbend.instr, s.wbend.writeData⟩) hw]
        simp [hw]
      · rw [applySupply_memwb_of_not_produces (l := ⟨s.wbend.instr, s.wbend.writeData⟩) hw]
        simp only [hw, not_false_iff, true_and, false_and, false_or]

/-- Settles O22, one slot as the other. -/
theorem forwardingNewestProducerWins : Obligations.ForwardingNewestProducerWins := fun s =>
  ⟨(operandIs_iff s _ _ _).mpr rfl, (operandIs_iff s _ _ _).mpr rfl⟩

/-! ### Execute -/

theorem alu_of_add {w : Word} (h : op w = 0#10) (a b off : Word) : alu (instrOf w) a b off = a + b := by
  rw [instrOf_add h]; rfl

theorem alu_of_nand {w : Word} (h : op w = 1#10) (a b off : Word) : alu (instrOf w) a b off = ~~~(a &&& b) := by
  rw [instrOf_nand h]; rfl

theorem alu_of_access {w : Word} (h : op w = 2#10 ∨ op w = 3#10) (a b off : Word) :
    alu (instrOf w) a b off = off + a := by
  obtain h | h := h
  · rw [instrOf_lw h]; rfl
  · rw [instrOf_sw h]; rfl

theorem alu_of_beq {w : Word} (h : op w = 4#10) (a b off : Word) :
    alu (instrOf w) a b off = if a = b then 1#32 else 0#32 := by
  rw [instrOf_beq h]; rfl

/-- Settles O23: the operands named in the statement are the forwarded ones, and the result is a row of the table. -/
theorem executeStageResult : Obligations.ExecuteStageResult := by
  intro s a b hc hb ha hb'
  obtain rfl : a = s.forward.1 := (operandIs_iff s _ _ _).mp ha
  obtain rfl : b = s.forward.2 := (operandIs_iff s _ _ _).mp hb'
  refine ⟨committed s, step_of_commits hc, ?_⟩
  rw [committed_exmem_of_not_squash (squashes_eq_false hb)]
  exact ⟨rfl, rfl, rfl, fun h => alu_of_add h _ _ _, fun h => alu_of_nand h _ _ _, fun h => alu_of_access h _ _ _,
    fun h => alu_of_beq h _ _ _, fun h => alu_eq_zero h _ _ _⟩

/-! ### Memory -/

theorem memoryValue_of_lw {s : State} (h : op s.exmem.instr = 2#10) :
    memoryValue s = readWord s.mem s.exmem.aluResult.toNat := by
  simp [memoryValue, instrOf_lw h, State.memRead]

theorem memoryValue_of_alu {s : State} (h : op s.exmem.instr = 0#10 ∨ op s.exmem.instr = 1#10) :
    memoryValue s = s.exmem.aluResult := by
  obtain h | h := h
  · simp [memoryValue, instrOf_add h]
  · simp [memoryValue, instrOf_nand h]

theorem committed_sameBytes_of_not_sw {s : State} (h : op s.exmem.instr ≠ 3#10) : SameBytes s (committed s) :=
  sameBytes_of_mem_eq (memoryAfter_of_not_sw h)

/-- Settles O25, opcode by opcode: only an `SW` has a memory effect, and it is the store of one word. -/
theorem memoryStageResult : Obligations.MemoryStageResult := by
  intro s hc hwf
  refine ⟨committed s, step_of_commits hc, rfl, fun hlw => ?_, fun hsw => ?_, fun halu => ?_, fun hrest => ?_⟩
  · exact ⟨memoryValue_of_lw hlw, committed_sameBytes_of_not_sw (by rw [hlw]; decide)⟩
  · have hstore := committed_storesWord hc hsw
    exact ⟨memoryValue_eq_zero (by rw [hsw]; decide), hstore.memRead hwf, fun k hk => hstore.readByte_outside hwf hk⟩
  · refine ⟨memoryValue_of_alu halu, committed_sameBytes_of_not_sw ?_⟩
    obtain h | h := halu <;> rw [h] <;> decide
  · refine ⟨memoryValue_eq_zero (by omega), committed_sameBytes_of_not_sw fun hsw => ?_⟩
    rw [hsw] at hrest
    exact absurd hrest (by decide)

/-! ### The squash -/

/-- Settles O24: the squash overrides the stall, and the `BEQ` itself has neither a memory effect nor a value. -/
theorem takenBranchSquashes : Obligations.TakenBranchSquashes := by
  intro s hc hb
  have hsquash := (squashes_iff s).mpr hb
  have hbeq : op s.exmem.instr = 4#10 := hb.1
  refine ⟨committed s, step_of_commits hc, committed_pc_of_takenBranch hb, committed_ifid_of_squash hsquash,
    committed_idex_of_squash hsquash, committed_exmem_of_squash hsquash, ?_,
    committed_sameBytes_of_not_sw (by rw [hbeq]; decide), fun q hq => ?_⟩
  · rw [committed_memwb, memoryValue_eq_zero (by rw [hbeq]; decide)]
  · exact (produces_iff_dest _ q).mpr (dest_of_readReg_ne (step_of_commits hc) hq)

/-! ### WriteBack -/

/-- The register that the word in MEMWB produces takes its value (R74). -/
theorem committed_readReg_of_produces {s : State} {r : RegNum} (h : Produces s.memwb.instr r) :
    (committed s).readReg r = s.memwb.writeData := by
  have hd : dest s.memwb.instr = some r := (produces_iff_dest _ r).mp h
  calc (committed s).readReg r
      = (s.writeReg r s.memwb.writeData).readReg r := readReg_congr (regsAfter_of_dest hd) r
    _ = s.memwb.writeData := readReg_writeReg_same s r _

theorem committed_readReg_of_not_produces {s : State} {r : RegNum} (h : ¬ Produces s.memwb.instr r) :
    (committed s).readReg r = s.readReg r :=
  committed_readReg_of_not_dest (mt (produces_iff_dest _ r).mpr h)

theorem dest_eq_none_of_three_le {w : Word} (h : 3 ≤ (op w).toNat) : dest w = none :=
  Option.eq_none_iff_forall_ne_some.mpr fun r hdest => not_produces_of_three_le h r ((produces_iff_dest w r).mpr hdest)

/-- A word produces one register at most (R48). -/
theorem produces_unique {w : Word} {q r : RegNum} (hq : Produces w q) (hr : Produces w r) : q = r := by
  rw [produces_iff_dest] at hq hr
  exact Option.some.inj (hq.symm.trans hr)

/-- What WriteBack does with a word that produces `r`: it writes `r` and leaves every other register. -/
theorem committed_regs_of_produces {s : State} {r : RegNum} (h : Produces s.memwb.instr r) :
    (committed s).readReg r = s.memwb.writeData ∧ ∀ q, q ≠ r → (committed s).readReg q = s.readReg q :=
  ⟨committed_readReg_of_produces h,
    fun _ hq => committed_readReg_of_not_produces fun hp => hq (produces_unique hp h)⟩

/-- Settles O26: the word in MEMWB writes the register it produces, if any. -/
theorem writeBackStageResult : Obligations.WriteBackStageResult := fun s hc =>
  ⟨committed s, step_of_commits hc, rfl, rfl, fun hlw => committed_regs_of_produces (.inl ⟨hlw, rfl⟩),
    fun halu => committed_regs_of_produces (.inr ⟨halu, rfl⟩),
    fun hnone q => committed_readReg_of_not_produces (not_produces_of_three_le hnone q)⟩

/-- Forwarding from WBEND: the newer points do not produce the register, so the value written back last stands. -/
theorem forwardSlot_of_wbend {s : State} {r : RegNum} (hm : ¬ Produces s.memwb.instr r) (he : ¬ Produces s.exmem.instr r)
    (hw : Produces s.wbend.instr r) (v0 : Word) : forwardSlot s r v0 = s.wbend.writeData :=
  ((operandIs_iff s r v0 _).mp
    ((operandIs_def s r v0 _).mpr (.inr ⟨mt produces_of_result he, .inr ⟨hm, .inl ⟨hw, rfl⟩⟩⟩))).symm

/-- Settles O35: Decode reads the old value in the cycle of the write, and the word written is in WBEND in the next. -/
theorem writeBackReachesReaderByForwarding : Obligations.WriteBackReachesReaderByForwarding := by
  intro s t r hc hstep hb hl hp
  obtain rfl : committed s = t := Host.Outcome.next.inj ((step_of_commits hc).symm.trans hstep)
  have hidex := committed_idex_of_flow (squashes_eq_false hb) (stalls_eq_false hl)
  refine ⟨committed_readReg_of_produces hp, fun hr => ?_, fun hr => ?_⟩
  · refine ⟨by rw [hidex, hr], fun hm he => ?_⟩
    rw [State.forward, hidex, hr]
    exact forwardSlot_of_wbend hm he hp _
  · refine ⟨by rw [hidex, hr], fun hm he => ?_⟩
    rw [State.forward, hidex, hr]
    exact forwardSlot_of_wbend hm he hp _

/-! ### The flag -/

theorem unsupported_iff (w : Word) : unsupported w = true ↔ op w = 5#10 ∨ 8 ≤ (op w).toNat := by
  simp [unsupported]

theorem stickyUnsupported_of_unsupported {w : Word} (h : unsupported w = true) (flag : Bool) :
    stickyUnsupported flag w = true := by
  rw [stickyUnsupported, h, Bool.or_true]

theorem stickyUnsupported_of_supported {w : Word} (h : unsupported w = false) (flag : Bool) :
    stickyUnsupported flag w = flag := by
  rw [stickyUnsupported, h, Bool.or_false]

/-- No step clears the flag (R24, R94). -/
theorem step_keeps_flag {s t : State} (h : step s = .next t) (hflag : s.flagUnsupported = true) :
    t.flagUnsupported = true := by
  obtain ⟨-, ⟨-, rfl⟩ | ⟨-, -, rfl⟩ | ⟨-, -, rfl⟩⟩ := step_cases h
  · exact hflag
  · exact hflag
  · rw [committed_flagUnsupported, stickyUnsupported, hflag, Bool.true_or]

/-- Settles O28: the flag is the `or` over the words that have retired. -/
theorem unsupportedFlagAtRetirement : Obligations.UnsupportedFlagAtRetirement := by
  refine ⟨fun s hc => ?_, fun s t => step_keeps_flag⟩
  refine ⟨committed s, step_of_commits hc, committed_status_of_commits hc, fun hset => ?_, fun hkeep => ?_⟩
  · exact stickyUnsupported_of_unsupported ((unsupported_iff _).mpr hset) _
  · exact stickyUnsupported_of_supported (Bool.eq_false_iff.mpr (mt (unsupported_iff _).mp hkeep)) _

/-! ### The interpreter's step -/

theorem seqStep_of_decode {s : State} {i : Instr} (h : decode (s.fetchWord s.pc) = .ok i) : seqStep s = exec i s := by
  rw [seqStep, instrOf_eq_some.mpr h]

theorem seqStep_of_undefined {s : State} (h : 8 ≤ (op (s.fetchWord s.pc)).toNat) : seqStep s = execUndefined s := by
  rw [seqStep, instrOf_undefined h]

/-- Settles O12: the interpreter takes the decoded instruction's meaning, or the inert one of R88. -/
theorem interpreterStep : Obligations.InterpreterStep := fun _ =>
  ⟨fun _ => seqStep_of_decode, fun hundef hrun => (seqStep_of_undefined hundef).trans (whenRunning_of_running hrun)⟩

end Sys2Proof.Proofs
end

section
/-!
PROOFS. Two relations between latches and what they stand for: states that differ in fields no rule reads step alike (R76),
and the record of what is in flight agrees with the latches (R64, R70, R79 a).
-/

namespace Sys2Proof.Proofs

open Sys2Proof Sys2Proof.Machine Sys2Proof.Safety Sys2Proof.Laws

/-! ### The live fields of a latch (R76) -/

/-- Two EXMEM latches agree in every field that a rule reads for their word. -/
structure ExmemLiveEq (a b : EXMEM) : Prop where
  instr : b.instr = a.instr
  aluResult : (op a.instr).toNat ≤ 4 → b.aluResult = a.aluResult
  branchTarget : op a.instr = 4#10 → b.branchTarget = a.branchTarget
  readRegB : op a.instr = 3#10 → b.readRegB = a.readRegB

/-- Two MEMWB latches agree in every field that a rule reads for their word. -/
structure MemwbLiveEq (a b : MEMWB) : Prop where
  instr : b.instr = a.instr
  writeData : (op a.instr).toNat ≤ 2 → b.writeData = a.writeData

theorem ExmemLiveEq.refl (a : EXMEM) : ExmemLiveEq a a := ⟨rfl, fun _ => rfl, fun _ => rfl, fun _ => rfl⟩

/-- Only the words of opcodes 0 to 2 produce a register. -/
theorem op_le_two_of_produces {w : Word} {r : RegNum} (h : Produces w r) : (op w).toNat ≤ 2 := by
  by_contra hgt
  exact not_produces_of_three_le (by omega) r h

theorem op_le_two_of_dest {w : Word} {d : RegNum} (h : dest w = some d) : (op w).toNat ≤ 2 :=
  op_le_two_of_produces ((produces_iff_dest w d).mpr h)

namespace MemwbLiveEq

theorem memwbSupply_eq {a b : MEMWB} (h : MemwbLiveEq a b) : memwbSupply b = memwbSupply a := by
  cases hd : dest a.instr with
  | none => rw [memwbSupply_of_no_dest hd, memwbSupply_of_no_dest (h.instr ▸ hd)]
  | some d =>
    rw [memwbSupply_of_dest hd, memwbSupply_of_dest (h.instr ▸ hd), h.writeData (op_le_two_of_dest hd)]

theorem regsAfter_eq {s t : State} (h : MemwbLiveEq s.memwb t.memwb) (hx : t.x = s.x) : regsAfter t = regsAfter s := by
  cases hd : dest s.memwb.instr with
  | none => rw [regsAfter_of_no_dest hd, regsAfter_of_no_dest (h.instr ▸ hd), hx]
  | some d =>
    rw [regsAfter_of_dest hd, regsAfter_of_dest (h.instr ▸ hd), h.writeData (op_le_two_of_dest hd), writeReg_x,
      writeReg_x, hx]

end MemwbLiveEq

namespace ExmemLiveEq

theorem exmemSupply_eq {a b : EXMEM} (h : ExmemLiveEq a b) : exmemSupply b = exmemSupply a := by
  by_cases hop : op a.instr = 0#10 ∨ op a.instr = 1#10
  · have hle : (op a.instr).toNat ≤ 4 := by obtain hop | hop := hop <;> rw [hop] <;> decide
    rw [exmemSupply_of_alu hop, exmemSupply_of_alu (h.instr ▸ hop), h.instr, h.aluResult hle]
  · rw [exmemSupply_of_not_alu hop, exmemSupply_of_not_alu (h.instr ▸ hop)]

variable {s t : State} (h : ExmemLiveEq s.exmem t.exmem)

include h

theorem squashes_eq : t.squashes = s.squashes := by
  rw [Bool.eq_iff_iff, squashes_iff, squashes_iff, TakenBranch, TakenBranch, h.instr]
  refine and_congr_right fun hop => ?_
  rw [h.aluResult (by rw [hop]; decide)]

theorem memoryFaults_eq (hn : t.nMem = s.nMem) : memoryFaults t = memoryFaults s := by
  rw [Bool.eq_iff_iff, memoryFaults_iff, memoryFaults_iff, h.instr, State.inRange, State.inRange, hn]
  refine and_congr_right fun hop => ?_
  rw [h.aluResult (by obtain hop | hop := hop <;> rw [hop] <;> decide)]

/-- A word whose Memory stage faults has a live address. -/
theorem aluResult_of_memoryFaults (hf : memoryFaults s = true) : t.exmem.aluResult = s.exmem.aluResult := by
  obtain ⟨hop, -⟩ := (memoryFaults_iff s).mp hf
  exact h.aluResult (by obtain hop | hop := hop <;> rw [hop] <;> decide)

theorem memoryAfter_eq (hm : t.mem = s.mem) : memoryAfter t = memoryAfter s := by
  by_cases hop : op s.exmem.instr = 3#10
  · rw [memoryAfter_of_sw hop, memoryAfter_of_sw (h.instr ▸ hop), hm, h.aluResult (by rw [hop]; decide), h.readRegB hop]
  · rw [memoryAfter_of_not_sw hop, memoryAfter_of_not_sw (h.instr ▸ hop), hm]

theorem memoryValue_eq (hm : t.mem = s.mem) : memoryValue t = memoryValue s := by
  by_cases hop : 5 ≤ (op s.exmem.instr).toNat
  · have hop' : 5 ≤ (op t.exmem.instr).toNat := by rw [h.instr]; exact hop
    rw [memoryValue_eq_zero (show 3 ≤ _ by omega), memoryValue_eq_zero (show 3 ≤ _ by omega)]
  · unfold memoryValue State.memRead
    rw [h.instr, h.aluResult (by omega), hm]

end ExmemLiveEq

/-! ### States that agree in every live field -/

/-- What Fetch reads depends on the memory and its size alone (R33). -/
theorem fetchWord_congr {s t : State} (hn : t.nMem = s.nMem) (hm : t.mem = s.mem) (a : Word) :
    t.fetchWord a = s.fetchWord a := by
  unfold State.fetchWord State.inRange State.memRead
  rw [hn, hm]

/-- `LiveEq` latch by latch, with names for its parts. -/
structure AgreesLive (s t : State) : Prop where
  params : SameParams s t
  pc : t.pc = s.pc
  mem : t.mem = s.mem
  x : t.x = s.x
  cycles : t.cycles = s.cycles
  status : SameStatus s t
  flag : t.flagUnsupported = s.flagUnsupported
  ifidInstr : t.ifid.instr = s.ifid.instr
  ifid : op s.ifid.instr ≠ 7#10 → t.ifid = s.ifid
  idexInstr : t.idex.instr = s.idex.instr
  idex : op s.idex.instr ≠ 7#10 → t.idex = s.idex
  exmem : ExmemLiveEq s.exmem t.exmem
  memwb : MemwbLiveEq s.memwb t.memwb
  wbend : MemwbLiveEq ⟨s.wbend.instr, s.wbend.writeData⟩ ⟨t.wbend.instr, t.wbend.writeData⟩

theorem agreesLive_of_liveEq {s t : State} (h : LiveEq s t) : AgreesLive s t := by
  obtain ⟨hparams, hpc, hmem, hx, hcycles, hstatus, hflag, hfi, hdi, hei, hmi, hwi, hf, hd, halu, hbt, hrb, hmd, hwd⟩ := h
  exact ⟨hparams, hpc, hmem, hx, hcycles, hstatus, hflag, hfi, hf, hdi, hd, ⟨hei, halu, hbt, hrb⟩, ⟨hmi, hmd⟩, ⟨hwi, hwd⟩⟩

namespace AgreesLive

variable {s t : State} (h : AgreesLive s t)

include h

theorem liveEq : LiveEq s t :=
  ⟨h.params, h.pc, h.mem, h.x, h.cycles, h.status, h.flag, h.ifidInstr, h.idexInstr, h.exmem.instr, h.memwb.instr,
    h.wbend.instr, h.ifid, h.idex, h.exmem.aluResult, h.exmem.branchTarget, h.exmem.readRegB, h.memwb.writeData,
    h.wbend.writeData⟩

/-! The conditions of the cycle read live fields only. -/

theorem haltRetires_eq : t.haltRetires = s.haltRetires := by
  rw [State.haltRetires, State.haltRetires, show t.wbend.instr = s.wbend.instr from h.wbend.instr]

theorem stalls_eq : t.stalls = s.stalls := by
  rw [State.stalls, State.stalls, h.params.2, h.idexInstr, h.ifidInstr]

theorem fetchWord_eq (a : Word) : t.fetchWord a = s.fetchWord a := fetchWord_congr h.params.1 h.mem a

theorem forward_eq (hop : op s.idex.instr ≠ 7#10) : t.forward = s.forward := by
  simp only [State.forward, forwardSlot_eq, wbendSupply_eq_memwbSupply, h.wbend.memwbSupply_eq, h.memwb.memwbSupply_eq,
    h.exmem.exmemSupply_eq, h.idex hop]

/-! What the cycle leaves agrees again. -/

theorem committed_pc : (committed t).pc = (committed s).pc := by
  by_cases hb : TakenBranch s
  · have hb' : TakenBranch t := (squashes_iff t).mp (h.exmem.squashes_eq.trans ((squashes_iff s).mpr hb))
    rw [committed_pc_of_takenBranch hb, committed_pc_of_takenBranch hb', h.exmem.branchTarget hb.1]
  · have hb' : ¬ TakenBranch t := fun hb' =>
      hb ((squashes_iff s).mp (h.exmem.squashes_eq.symm.trans ((squashes_iff t).mpr hb')))
    rw [committed_pc_of_not_takenBranch hb, committed_pc_of_not_takenBranch hb', h.stalls_eq, h.pc]

/-- IFID afterwards: one and the same, unless a stall holds two that agree. -/
theorem committed_ifid_cases :
    (committed t).ifid = (committed s).ifid ∨ ((committed s).ifid = s.ifid ∧ (committed t).ifid = t.ifid) := by
  simp only [committed, h.exmem.squashes_eq, h.stalls_eq, h.fetchWord_eq, h.pc]
  cases s.squashes
  · cases s.stalls
    · exact .inl rfl
    · exact .inr ⟨rfl, rfl⟩
  · exact .inl rfl

/-- IDEX afterwards: one and the same, unless Decode takes two words that agree. -/
theorem committed_idex_cases :
    (committed t).idex = (committed s).idex ∨
    ((committed s).idex.instr = s.ifid.instr ∧ (committed t).idex.instr = s.ifid.instr ∧
      (op s.ifid.instr ≠ 7#10 → (committed t).idex = (committed s).idex)) := by
  simp only [committed, h.exmem.squashes_eq, h.stalls_eq, readReg_congr h.x, h.ifidInstr]
  cases s.squashes
  · cases s.stalls
    · exact .inr ⟨rfl, rfl, fun hop => by rw [h.ifid hop]⟩
    · exact .inl rfl
  · exact .inl rfl

theorem committed_exmem : ExmemLiveEq (committed s).exmem (committed t).exmem := by
  cases hb : s.squashes with
  | true =>
    rw [committed_exmem_of_squash hb, committed_exmem_of_squash (h.exmem.squashes_eq.trans hb)]
    exact .refl _
  | false =>
    rw [committed_exmem_of_not_squash hb, committed_exmem_of_not_squash (h.exmem.squashes_eq.trans hb)]
    by_cases hop : op s.idex.instr = 7#10
    · refine ⟨h.idexInstr, fun hle => ?_, fun hbeq => ?_, fun hsw => ?_⟩
      · exact absurd hle (by rw [hop]; decide)
      · exact absurd (hop.symm.trans hbeq) (by decide)
      · exact absurd (hop.symm.trans hsw) (by decide)
    · rw [h.forward_eq hop, h.idex hop]
      exact .refl _

theorem committed : AgreesLive (Laws.committed s) (Laws.committed t) where
  params := h.params
  pc := h.committed_pc
  mem := h.exmem.memoryAfter_eq h.mem
  x := h.memwb.regsAfter_eq h.x
  cycles := congrArg (· + 1) h.cycles
  status := h.status
  flag := by
    rw [committed_flagUnsupported, committed_flagUnsupported, h.flag,
      show t.wbend.instr = s.wbend.instr from h.wbend.instr]
  ifidInstr := by
    obtain heq | ⟨hs, ht⟩ := h.committed_ifid_cases
    · rw [heq]
    · rw [hs, ht, h.ifidInstr]
  ifid := by
    obtain heq | ⟨hs, ht⟩ := h.committed_ifid_cases
    · exact fun _ => heq
    · rw [hs, ht]; exact h.ifid
  idexInstr := by
    obtain heq | ⟨hs, ht, -⟩ := h.committed_idex_cases
    · rw [heq]
    · rw [hs, ht]
  idex := by
    obtain heq | ⟨hs, -, heq⟩ := h.committed_idex_cases
    · exact fun _ => heq
    · rw [hs]; exact heq
  exmem := h.committed_exmem
  memwb := ⟨h.exmem.instr, fun _ => h.exmem.memoryValue_eq h.mem⟩
  wbend := ⟨h.memwb.instr, h.memwb.writeData⟩

theorem haltMachine : AgreesLive s.haltMachine t.haltMachine :=
  { h with status := ⟨rfl, h.status.2⟩ }

theorem raiseMemRangeFault (r : FaultRecord) : AgreesLive (s.raiseMemRangeFault r) (t.raiseMemRangeFault r) :=
  { h with status := ⟨rfl, rfl⟩ }

/-- The record of a fault is made of live fields (R91). -/
theorem faultRecord_eq (hf : memoryFaults s = true) :
    t.faultRecord t.exmem.aluResult t.exmem.instr = s.faultRecord s.exmem.aluResult s.exmem.instr := by
  rw [State.faultRecord, State.faultRecord, h.exmem.aluResult_of_memoryFaults hf, h.exmem.instr, h.cycles]

theorem cycle : AgreesLive (Machine.cycle s) (Machine.cycle t) := by
  rw [cycle_eq, cycle_eq, h.haltRetires_eq, h.exmem.memoryFaults_eq h.params.1]
  cases s.haltRetires with
  | true => exact h.haltMachine
  | false =>
    cases hf : memoryFaults s with
    | true =>
      rw [h.faultRecord_eq hf]
      exact h.raiseMemRangeFault _
    | false => exact h.committed

end AgreesLive

/-- Settles O43: a cycle is a function of the live fields, up to fields that are dead again. -/
theorem deadLatchFieldsUnobservable : Obligations.DeadLatchFieldsUnobservable := by
  intro s s' t h hstep
  have hlive := agreesLive_of_liveEq h
  obtain ⟨hrun, -⟩ := step_cases hstep
  obtain rfl : cycle s = t := Host.Outcome.next.inj ((step_of_running hrun).symm.trans hstep)
  exact ⟨cycle s', step_of_running (hlive.status.1.trans hrun), hlive.cycle.liveEq⟩

/-! ### The record of what is in flight -/

/-- A latch that gets no instruction gets the bubble's word, and a `BEQ` that squashes moves on to MEMWB as itself. -/
theorem flightInv_committed {s : State} {f : Flight} (hrun : s.status = .running) (h : FlightInv s f) :
    FlightInv (committed s) (f.next s (committed s)) := by
  obtain ⟨hifid, hidex, hexmem, hmemwb, -, hmtaken, -⟩ := h
  rw [flight_next_of_running (committed_status s ▸ hrun)]
  refine ⟨fun hf => ?_, fun hf => ?_, fun hf => ?_, hexmem, hmemwb, fun hf => ?_, hmtaken⟩
  · cases hb : s.squashes with
    | true => rw [committed_ifid_of_squash hb]; rfl
    | false =>
      cases hl : s.stalls with
      | true =>
        rw [committed_ifid_of_stall hb hl]
        exact hifid (by simpa [hb, hl] using hf)
      | false => simp [hb, hl] at hf
  · cases hb : s.squashes with
    | true => rw [committed_idex_of_squash hb]; rfl
    | false =>
      cases hl : s.stalls with
      | true => rw [committed_idex_of_stall hl]; rfl
      | false =>
        rw [committed_idex_of_flow hb hl]
        exact hifid (by simpa [hb, hl] using hf)
  · cases hb : s.squashes with
    | true => rw [committed_exmem_of_squash hb]; rfl
    | false =>
      rw [committed_exmem_of_not_squash hb]
      exact hidex (by simpa [hb] using hf)
  · simp only [Bool.and_eq_true] at hf
    exact ⟨hf.1, ((squashes_iff s).mp hf.2).1⟩

/-- Settles O57: a cycle that ends the run moves nothing, and a committed one moves latch and record alike. -/
theorem flightInvKeptByStep : Obligations.FlightInvKeptByStep := by
  intro s t f hinv h
  obtain ⟨hrun, ⟨-, rfl⟩ | ⟨-, -, rfl⟩ | ⟨-, -, rfl⟩⟩ := step_cases h
  · rw [flight_next_of_ended (by simp)]; exact hinv
  · rw [flight_next_of_ended (by simp)]; exact hinv
  · exact flightInv_committed hrun hinv

end Sys2Proof.Proofs
end

section
/-!
PROOFS. What Execute works on (R61, R62, R66 to R69): Decode, write back and forwarding together give the word in IDEX the
registers as the instructions ahead of it leave them, so EXMEM holds what the word computes alone on those registers.
-/

namespace Sys2Proof.Proofs

open Sys2Proof Sys2Proof.Machine Sys2Proof.Safety Sys2Proof.Laws

/-! ### Operands that Decode has read and WriteBack has not overtaken -/

/-- The operands latched in IDEX are the registers, once WBEND has supplied what Decode missed (R62, R67). -/
structure OperandsDecoded (s : State) : Prop where
  offset : s.idex.offset = sext32 (off16 s.idex.instr)
  regA : applySupply (rA s.idex.instr) s.idex.readRegA (wbendSupply s.wbend) = s.readReg (rA s.idex.instr)
  regB : applySupply (rB s.idex.instr) s.idex.readRegB (wbendSupply s.wbend) = s.readReg (rB s.idex.instr)

/-- IDEX holds a bubble's word or decoded operands. -/
def IdexFresh (s : State) : Prop := s.idex.instr = noopWord ∨ OperandsDecoded s

/-- WriteBack leaves in a register what MEMWB supplies for it, or what stood there (R67, R74). -/
theorem committed_readReg (s : State) (r : RegNum) :
    (committed s).readReg r = applySupply r (s.readReg r) (memwbSupply s.memwb) := by
  by_cases h : Produces s.memwb.instr r
  · rw [committed_readReg_of_produces h, applySupply_memwb_of_produces h]
  · rw [committed_readReg_of_not_produces h, applySupply_memwb_of_not_produces h]

/-- Every committed cycle leaves IDEX fresh: what WriteBack writes while Decode reads is in WBEND afterwards. -/
theorem idexFresh_committed (s : State) : IdexFresh (committed s) := by
  cases hb : s.squashes with
  | true => exact .inl (by rw [committed_idex_of_squash hb]; rfl)
  | false =>
    cases hl : s.stalls with
    | true => exact .inl (by rw [committed_idex_of_stall hl]; rfl)
    | false =>
      refine .inr ⟨committed_idex_offset s, ?_, ?_⟩ <;> rw [committed_idex_of_flow hb hl, committed_readReg] <;> rfl

/-! ### What the word in EXMEM supplies -/

theorem result_of_produces {w : Word} {r : RegNum} (h : Produces w r) (hlw : ¬ (op w = 2#10 ∧ rB w = r)) :
    ProducesResult w r := by
  obtain h | h := h
  · exact absurd h hlw
  · exact h

/-- EXMEM supplies for a register what its word will leave in MEMWB, but for the destination of an `LW` (R67, D10). -/
theorem applySupply_exmem_eq {s : State} {r : RegNum} (h : ¬ (op s.exmem.instr = 2#10 ∧ rB s.exmem.instr = r))
    (v : Word) : applySupply r v (exmemSupply s.exmem) = applySupply r v (memwbSupply (committed s).memwb) := by
  by_cases hp : Produces s.exmem.instr r
  · have hres := result_of_produces hp h
    rw [applySupply_exmem_of_produces hres, applySupply_memwb_of_produces (l := (committed s).memwb) hp,
      committed_memwb, memoryValue_of_alu hres.1]
  · rw [applySupply_exmem_of_not_produces (mt produces_of_result hp),
      applySupply_memwb_of_not_produces (l := (committed s).memwb) hp]

/-- Forwarding gives an operand the value that the words in MEMWB and EXMEM leave in its register, where it may. -/
theorem forwardSlot_eq_readReg {s : State} {r : RegNum} {v0 : Word}
    (hfresh : applySupply r v0 (wbendSupply s.wbend) = s.readReg r)
    (hlw : ¬ (op s.exmem.instr = 2#10 ∧ rB s.exmem.instr = r)) :
    forwardSlot s r v0 = (committed (committed s)).readReg r := by
  rw [forwardSlot_eq, hfresh, applySupply_exmem_eq hlw, ← committed_readReg, ← committed_readReg]

/-! ### Execute on the registers ahead -/

section Execute

variable {s : State} (hdec : OperandsDecoded s) (hinv : LoadUseInv s)

include hdec hinv

theorem forward_fst_eq (huse : rA s.idex.instr ∈ srcFields .sources s.idex.instr) :
    s.forward.1 = (committed (committed s)).readReg (rA s.idex.instr) :=
  forwardSlot_eq_readReg hdec.regA fun ⟨hlw, hr⟩ => hinv hlw (hr ▸ huse)

theorem forward_snd_eq (huse : rB s.idex.instr ∈ srcFields .sources s.idex.instr) :
    s.forward.2 = (committed (committed s)).readReg (rB s.idex.instr) :=
  forwardSlot_eq_readReg hdec.regB fun ⟨hlw, hr⟩ => hinv hlw (hr ▸ huse)

/-- The ALU reads no operand that the load-use invariant leaves open (R65, R66, R78). -/
theorem alu_forward_eq :
    alu (instrOf s.idex.instr) s.forward.1 s.forward.2 s.idex.offset =
      alu (instrOf s.idex.instr) ((committed (committed s)).readReg (rA s.idex.instr))
        ((committed (committed s)).readReg (rB s.idex.instr)) (sext32 (off16 s.idex.instr)) := by
  rw [hdec.offset]
  by_cases hop : 5 ≤ (op s.idex.instr).toNat
  · rw [alu_eq_zero hop, alu_eq_zero hop]
  · obtain hlw | htwo := op_cases_of_lt_five (Nat.not_le.mp hop)
    · rw [alu_of_access (.inl hlw), alu_of_access (.inl hlw), forward_fst_eq hdec hinv (by simp [srcFields_of_lw hlw])]
    · have hsrc := srcFields_of_two_operands htwo
      rw [forward_fst_eq hdec hinv (by simp [hsrc]), forward_snd_eq hdec hinv (by simp [hsrc])]

end Execute

/-- EXMEM after a cycle without a squash holds what the word of IDEX computes alone, at its own address and on the
registers that the instructions ahead of it leave (R66). -/
theorem exmemLiveEq_committed {s q : State} (hb : s.squashes = false) (hfresh : IdexFresh s) (hinv : LoadUseInv s)
    (hregs : (committed (committed s)).x = q.x) (hpc : s.idex.pcPlus1 = q.pc + 1#32) :
    ExmemLiveEq (executedAlone q s.idex.instr) (committed s).exmem := by
  rw [executedAlone_eq, committed_exmem_of_not_squash hb, ← readReg_congr hregs, ← readReg_congr hregs]
  obtain hnoop | hdec := hfresh
  · have hop : op s.idex.instr = 7#10 := by rw [hnoop]; rfl
    refine ⟨rfl, fun h => ?_, fun h => ?_, fun h => ?_⟩
    · exact absurd h (by simp [hop])
    · exact absurd (hop.symm.trans h) (by decide)
    · exact absurd (hop.symm.trans h) (by decide)
  · refine ⟨rfl, fun _ => alu_forward_eq hdec hinv, fun _ => ?_, fun h => ?_⟩
    · simp only [hdec.offset, hpc]
    · exact forward_snd_eq hdec hinv (by simp [srcFields_of_two_operands (.inr (.inr (.inl h)))])

end Sys2Proof.Proofs
end

section
/-!
PROOFS. The sequential interpreter (R79) read with the pipeline's own stages: what one of its steps does to the state is what
Execute, Memory and WriteBack do with the word at `pc`, so that the two machines are compared field by field.
-/

namespace Sys2Proof.Proofs

open Sys2Proof Sys2Proof.Machine Sys2Proof.Safety Sys2Proof.Laws

/-! ### The interpreter's instruction in EXMEM -/

/-- The word that the interpreter runs next (R79). -/
def seqWord (s : State) : Word := s.fetchWord s.pc

/-- The state with a word alone in EXMEM, executed on the state's registers at its `pc`. -/
def withInExmem (s : State) (w : Word) : State := { s with exmem := executedAlone s w }

/-- What the interpreter's step leaves when it neither halts nor faults (R80 to R88): the squash decides the `pc`, Memory the
memory, WriteBack the registers, retirement the flag. `seqStep_eq` ties it to `seqStep`. -/
def seqCompleted (s : State) : State :=
  { s with
    pc := if (withInExmem s (seqWord s)).squashes then (withInExmem s (seqWord s)).exmem.branchTarget else s.pc + 1#32
    x := regsAfter { s with memwb := (committed (withInExmem s (seqWord s))).memwb }
    mem := memoryAfter (withInExmem s (seqWord s))
    flagUnsupported := stickyUnsupported s.flagUnsupported (seqWord s) }

theorem withInExmem_exmem (s : State) (w : Word) : (withInExmem s w).exmem = executedAlone s w := rfl

theorem withInExmem_exmem_instr (s : State) (w : Word) : (withInExmem s w).exmem.instr = w := rfl

theorem withInExmem_aluResult (s : State) (w : Word) :
    (withInExmem s w).exmem.aluResult = alu (instrOf w) (s.readReg (rA w)) (s.readReg (rB w)) (sext32 (off16 w)) := by
  rw [withInExmem_exmem, executedAlone_eq]

theorem withInExmem_readRegB (s : State) (w : Word) : (withInExmem s w).exmem.readRegB = s.readReg (rB w) := by
  rw [withInExmem_exmem, executedAlone_eq]

/-! ### One step of the interpreter -/

theorem withInExmem_encode_exmem (s : State) (i : Instr) :
    (withInExmem s (encode i)).exmem =
      { instr := encode i, branchTarget := branchTargetOf (s.pc + 1#32) (sext32 i.off), aluResult := resultOf i s,
        readRegB := s.readReg i.rb } := executedAlone_encode s i

theorem memoryFaults_withInExmem (s : State) (i : Instr) :
    memoryFaults (withInExmem s (encode i)) = accessFaults i s :=
  memoryFaults_of_exmem (p := withInExmem s (encode i)) rfl (by rw [withInExmem_encode_exmem]; rfl)

/-- Of a defined word the pipeline's reading of the interpreter's effect is the instruction's own. -/
theorem seqCompleted_eq_completed {s : State} {i : Instr} (h : seqWord s = encode i) : seqCompleted s = completed i s := by
  have hsquash : (withInExmem s (encode i)).squashes = (isBeq (some i) && flagTaken (resultOf i s)) := by
    rw [State.squashes, withInExmem_encode_exmem, instrOf_encode]
  have hvalue : memoryValue (withInExmem s (encode i)) = valueOf i s :=
    (memoryValue_of_exmem (p := withInExmem s (encode i)) rfl (by rw [withInExmem_encode_exmem]; rfl)).trans
      (by cases i <;> rfl)
  have hmem : memoryAfter (withInExmem s (encode i)) = memoryOf i s := by
    rw [memoryAfter, withInExmem_encode_exmem, instrOf_encode]
    cases i <;> rfl
  have hregs : regsAfter { s with memwb := (committed (withInExmem s (encode i))).memwb } = (completed i s).x := by
    rw [regsAfter, committed_memwb, hvalue, withInExmem_exmem_instr, dest_encode, completed]
    cases destOf (some i) <;> rfl
  rw [seqCompleted, h, hsquash, hmem, hregs, stickyUnsupported, unsupported_encode, Bool.or_comm,
    withInExmem_encode_exmem]
  rfl

/-- An undefined word touches neither memory nor registers and jumps nowhere (R88). -/
theorem seqCompleted_of_undefined {s : State} (h : 8 ≤ (op (seqWord s)).toNat) :
    seqCompleted s = s.markUnsupported.advance := by
  have hop : op (seqWord s) ≠ 3#10 ∧ op (seqWord s) ≠ 4#10 := by
    generalize op (seqWord s) = o at h
    bv_omega
  have hsquash : (withInExmem s (seqWord s)).squashes = false := squashes_eq_false fun hb => hop.2 hb.1
  have hmem : memoryAfter (withInExmem s (seqWord s)) = s.mem := memoryAfter_of_not_sw hop.1
  have hregs : regsAfter { s with memwb := (committed (withInExmem s (seqWord s))).memwb } = s.x :=
    regsAfter_of_no_dest (dest_eq_none_of_three_le (show 3 ≤ (op (seqWord s)).toNat by omega))
  rw [seqCompleted, hsquash, hmem, hregs, stickyUnsupported_of_unsupported ((unsupported_iff _).mpr (.inr h))]
  rfl

/-- All one step of the interpreter can do, as `cycle_eq` says it of a cycle: halt, fault, or complete (R79 to R88). -/
theorem seqStep_eq {s : State} (hrun : s.status = .running) :
    seqStep s = .next
      (if isHalt (instrOf (seqWord s)) then s.haltMachine
      else if memoryFaults (withInExmem s (seqWord s)) then
        s.raiseMemRangeFault (s.faultRecord (withInExmem s (seqWord s)).exmem.aluResult (seqWord s))
      else seqCompleted s) := by
  by_cases hop : 8 ≤ (op (seqWord s)).toNat
  · have hfaults : memoryFaults (withInExmem s (seqWord s)) = false := by
      rw [memoryFaults, withInExmem_exmem_instr, instrOf_undefined hop]
      rfl
    rw [seqStep_of_undefined hop, execUndefined, whenRunning_of_running hrun, instrOf_undefined hop, hfaults,
      seqCompleted_of_undefined hop]
    rfl
  · obtain ⟨i, hi⟩ := exists_encode_eq (Nat.not_le.mp hop)
    rw [seqStep_of_decode (decode_of_encode hi), exec_eq hrun, seqCompleted_eq_completed hi.symm, ← hi, instrOf_encode,
      memoryFaults_withInExmem, withInExmem_encode_exmem]

/-- The opcode of the word halts the interpreter. -/
theorem isHalt_iff (w : Word) : isHalt (instrOf w) = true ↔ op w = 6#10 :=
  haltRetires_iff { State.reset with wbend := { instr := w, writeData := 0#32 } }

/-- What one step of the interpreter can do, under conditions on its word. -/
theorem seqStep_cases {s t : State} (h : seqStep s = .next t) :
    s.status = .running ∧
    ((op (seqWord s) = 6#10 ∧ t = s.haltMachine) ∨
     (op (seqWord s) ≠ 6#10 ∧ memoryFaults (withInExmem s (seqWord s)) = true ∧
        t = s.raiseMemRangeFault (s.faultRecord (withInExmem s (seqWord s)).exmem.aluResult (seqWord s))) ∨
     (op (seqWord s) ≠ 6#10 ∧ memoryFaults (withInExmem s (seqWord s)) = false ∧ t = seqCompleted s)) := by
  have hrun := seqStep_running h
  refine ⟨hrun, ?_⟩
  rw [seqStep_eq hrun] at h
  cases h
  by_cases hop : op (seqWord s) = 6#10
  · exact .inl ⟨hop, if_pos ((isHalt_iff _).mpr hop)⟩
  · rw [if_neg (mt (isHalt_iff _).mp hop)]
    cases hf : memoryFaults (withInExmem s (seqWord s)) with
    | true => exact .inr (.inl ⟨hop, rfl, rfl⟩)
    | false => exact .inr (.inr ⟨hop, rfl, rfl⟩)

end Sys2Proof.Proofs
end

section
/-!
PROOFS. The run of the interpreter state by state: what its steps do to branches, stores and the memory that Fetch reads, the
states it passes through, and what the pipeline's timing makes of them (R79, R89, R107, R109).
-/

namespace Sys2Proof.Proofs

open Sys2Proof Sys2Proof.Machine Sys2Proof.Safety Sys2Proof.Laws

/-! ### What a step of the interpreter does, in the words of Safety -/

/-- The interpreter takes the branches that the pipeline's squash takes (R70, R84). -/
theorem takesBranch_eq (s : State) : takesBranch s = (withInExmem s (seqWord s)).squashes := by
  rw [State.squashes, withInExmem_exmem_instr, withInExmem_aluResult, takesBranch, ← seqWord]
  by_cases hop : 8 ≤ (op (seqWord s)).toNat
  · rw [instrOf_undefined hop]; rfl
  · obtain ⟨i, hi⟩ := exists_encode_eq (Nat.not_le.mp hop)
    rw [← hi, instrOf_encode, rA_encode, rB_encode]
    cases i with
    | beq ra rb off =>
      change (s.readReg ra == s.readReg rb) = flagTaken (equalFlag (s.readReg ra) (s.readReg rb))
      by_cases h : s.readReg ra = s.readReg rb <;> simp [flagTaken, equalFlag, h]
    | _ => rfl

/-- An `SW` in range stores at its result (R83). -/
theorem storeAddress_of_sw {s : State} (hop : op (seqWord s) = 3#10)
    (hin : s.inRange (withInExmem s (seqWord s)).exmem.aluResult = true) :
    storeAddress s = some (withInExmem s (seqWord s)).exmem.aluResult := by
  rw [withInExmem_aluResult, instrOf_sw hop] at hin ⊢
  rw [storeAddress, ← seqWord, instrOf_sw hop]
  exact if_pos hin

/-- The Memory stage of the word behind a `HALT` is the pipeline's own (R72, R89). -/
theorem behindHalt_eq (w : Word) (t : State) :
    behindHalt w t =
      if memoryFaults (withInExmem t w) then .error (withInExmem t w).exmem.aluResult
      else .ok { t with mem := memoryAfter (withInExmem t w) } := by
  rw [memoryFaults, memoryAfter, withInExmem_exmem_instr, withInExmem_aluResult, withInExmem_readRegB, behindHalt]
  by_cases hop : 8 ≤ (op w).toNat
  · rw [instrOf_undefined hop]; rfl
  · obtain ⟨i, rfl⟩ := exists_encode_eq (Nat.not_le.mp hop)
    rw [instrOf_encode, rA_encode, rB_encode, off16_encode]
    cases i with
    | lw ra rb off =>
      change (if t.inRange (aluLw (t.readReg ra) (sext32 off)) = true then _ else _) =
        if (!t.inRange (aluLw (t.readReg ra) (sext32 off))) = true then _ else _
      cases t.inRange (aluLw (t.readReg ra) (sext32 off)) <;> rfl
    | sw ra rb off =>
      change (if t.inRange (aluSw (t.readReg ra) (sext32 off)) = true then _ else _) =
        if (!t.inRange (aluSw (t.readReg ra) (sext32 off))) = true then _ else _
      cases t.inRange (aluSw (t.readReg ra) (sext32 off)) <;> rfl
    | _ => rfl

/-- Only an `SW` changes the interpreter's memory (R83). -/
theorem seqStep_mem_of_not_sw {s t : State} (h : seqStep s = .next t) (hop : op (seqWord s) ≠ 3#10) : t.mem = s.mem := by
  obtain ⟨-, ⟨-, rfl⟩ | ⟨-, -, rfl⟩ | ⟨-, -, rfl⟩⟩ := seqStep_cases h
  · rfl
  · rfl
  · exact memoryAfter_of_not_sw (s := withInExmem s (seqWord s)) hop

theorem seqStep_sameParams {s t : State} (h : seqStep s = .next t) : SameParams s t := by
  obtain ⟨-, ⟨-, rfl⟩ | ⟨-, -, rfl⟩ | ⟨-, -, rfl⟩⟩ := seqStep_cases h <;> exact ⟨rfl, rfl⟩

/-- A step that stores is an `SW`, and it stores in range. -/
theorem seqStep_mem_cases {s t : State} (h : seqStep s = .next t) :
    t.mem = s.mem ∨ ∃ a v, storeAddress s = some a ∧ StoresWord s t a v := by
  by_cases hop : op (seqWord s) = 3#10
  · obtain ⟨-, ⟨-, rfl⟩ | ⟨-, -, rfl⟩ | ⟨-, hf, rfl⟩⟩ := seqStep_cases h
    · exact .inl rfl
    · exact .inl rfl
    · have hin : s.inRange (withInExmem s (seqWord s)).exmem.aluResult = true := by
        by_contra hout
        rw [Bool.not_eq_true] at hout
        exact Bool.eq_false_iff.mp hf ((memoryFaults_iff _).mpr ⟨.inr hop, hout⟩)
      exact .inr ⟨_, _, storeAddress_of_sw hop hin, hin, memoryAfter_of_sw (s := withInExmem s (seqWord s)) hop⟩
  · exact .inl (seqStep_mem_of_not_sw h hop)

theorem seqStep_wf {s t : State} (h : seqStep s = .next t) (hwf : s.mem.wf = true) : t.mem.wf = true := by
  obtain hmem | ⟨a, v, -, hstore⟩ := seqStep_mem_cases h
  · rw [hmem]; exact hwf
  · rw [hstore.mem]; exact wf_writeWord hwf

/-- A fetch does not see a store to another address (R36). -/
theorem seqStep_fetchWord {s t : State} {b : Word} (h : seqStep s = .next t) (hwf : s.mem.wf = true)
    (hb : storeAddress s ≠ some b) : t.fetchWord b = s.fetchWord b := by
  obtain ⟨hn, -⟩ := seqStep_sameParams h
  obtain hmem | ⟨a, v, hstore, hmem⟩ := seqStep_mem_cases h
  · exact fetchWord_congr hn hmem b
  · have hne : b.toNat ≠ a.toNat := fun e => hb (by rw [hstore, BitVec.eq_of_toNat_eq e])
    unfold State.fetchWord State.inRange State.memRead
    rw [hn, hmem.mem, readWord_writeWord_other hwf hne]

/-- A step that goes on without a taken branch, or halts, advances to the next address or stays (R79, R86). -/
theorem seqStep_pc {s t : State} (h : seqStep s = .next t) (hf : t.status ≠ .faulted) (hb : takesBranch s = false) :
    (t.status = .running ∧ t.pc = s.pc + 1#32) ∨ (t.status = .halted ∧ t.pc = s.pc) := by
  obtain ⟨hrun, ⟨-, rfl⟩ | ⟨-, -, rfl⟩ | ⟨-, -, rfl⟩⟩ := seqStep_cases h
  · exact .inr ⟨rfl, rfl⟩
  · exact absurd rfl hf
  · refine .inl ⟨hrun, ?_⟩
    rw [takesBranch_eq] at hb
    simp only [seqCompleted, hb]
    rfl

/-! ### The states of the run -/

theorem seqAt_succ (n : Nat) (s : State) : seqAt (n + 1) s = seqAt 1 (seqAt n s) := by
  induction n generalizing s with
  | zero => rfl
  | succ n ih =>
    cases h : seqStep s with
    | next t => simpa [seqAt, h] using ih t
    | fault f => simp [seqAt, h]
    | refused r => simp [seqAt, h]

/-- A run of `j + k` steps is a run of `k` from the state after `j`. -/
theorem seqAt_add (j k : Nat) (s : State) : seqAt (j + k) s = seqAt k (seqAt j s) := by
  induction k with
  | zero => rfl
  | succ k ih => rw [← Nat.add_assoc, seqAt_succ, ih, ← seqAt_succ]

/-- The first step first. -/
theorem seqAt_succ_first (n : Nat) (s : State) : seqAt (n + 1) s = seqAt n (seqAt 1 s) := by
  rw [Nat.add_comm, seqAt_add]

theorem seqAt_one_of_next {s t : State} (h : seqStep s = .next t) : seqAt 1 s = t := by simp [seqAt, h]

theorem seqAt_one_of_ended {s : State} (h : s.status ≠ .running) : seqAt 1 s = s := by
  cases hs : seqStep s with
  | next t => exact absurd (seqStep_running hs) h
  | fault f => simp [seqAt, hs]
  | refused r => simp [seqAt, hs]

/-- A running state of the run steps to the next one. -/
theorem seqStep_seqAt {n : Nat} {s : State} (h : (seqAt n s).status = .running) :
    seqStep (seqAt n s) = .next (seqAt (n + 1) s) := by
  rw [seqAt_succ, seqAt_one_of_next (seqStep_eq h), seqStep_eq h]

theorem running_of_running_succ {n : Nat} {s : State} (h : (seqAt (n + 1) s).status = .running) :
    (seqAt n s).status = .running := by
  by_contra hn
  rw [seqAt_succ, seqAt_one_of_ended hn] at h
  exact hn h

/-- Every state before a running one runs. -/
theorem running_of_le {m n : Nat} {s : State} (hmn : m ≤ n) (h : (seqAt n s).status = .running) :
    (seqAt m s).status = .running := by
  induction n, hmn using Nat.le_induction with
  | base => exact h
  | succ n _ ih => exact ih (running_of_running_succ h)

theorem seqRun_eq_seqAt {n : Nat} {s : State} (h : ∀ k, k < n → (seqAt k s).status = .running) :
    seqRun n s = .next (seqAt n s) := by
  induction n generalizing s with
  | zero => rfl
  | succ n ih =>
    have hstep : seqStep s = .next (seqAt 1 s) := seqStep_seqAt (n := 0) (h 0 (by omega))
    have hrest := ih (s := seqAt 1 s) fun k hk => seqAt_succ_first k s ▸ h (k + 1) (by omega)
    rw [seqAt_succ_first]
    simpa only [seqRun, hstep] using hrest

theorem seqAt_params (n : Nat) (s : State) : SameParams s (seqAt n s) := by
  induction n with
  | zero => exact ⟨rfl, rfl⟩
  | succ n ih =>
    by_cases h : (seqAt n s).status = .running
    · obtain ⟨hn, hf⟩ := seqStep_sameParams (seqStep_seqAt h)
      exact ⟨hn.trans ih.1, hf.trans ih.2⟩
    · rw [seqAt_succ, seqAt_one_of_ended h]; exact ih

theorem seqAt_wf {s : State} (hwf : s.mem.wf = true) (n : Nat) : (seqAt n s).mem.wf = true := by
  induction n with
  | zero => exact hwf
  | succ n ih =>
    by_cases h : (seqAt n s).status = .running
    · exact seqStep_wf (seqStep_seqAt h) ih
    · rw [seqAt_succ, seqAt_one_of_ended h]; exact ih

/-- A word that no step between stores to is fetched the same (R36). -/
theorem seqAt_fetchWord {s : State} {m n : Nat} {b : Word} (hwf : s.mem.wf = true) (hmn : m ≤ n)
    (h : ∀ k, m ≤ k → k < n → storeAddress (seqAt k s) ≠ some b) : (seqAt n s).fetchWord b = (seqAt m s).fetchWord b := by
  induction n, hmn using Nat.le_induction with
  | base => rfl
  | succ n hmn ih =>
    rw [← ih fun k hk hkn => h k hk (by omega)]
    by_cases hrun : (seqAt n s).status = .running
    · exact seqStep_fetchWord (seqStep_seqAt hrun) (seqAt_wf hwf n) (h n hmn (by omega))
    · rw [seqAt_succ, seqAt_one_of_ended hrun]

/-! ### The instructions as they retire -/

theorem seqRetired_succ_first {s : State} (h : s.status = .running) (n : Nat) :
    seqRetired (n + 1) s = { word := seqWord s, taken := takesBranch s } :: seqRetired n (seqAt 1 s) := by
  have hstep : seqStep s = .next (seqAt 1 s) := seqStep_seqAt (n := 0) h
  rw [seqRetired, hstep]
  rfl

theorem seqRetired_succ {n : Nat} {s : State} (h : (seqAt n s).status = .running) :
    seqRetired (n + 1) s =
      seqRetired n s ++ [{ word := seqWord (seqAt n s), taken := takesBranch (seqAt n s) }] := by
  induction n generalizing s with
  | zero => exact seqRetired_succ_first h 0
  | succ n ih =>
    have hrun : s.status = .running := running_of_le (m := 0) (Nat.zero_le _) h
    rw [seqRetired_succ_first hrun, ih (seqAt_succ_first n s ▸ h), seqRetired_succ_first hrun, seqAt_succ_first n,
      List.cons_append]

theorem seqRetired_length {n : Nat} {s : State} (h : ∀ k, k < n → (seqAt k s).status = .running) :
    (seqRetired n s).length = n := by
  induction n with
  | zero => rfl
  | succ n ih =>
    rw [seqRetired_succ (h n (by omega)), List.length_append, ih fun k hk => h k (by omega)]
    rfl

/-- The first instructions of a run are the run of the first instructions. -/
theorem eq_seqRetired_of_append {n : Nat} {s : State} {rs rest : List Retired} (h : rs ++ rest = seqRetired n s) :
    rs = seqRetired rs.length s := by
  induction rs generalizing n s with
  | nil => rfl
  | cons r rs ih =>
    cases n with
    | zero => cases h
    | succ n =>
      unfold seqRetired at h
      cases hstep : seqStep s with
      | next t =>
        rw [hstep] at h
        obtain ⟨rfl, htail⟩ := List.cons.inj h
        rw [List.length_cons, seqRetired, hstep]
        exact congrArg _ (ih htail)
      | fault f => rw [hstep] at h; cases h
      | refused r => rw [hstep] at h; cases h

/-! ### The cycles lost and the stores seen too late (R107, R109) -/

/-- No cycle is lost among instructions that take no branch and use no word just loaded. -/
theorem lostCycles_eq_zero {d j : Nat} {s : State}
    (hb : ∀ k, j ≤ k → k < j + d → takesBranch (seqAt k s) = false)
    (hp : ∀ k, j ≤ k → k + 1 < j + d → loadUsePair (seqAt k s) (seqAt (k + 1) s) = false) :
    lostCycles d (seqAt j s) = 0 := by
  induction d generalizing j with
  | zero => rfl
  | succ d ih =>
    by_cases hrun : (seqAt j s).status = .running
    · have hrest := ih (j := j + 1) (fun k hk hkd => hb k (by omega) (by omega)) fun k hk hkd => hp k (by omega) (by omega)
      have hpair : ¬ (d ≠ 0 ∧ loadUsePair (seqAt j s) (seqAt (j + 1) s) = true) := by
        rintro ⟨hd, hpair⟩
        rw [hp j le_rfl (by omega)] at hpair
        cases hpair
      simp only [lostCycles, seqStep_seqAt hrun, hb j le_rfl (by omega), if_neg hpair, hrest]
      rfl
    · rw [lostCycles]
      cases hs : seqStep (seqAt j s) with
      | next t => exact absurd (seqStep_running hs) hrun
      | fault f => rfl
      | refused r => rfl

theorem lostCycles_ne_zero_of_branch {d : Nat} {s t : State} (hstep : seqStep s = .next t) (hb : takesBranch s = true) :
    lostCycles (d + 1) s ≠ 0 := by
  simp only [lostCycles, hstep, hb, if_true]
  omega

theorem lostCycles_ne_zero_of_loadUse {d : Nat} {s t : State} (hstep : seqStep s = .next t)
    (hp : loadUsePair s t = true) : lostCycles (d + 2) s ≠ 0 := by
  have hpair : d + 1 ≠ 0 ∧ loadUsePair s t = true := ⟨by omega, hp⟩
  simp only [lostCycles, hstep, if_pos hpair]
  omega

/-- No store of an earlier instruction that may still be in the pipeline changes a later one (R79 d). -/
theorem storeAddress_ne_of_noStaleFetch {s : State} (hns : NoStaleFetch s) {i m : Nat} (him : i < m) (hmi : m ≤ i + 3)
    (hrun : (seqAt m s).status = .running) (hlost : lostCycles (m - (i + 1)) (seqAt (i + 1) s) = 0) :
    storeAddress (seqAt i s) ≠ some (seqAt m s).pc := by
  intro hstore
  have hi : (seqAt i s).status = .running := running_of_le (by omega) hrun
  have hm : seqAt m s = seqAt (m - (i + 1)) (seqAt (i + 1) s) := by
    rw [← seqAt_add]
    congr 1
    omega
  have hrest : seqRun (m - (i + 1)) (seqAt (i + 1) s) = .next (seqAt m s) := by
    rw [hm]
    refine seqRun_eq_seqAt fun k hk => ?_
    rw [← seqAt_add]
    exact running_of_le (by omega) hrun
  exact hns i (m - (i + 1)) _ _ _ _ (seqRun_eq_seqAt fun k hk => running_of_le (by omega) hi) hstore (seqStep_seqAt hi)
    hrest hrun (by omega) rfl

end Sys2Proof.Proofs
end

section
/-!
PROOFS. The Memory stage is where the pipeline and the interpreter meet: a cycle with the interpreter's word in EXMEM takes the
step that the interpreter takes, and the stages behind it complete that step (R72 to R74, R79). A word that enters a drained
pipeline gets there in three cycles (R112).
-/

namespace Sys2Proof.Proofs

open Sys2Proof Sys2Proof.Machine Sys2Proof.Safety Sys2Proof.Laws

/-! ### Agreement of the pipeline behind EXMEM with a state of the interpreter -/

/-- The memory of `p` is that of `q`; its registers and its flag are those of `q` once the words in MEMWB and WBEND are
through. -/
structure AgreesBehindExmem (q p : State) : Prop where
  params : SameParams q p
  mem : p.mem = q.mem
  regs : regsAfter p = q.x
  flag : stickyUnsupported (stickyUnsupported p.flagUnsupported p.wbend.instr) p.memwb.instr = q.flagUnsupported

/-- The latch EXMEM of `p` holds the word `w`, executed on the registers of `q` at its `pc`, in every live field. -/
def InExmem (w : Word) (q p : State) : Prop := ExmemLiveEq (executedAlone q w) p.exmem

theorem InExmem.instr_eq {w : Word} {q p : State} (h : InExmem w q p) : p.exmem.instr = w := ExmemLiveEq.instr h

/-- The latches of `p` compared with `q`'s own: what `ExmemLiveEq` says of the two is said of `p` and `withInExmem q w`. -/
theorem InExmem.live {w : Word} {q p : State} (h : InExmem w q p) : ExmemLiveEq (withInExmem q w).exmem p.exmem := h

namespace AgreesBehindExmem

variable {q p : State}

theorem fetchWord_eq (h : AgreesBehindExmem q p) (a : Word) : p.fetchWord a = q.fetchWord a :=
  fetchWord_congr h.params.1 h.mem a

/-- The same fault on both sides (R73). -/
theorem memoryFaults_eq (h : AgreesBehindExmem q p) {w : Word} (hw : InExmem w q p) :
    memoryFaults p = memoryFaults (withInExmem q w) := hw.live.memoryFaults_eq h.params.1

theorem memoryAfter_eq (h : AgreesBehindExmem q p) {w : Word} (hw : InExmem w q p) :
    memoryAfter p = memoryAfter (withInExmem q w) := hw.live.memoryAfter_eq h.mem

/-- A cycle in which the Memory stage has a word without effect keeps the agreement. -/
theorem committed_of_no_effect (h : AgreesBehindExmem q p) (hop : 6 ≤ (op p.exmem.instr).toNat)
    (hsup : unsupported p.exmem.instr = false) : AgreesBehindExmem q (committed p) where
  params := h.params
  mem := by
    rw [committed_mem, memoryAfter_of_not_sw, h.mem]
    intro hsw
    rw [hsw] at hop
    exact absurd hop (by decide)
  regs := by
    rw [← h.regs]
    exact regsAfter_of_no_dest (s := committed p)
      (dest_eq_none_of_three_le (show 3 ≤ (op p.exmem.instr).toNat by omega))
  flag := by
    rw [← h.flag]
    exact stickyUnsupported_of_supported hsup _

theorem committed_of_noop (h : AgreesBehindExmem q p) (hnoop : p.exmem.instr = noopWord) :
    AgreesBehindExmem q (committed p) :=
  h.committed_of_no_effect (by rw [hnoop]; decide) (by rw [hnoop]; decide)

theorem unsupported_of_halt {w : Word} (h : op w = 6#10) : unsupported w = false := by simp [unsupported, h]

/-- The cycle in which the interpreter's word passes the Memory stage takes the interpreter's step, as far as memory,
registers and flag go. -/
theorem committed_of_seqStep (h : AgreesBehindExmem q p) (hw : InExmem (seqWord q) q p) {q' : State}
    (hstep : seqStep q = .next q') (hf : q'.status ≠ .faulted) : AgreesBehindExmem q' (committed p) := by
  obtain ⟨-, ⟨hop, rfl⟩ | ⟨-, -, rfl⟩ | ⟨-, -, rfl⟩⟩ := seqStep_cases hstep
  · have hkeep := h.committed_of_no_effect (by rw [hw.instr_eq, hop]; decide)
      (by rw [hw.instr_eq]; exact unsupported_of_halt hop)
    exact ⟨hkeep.params, hkeep.mem, hkeep.regs, hkeep.flag⟩
  · exact absurd rfl hf
  · refine ⟨h.params, h.memoryAfter_eq hw, ?_, ?_⟩
    · exact MemwbLiveEq.regsAfter_eq (s := { q with memwb := (committed (withInExmem q (seqWord q))).memwb })
        (t := committed p) ⟨hw.instr_eq, fun _ => hw.live.memoryValue_eq h.mem⟩ h.regs
    · change stickyUnsupported (stickyUnsupported (stickyUnsupported _ _) p.memwb.instr) p.exmem.instr = _
      rw [h.flag, hw.instr_eq]
      rfl

end AgreesBehindExmem

/-- The interpreter faults exactly where the Memory stage of its word does. -/
theorem memoryFaults_iff_seqStep_faulted {q q' : State} (h : seqStep q = .next q') :
    memoryFaults (withInExmem q (seqWord q)) = true ↔ q'.status = .faulted := by
  obtain ⟨hrun, ⟨hop, rfl⟩ | ⟨-, hf, rfl⟩ | ⟨-, hf, rfl⟩⟩ := seqStep_cases h
  · rw [memoryFaults, withInExmem_exmem_instr, instrOf_halt hop]
    simp [isAccess]
  · simp [hf]
  · simp [hf, seqCompleted, hrun]

/-- The interpreter halts exactly at a `HALT`. -/
theorem seqStep_halted_iff {q q' : State} (h : seqStep q = .next q') : q'.status = .halted ↔ op (seqWord q) = 6#10 := by
  obtain ⟨hrun, ⟨hop, rfl⟩ | ⟨hop, -, rfl⟩ | ⟨hop, -, rfl⟩⟩ := seqStep_cases h
  · simp [hop]
  · simp [hop]
  · simp [hop, seqCompleted, hrun]

/-- The address and the word of the interpreter's fault (R91). -/
theorem seqStep_fault {q q' : State} (h : seqStep q = .next q') (hf : q'.status = .faulted) :
    q'.fault = some (q.faultRecord (withInExmem q (seqWord q)).exmem.aluResult (seqWord q)) := by
  obtain ⟨hrun, ⟨-, rfl⟩ | ⟨-, -, rfl⟩ | ⟨-, -, rfl⟩⟩ := seqStep_cases h
  · cases hf
  · rfl
  · exact absurd (hrun.symm.trans hf) (by decide)

/-- A taken branch goes where the squash sends the pipeline (R70, R84). -/
theorem seqStep_pc_of_takesBranch {q q' : State} (h : seqStep q = .next q') (hb : takesBranch q = true) :
    q'.status = .running ∧ q'.pc = (executedAlone q (seqWord q)).branchTarget := by
  rw [takesBranch_eq] at hb
  obtain ⟨hbeq, -⟩ := (squashes_iff _).mp hb
  rw [withInExmem_exmem_instr] at hbeq
  obtain ⟨hrun, ⟨hop, -⟩ | ⟨-, hf, -⟩ | ⟨-, -, rfl⟩⟩ := seqStep_cases h
  · exact absurd (hbeq.symm.trans hop) (by decide)
  · rw [memoryFaults, withInExmem_exmem_instr, instrOf_beq hbeq] at hf
    cases hf
  · exact ⟨hrun, if_pos hb⟩

/-! ### The outcomes of a cycle, by the word in WBEND and the Memory stage -/

theorem commits_of_not_faults {p : State} (hrun : p.status = .running) (hwb : op p.wbend.instr ≠ 6#10)
    (hf : memoryFaults p = false) : CommitsCycle p := by
  refine ⟨hrun, hwb, fun hop => ?_⟩
  by_contra hout
  rw [Bool.not_eq_true] at hout
  exact Bool.eq_false_iff.mp hf ((memoryFaults_iff p).mpr ⟨hop, hout⟩)

theorem step_of_faults {p : State} (hrun : p.status = .running) (hwb : op p.wbend.instr ≠ 6#10)
    (hf : memoryFaults p = true) :
    step p = .next (p.raiseMemRangeFault (p.faultRecord p.exmem.aluResult p.exmem.instr)) := by
  rw [step_of_running hrun, cycle_eq, if_neg (mt (haltRetires_iff p).mp hwb), if_pos hf]

theorem step_of_halt {p : State} (hrun : p.status = .running) (hwb : op p.wbend.instr = 6#10) :
    step p = .next p.haltMachine := by
  rw [step_of_running hrun, cycle_eq, if_pos ((haltRetires_iff p).mpr hwb)]

/-- A step that stays RUNNING has committed. -/
theorem eq_committed_of_running {p t : State} (h : step p = .next t) (ht : t.status = .running) : t = committed p := by
  obtain ⟨-, ⟨-, rfl⟩ | ⟨-, -, rfl⟩ | ⟨-, -, rfl⟩⟩ := step_cases h
  · cases ht
  · cases ht
  · rfl

/-! ### A word that enters a drained pipeline -/

/-- `p` is `k` committed cycles after `s`, and nothing but bubbles has been through its Memory stage. -/
structure AloneSince (s : State) (k : Nat) (p : State) : Prop where
  running : p.status = .running
  params : SameParams s p
  mem : p.mem = s.mem
  x : p.x = s.x
  flag : p.flagUnsupported = s.flagUnsupported
  cycles : p.cycles = s.cycles + k
  memwb : p.memwb.instr = noopWord
  wbend : p.wbend.instr = noopWord

namespace AloneSince

variable {s p : State} {k : Nat}

theorem regsAfter_eq (h : AloneSince s k p) : regsAfter p = s.x :=
  (regsAfter_of_no_dest (by rw [h.memwb]; decide)).trans h.x

theorem agreesBehindExmem (h : AloneSince s k p) : AgreesBehindExmem s p where
  params := h.params
  mem := h.mem
  regs := h.regsAfter_eq
  flag := by
    rw [h.memwb, h.wbend, ← h.flag]
    exact (stickyUnsupported_of_supported (by decide) _).trans (stickyUnsupported_of_supported (by decide) _)

theorem wbend_ne_halt (h : AloneSince s k p) : op p.wbend.instr ≠ 6#10 := by rw [h.wbend]; decide

/-- A bubble in EXMEM squashes nothing. -/
theorem squashes_eq_false (he : p.exmem.instr = noopWord) : p.squashes = false :=
  Proofs.squashes_eq_false fun hb => by
    have := hb.1
    rw [he] at this
    exact absurd this (by decide)

/-- A bubble in IDEX stalls nothing. -/
theorem stalls_eq_false (hd : p.idex.instr = noopWord) : p.stalls = false :=
  Proofs.stalls_eq_false fun hl => by
    have := hl.1
    rw [hd] at this
    exact absurd this (by decide)

/-- A cycle with a bubble in EXMEM commits and changes nothing behind it. -/
theorem step (h : AloneSince s k p) (he : p.exmem.instr = noopWord) :
    Machine.step p = .next (committed p) ∧ AloneSince s (k + 1) (committed p) := by
  have hf : memoryFaults p = false := by rw [memoryFaults, he]; rfl
  refine ⟨step_of_commits (commits_of_not_faults h.running h.wbend_ne_halt hf), h.running, h.params, ?_, ?_, ?_, ?_, he,
    h.memwb⟩
  · rw [committed_mem, memoryAfter_of_not_sw (by rw [he]; decide), h.mem]
  · exact h.regsAfter_eq
  · rw [committed_flagUnsupported, h.wbend, stickyUnsupported_of_supported (by decide), h.flag]
  · rw [committed_cycles, h.cycles]; rfl

end AloneSince

/-- After three cycles the word at the `pc` of a drained pipeline is in EXMEM, executed (R112). -/
theorem runSteps_three_of_drained {s : State} (hrun : s.status = .running) (hd : Drained s) :
    ∃ p, runSteps 3 s = .next p ∧ AloneSince s 3 p ∧ InExmem (seqWord s) s p := by
  obtain ⟨hifid, hidex, hexmem, hmemwb, hwbend⟩ := hd
  have h0 : AloneSince s 0 s :=
    ⟨hrun, ⟨rfl, rfl⟩, rfl, rfl, rfl, rfl, by rw [hmemwb]; rfl, by rw [hwbend]; rfl⟩
  have he0 : s.exmem.instr = noopWord := by rw [hexmem]; rfl
  have hd0 : s.idex.instr = noopWord := by rw [hidex]; rfl
  have hb0 := AloneSince.squashes_eq_false he0
  have hl0 := AloneSince.stalls_eq_false hd0
  obtain ⟨hstep0, h1⟩ := h0.step he0
  have he1 : (committed s).exmem.instr = noopWord := by rw [committed_exmem_of_not_squash hb0]; exact hd0
  have hd1 : (committed s).idex.instr = noopWord := by rw [committed_idex_of_flow hb0 hl0, hifid]; rfl
  have hf1 : (committed s).ifid = { instr := seqWord s, pcPlus1 := s.pc + 1#32 } :=
    committed_ifid_of_fetch (not_takenBranch hb0) (not_loadUse hl0)
  obtain ⟨hstep1, h2⟩ := h1.step he1
  have hb1 := AloneSince.squashes_eq_false he1
  have hidex2 := committed_idex_of_flow hb1 (AloneSince.stalls_eq_false hd1)
  have he2 : (committed (committed s)).exmem.instr = noopWord := by rw [committed_exmem_of_not_squash hb1]; exact hd1
  obtain ⟨hstep2, h3⟩ := h2.step he2
  refine ⟨_, ?_, h3, ?_⟩
  · rw [runSteps_succ_of_next hstep0, runSteps_succ_of_next hstep1, runSteps_succ_of_next hstep2, runSteps_zero]
  · have hlive := exmemLiveEq_committed (q := s) (AloneSince.squashes_eq_false he2) (idexFresh_committed _)
      (loadUseInv_committed _) h3.regsAfter_eq (by rw [hidex2, hf1])
    rw [hidex2, hf1] at hlive
    exact hlive

/-- Settles O50: the fourth step is the Memory stage of the word, where the two machines meet, and the next two steps
complete what the interpreter's step did. -/
theorem stepsRunDecodedInstruction : Obligations.StepsRunDecodedInstruction := by
  intro s t i hrun hd hdec hexec
  obtain ⟨p, hp, halone, hw⟩ := runSteps_three_of_drained hrun hd
  have hseq : seqStep s = .next t := (seqStep_of_decode hdec).trans hexec
  have hword : seqWord s = encode i := (encode_of_decode hdec).symm
  have hagree := halone.agreesBehindExmem
  have hfaults : memoryFaults p = true ↔ t.status = .faulted := by
    rw [hagree.memoryFaults_eq hw]
    exact memoryFaults_iff_seqStep_faulted hseq
  have hfour {u : State} (hu : step p = .next u) : runSteps 4 s = .next u := by
    rw [show 4 = 3 + 1 from rfl, runSteps_add hp, runSteps_succ_of_next hu, runSteps_zero]
  constructor
  · intro ht
    have hf := hfaults.mpr ht
    refine ⟨_, _, _, hfour (step_of_faults halone.running halone.wbend_ne_halt hf), rfl, rfl, seqStep_fault hseq ht,
      hw.live.aluResult_of_memoryFaults (hagree.memoryFaults_eq hw ▸ hf), hw.instr_eq, halone.cycles, halone.x, halone.mem⟩
  · intro ht
    have hc := commits_of_not_faults halone.running halone.wbend_ne_halt (Bool.eq_false_iff.mpr (mt hfaults.mp ht))
    have hafter := hagree.committed_of_seqStep hw hseq ht
    refine ⟨committed p, hfour (step_of_commits hc), halone.running, hafter.mem, halone.regsAfter_eq,
      hw.instr_eq.trans hword, by rw [committed_cycles, halone.cycles], ?_, ?_⟩
    · rintro ra rb off rfl hreg
      have htaken : takesBranch s = true := by
        rw [takesBranch, instrOf_eq_some.mpr hdec]
        exact beq_iff_eq.mpr hreg
      have hsquash : p.squashes = true := (hw.live.squashes_eq.trans (takesBranch_eq s).symm).trans htaken
      have hbranch := (squashes_iff p).mp hsquash
      refine ⟨?_, committed_ifid_of_squash hsquash, committed_idex_of_squash hsquash, committed_exmem_of_squash hsquash⟩
      rw [committed_pc_of_takenBranch hbranch, (seqStep_pc_of_takesBranch hseq htaken).2]
      exact hw.branchTarget (hw.instr_eq ▸ hbranch.1)
    · intro v hv hvrun
      obtain rfl := eq_committed_of_running hv hvrun
      have hwb : (committed (committed p)).wbend.instr = encode i := hw.instr_eq.trans hword
      refine ⟨hafter.regs, hwb, fun hhalt => ?_, fun _ z hz hzrun => ?_⟩
      · refine step_of_halt hvrun ?_
        rw [hwb, ← hword]
        exact (seqStep_halted_iff hseq).mp hhalt
      · obtain rfl := eq_committed_of_running hz hzrun
        exact hafter.flag

end Sys2Proof.Proofs
end

section
/-!
PROOFS. The words in flight. The pipeline fetches along a path: the instructions that the interpreter runs, one after the
other, and behind its `HALT` one word more (R89). This part says what the latches ahead of the Memory stage hold of that path,
and why Fetch finds the right word there although it reads memory before the stores in flight land (R39, R79 d, R107).
-/

namespace Sys2Proof.Proofs

open Sys2Proof Sys2Proof.Machine Sys2Proof.Safety Sys2Proof.Laws

/-! ### The word behind the `HALT` -/

/-- How many of the stores before the instruction at place `m`, a `HALT`, come too late for the word behind it (R107). -/
def missedBehind (s : State) (m : Nat) : Nat := if lostCycles 2 (seqAt (m - 1) s) = 0 then 2 else 1

theorem missedBehind_of_no_loss {s : State} {m : Nat} (h : lostCycles 2 (seqAt (m - 1) s) = 0) : missedBehind s m = 2 :=
  if_pos h

theorem missedBehind_of_loss {s : State} {m : Nat} (h : lostCycles 2 (seqAt (m - 1) s) ≠ 0) : missedBehind s m = 1 :=
  if_neg h

theorem wordBehind_succ (s : State) (m : Nat) :
    wordBehind s (m + 1) = (seqAt (m - missedBehind s m) s).fetchWord ((seqAt m s).pc + 1#32) := rfl

/-! ### The path -/

/-- The `m`-th word of the path: the interpreter's, or the one behind the `HALT` at which it has stopped (R89). -/
def pathWord (s : State) (m : Nat) : Word :=
  if (seqAt m s).status = .running then seqWord (seqAt m s) else wordBehind s m

/-- The registers and the address with which the `m`-th word of the path runs. -/
def pathState (s : State) (m : Nat) : State :=
  if (seqAt m s).status = .running then seqAt m s else (seqAt m s).advance

theorem pathWord_of_running {s : State} {m : Nat} (h : (seqAt m s).status = .running) :
    pathWord s m = seqWord (seqAt m s) := if_pos h

theorem pathState_of_running {s : State} {m : Nat} (h : (seqAt m s).status = .running) : pathState s m = seqAt m s :=
  if_pos h

theorem pathWord_of_ended {s : State} {m : Nat} (h : (seqAt m s).status ≠ .running) : pathWord s m = wordBehind s m :=
  if_neg h

theorem pathState_of_ended {s : State} {m : Nat} (h : (seqAt m s).status ≠ .running) :
    pathState s m = (seqAt m s).advance := if_neg h

theorem pathState_x (s : State) (m : Nat) : (pathState s m).x = (seqAt m s).x := by
  unfold pathState
  split <;> rfl

/-- From `n` to `m` the path runs straight: no branch is taken and nothing faults, and a `HALT` is at most the last. -/
def Straight (s : State) (n m : Nat) : Prop :=
  ∀ k, n ≤ k → k < m →
    (seqAt k s).status = .running ∧ (seqAt (k + 1) s).status ≠ .faulted ∧ takesBranch (seqAt k s) = false

theorem Straight.not_faulted {s : State} {n m k : Nat} (h : Straight s n m) (hn : n ≤ k) (hm : k < m) :
    (seqAt (k + 1) s).status ≠ .faulted := by
  obtain ⟨-, hf, -⟩ := h k hn hm
  exact hf

theorem Straight.not_taken {s : State} {n m k : Nat} (h : Straight s n m) (hn : n ≤ k) (hm : k < m) :
    takesBranch (seqAt k s) = false := by
  obtain ⟨-, -, hb⟩ := h k hn hm
  exact hb

theorem Straight.refl (s : State) (n : Nat) : Straight s n n := fun _ h h' => absurd h' (by omega)

theorem Straight.trans {s : State} {l m n : Nat} (h : Straight s l m) (h' : Straight s m n) : Straight s l n :=
  fun k hl hn => if hm : k < m then h k hl hm else h' k (by omega) hn

theorem Straight.mono {s : State} {l l' n n' : Nat} (h : Straight s l n) (hl : l ≤ l') (hn : n' ≤ n) :
    Straight s l' n' := fun k hk hk' => h k (by omega) (by omega)

/-- Along a straight path the addresses follow each other (R13, R60). -/
theorem Straight.pc_succ {s : State} {n m : Nat} (h : Straight s n (m + 1)) (hnm : n ≤ m) :
    (pathState s (m + 1)).pc = (pathState s m).pc + 1#32 := by
  obtain ⟨hrun, hf, hb⟩ := h m hnm (by omega)
  rw [pathState_of_running hrun]
  obtain ⟨hrun', hpc⟩ | ⟨hhalt, hpc⟩ := seqStep_pc (seqStep_seqAt hrun) hf hb
  · rw [pathState_of_running hrun', hpc]
  · rw [pathState_of_ended (by rw [hhalt]; decide), advance_pc, hpc]

/-! ### The places of the latches on the path -/

/-- The place of the word in IDEX, where the word in EXMEM has place `n`: bubbles have none. -/
def idexPlace (f : Flight) (n : Nat) : Nat := n + f.exmem.toNat

/-- The place of the word in IFID. -/
def ifidPlace (f : Flight) (n : Nat) : Nat := idexPlace f n + f.idex.toNat

/-- The place of the word at `pc`. -/
def fetchPlace (f : Flight) (n : Nat) : Nat := ifidPlace f n + f.ifid.toNat

theorem le_idexPlace (f : Flight) (n : Nat) : n ≤ idexPlace f n := Nat.le_add_right _ _

theorem idexPlace_le_ifidPlace (f : Flight) (n : Nat) : idexPlace f n ≤ ifidPlace f n := Nat.le_add_right _ _

theorem ifidPlace_le_fetchPlace (f : Flight) (n : Nat) : ifidPlace f n ≤ fetchPlace f n := Nat.le_add_right _ _

theorem le_ifidPlace (f : Flight) (n : Nat) : n ≤ ifidPlace f n :=
  (le_idexPlace f n).trans (idexPlace_le_ifidPlace f n)

theorem le_fetchPlace (f : Flight) (n : Nat) : n ≤ fetchPlace f n :=
  (le_ifidPlace f n).trans (ifidPlace_le_fetchPlace f n)

theorem idexPlace_of_instr {f : Flight} (he : f.exmem = true) (n : Nat) : idexPlace f n = n + 1 := by
  rw [idexPlace, he]; rfl

theorem idexPlace_of_bubble {f : Flight} (he : f.exmem = false) (n : Nat) : idexPlace f n = n := by
  rw [idexPlace, he]; rfl

theorem fetchPlace_of_instr {f : Flight} (hf : f.ifid = true) (n : Nat) : fetchPlace f n = ifidPlace f n + 1 := by
  rw [fetchPlace, hf]; rfl

theorem fetchPlace_le (f : Flight) (n : Nat) : fetchPlace f n ≤ n + 3 := by
  have he := Bool.toNat_le f.exmem
  have hd := Bool.toNat_le f.idex
  have hf := Bool.toNat_le f.ifid
  unfold fetchPlace ifidPlace idexPlace
  omega

/-- IDEX, IFID and `pc` follow the path as far as it runs straight from the Memory stage. -/
structure FollowsPath (s : State) (f : Flight) (n : Nat) (p : State) : Prop where
  idex : f.idex = true → Straight s n (idexPlace f n) →
    p.idex.instr = pathWord s (idexPlace f n) ∧ p.idex.pcPlus1 = (pathState s (idexPlace f n)).pc + 1#32
  ifid : f.ifid = true → Straight s n (ifidPlace f n) →
    p.ifid.instr = pathWord s (ifidPlace f n) ∧ p.ifid.pcPlus1 = (pathState s (ifidPlace f n)).pc + 1#32
  pc : Straight s n (fetchPlace f n) → p.pc = (pathState s (fetchPlace f n)).pc

/-- Why a latch ahead of the Memory stage holds no instruction: a stall behind an `LW` (R64), or a squash (R70), neither of
which has a store in it. -/
structure GapsExplained (s : State) (f : Flight) (n : Nat) (p : State) : Prop where
  ifid : f.ifid = false → f.idex = false ∧ f.exmem = false
  idex : f.idex = false → f.exmem = true → usesLoaded p.stallFields p.exmem.instr p.ifid.instr = true
  exmem : f.exmem = false → ∀ m, m + 1 = n → (seqAt m s).mem = (seqAt n s).mem
  both : f.exmem = false → f.idex = false → ∀ m, m + 1 = n → takesBranch (seqAt m s) = true

/-- The pipeline with the interpreter's `n`-th word, or the one behind its `HALT`, next in the Memory stage. -/
structure Flowing (s : State) (f : Flight) (n : Nat) (p : State) : Prop where
  running : p.status = .running
  past : ∀ k, k < n → (seqAt k s).status = .running
  agrees : AgreesBehindExmem (seqAt n s) p
  fresh : IdexFresh p
  loadUse : LoadUseInv p
  flight : FlightInv p f
  wbend : op p.wbend.instr ≠ 6#10
  memwb : ((seqAt n s).status = .running ∧ op p.memwb.instr ≠ 6#10) ∨
    ((seqAt n s).status = .halted ∧ op p.memwb.instr = 6#10 ∧ f.exmem = true)
  exmem : f.exmem = true → InExmem (pathWord s n) (pathState s n) p
  path : FollowsPath s f n p
  gaps : GapsExplained s f n p

/-! ### What Fetch finds -/

section Fetch

variable {s : State} {f : Flight} {n : Nat} {p : State} (h : Flowing s f n p)

include h

theorem Flowing.idex_bubble (hd : f.idex = false) : p.idex.instr = noopWord := by
  obtain ⟨-, hbubble, -⟩ := h.flight
  exact hbubble hd

theorem Flowing.exmem_bubble (he : f.exmem = false) : p.exmem.instr = noopWord := by
  obtain ⟨-, -, hbubble, -⟩ := h.flight
  exact hbubble he

/-- A stall has its `LW` in IDEX and, in IFID, a word that is an instruction too. -/
theorem Flowing.of_stalls (hl : p.stalls = true) : f.idex = true ∧ f.ifid = true := by
  obtain ⟨hlw, -⟩ := (stalls_iff p).mp hl
  have hd : f.idex = true := by
    by_contra hd
    rw [Bool.not_eq_true] at hd
    rw [h.idex_bubble hd] at hlw
    exact absurd hlw (by decide)
  refine ⟨hd, ?_⟩
  by_contra hf
  rw [Bool.not_eq_true] at hf
  rw [(h.gaps.ifid hf).1] at hd
  cases hd

/-- What the load-use check of the path says of two places, the check of the cycle says of the words in IDEX and IFID. -/
theorem Flowing.loadUsePair_eq (hd : f.idex = true) (hf : f.ifid = true) (hst : Straight s n (ifidPlace f n + 1)) :
    loadUsePair (seqAt (idexPlace f n) s) (seqAt (ifidPlace f n) s) = p.stalls := by
  have hle := le_idexPlace f n
  have hle' := idexPlace_le_ifidPlace f n
  have hrun := (hst (idexPlace f n) hle (by omega)).1
  have hrun' := (hst (ifidPlace f n) (by omega) (by omega)).1
  rw [State.stalls, (h.path.idex hd (hst.mono le_rfl (by omega))).1, (h.path.ifid hf (hst.mono le_rfl (by omega))).1,
    pathWord_of_running hrun, pathWord_of_running hrun', loadUsePair, (seqAt_params _ s).2, h.agrees.params.2,
    (seqAt_params _ s).2]
  rfl

/-- Fetch reads the path's word while the interpreter runs: no store in flight changes it, by R79's condition d. -/
theorem Flowing.fetchWord_of_running (hns : NoStaleFetch s) (hwf : s.mem.wf = true) (hl : p.stalls = false)
    (hst : Straight s n (fetchPlace f n)) (hrun : (seqAt (fetchPlace f n) s).status = .running) :
    p.fetchWord p.pc = pathWord s (fetchPlace f n) := by
  have hle := le_idexPlace f n
  have hle' := idexPlace_le_ifidPlace f n
  have hle'' := ifidPlace_le_fetchPlace f n
  have hbound := fetchPlace_le f n
  rw [h.agrees.fetchWord_eq, h.path.pc hst, pathState_of_running hrun, pathWord_of_running hrun, seqWord]
  refine (seqAt_fetchWord hwf (by omega) fun k hk hkf => ?_).symm
  refine storeAddress_ne_of_noStaleFetch hns hkf (by omega) hrun ?_
  refine lostCycles_eq_zero (fun i hi hif => hst.not_taken (by omega) (by omega)) fun i hi hif => ?_
  have he : f.exmem.toNat = 1 ∧ f.idex.toNat = 1 ∧ f.ifid.toNat = 1 ∧ k = n ∧ i = n + 1 := by
    have he := Bool.toNat_le f.exmem
    have hd := Bool.toNat_le f.idex
    have hf := Bool.toNat_le f.ifid
    unfold fetchPlace ifidPlace idexPlace at hif
    omega
  obtain ⟨he, hd, hf, rfl, rfl⟩ := he
  have hpair := h.loadUsePair_eq (by simpa using hd) (by simpa using hf)
    (hst.mono le_rfl (by unfold fetchPlace; omega))
  rw [hl] at hpair
  simpa only [ifidPlace, idexPlace, he, hd] using hpair

/-- With an instruction in each of EXMEM, IDEX and IFID no cycle has been lost, and Fetch misses two stores. -/
theorem Flowing.missed_of_full (hl : p.stalls = false) (he : f.exmem = true) (hd : f.idex = true) (hf : f.ifid = true)
    (hst : Straight s n (ifidPlace f n + 1)) : ifidPlace f n - missedBehind s (ifidPlace f n) = n := by
  have hplace : idexPlace f n = n + 1 ∧ ifidPlace f n = n + 2 := by simp [ifidPlace, idexPlace, he, hd]
  obtain ⟨hidex, hifid⟩ := hplace
  have hpair := h.loadUsePair_eq hd hf hst
  rw [hl, hidex, hifid] at hpair
  rw [hifid] at hst ⊢
  have hlost : lostCycles 2 (seqAt (n + 1) s) = 0 := by
    refine lostCycles_eq_zero (fun i hi hif => hst.not_taken (by omega) (by omega)) fun i hi hif => ?_
    obtain rfl : i = n + 1 := by omega
    exact hpair
  rw [missedBehind_of_no_loss (m := n + 2) hlost]
  rfl

/-- With the bubble of a stall in IDEX a cycle has been lost, and Fetch misses one store. -/
theorem Flowing.missed_of_stall (he : f.exmem = true) (hd : f.idex = false) (hf : f.ifid = true)
    (hst : Straight s n (ifidPlace f n + 1)) : ifidPlace f n - missedBehind s (ifidPlace f n) = n := by
  have hifid : ifidPlace f n = n + 1 := by simp [ifidPlace, idexPlace, he, hd]
  have hword := (h.path.ifid hf (hst.mono le_rfl (by omega))).1
  rw [hifid] at hst hword ⊢
  have hrun := (hst n le_rfl (by omega)).1
  have hrun' := (hst (n + 1) (by omega) (by omega)).1
  have hpair : loadUsePair (seqAt n s) (seqAt (n + 1) s) = true := by
    have huse := h.gaps.idex hd he
    rw [(h.exmem he).instr_eq, hword, pathWord_of_running hrun, pathWord_of_running hrun', h.agrees.params.2] at huse
    exact huse
  rw [missedBehind_of_loss (m := n + 1) (lostCycles_ne_zero_of_loadUse (seqStep_seqAt hrun) hpair)]
  rfl

/-- With a bubble in EXMEM the step before the one in IDEX was no store: it matters not whether Fetch misses it. -/
theorem Flowing.missed_of_bubble (he : f.exmem = false) (hd : f.idex = true) :
    (seqAt (ifidPlace f n - missedBehind s (ifidPlace f n)) s).mem = (seqAt n s).mem := by
  have hifid : ifidPlace f n = n + 1 := by simp [ifidPlace, idexPlace, he, hd]
  rw [hifid]
  unfold missedBehind
  split
  · cases n with
    | zero => rfl
    | succ n => exact h.gaps.exmem he n rfl
  · rfl

/-- With bubbles in EXMEM and IDEX the step before was a taken branch: cycles were lost, and it was no store. -/
theorem Flowing.missed_of_squash (he : f.exmem = false) (hd : f.idex = false) :
    (seqAt (ifidPlace f n - missedBehind s (ifidPlace f n)) s).mem = (seqAt n s).mem := by
  have hifid : ifidPlace f n = n := by simp [ifidPlace, idexPlace, he, hd]
  rw [hifid]
  cases n with
  | zero => rw [Nat.zero_sub]
  | succ n =>
    have hlost : lostCycles 2 (seqAt n s) ≠ 0 :=
      lostCycles_ne_zero_of_branch (seqStep_seqAt (h.past n (by omega))) (h.gaps.both he hd n rfl)
    rw [missedBehind_of_loss (m := n + 1) hlost]
    exact h.gaps.exmem he n rfl

/-- The stores that Fetch misses behind a `HALT` in IFID are those that `wordBehind` leaves out (R89, R107). -/
theorem Flowing.mem_missed (hl : p.stalls = false) (hf : f.ifid = true) (hst : Straight s n (ifidPlace f n + 1)) :
    (seqAt (ifidPlace f n - missedBehind s (ifidPlace f n)) s).mem = (seqAt n s).mem := by
  cases he : f.exmem with
  | true =>
    cases hd : f.idex with
    | true => rw [h.missed_of_full hl he hd hf hst]
    | false => rw [h.missed_of_stall he hd hf hst]
  | false =>
    cases hd : f.idex with
    | true => exact h.missed_of_bubble he hd
    | false => exact h.missed_of_squash he hd

/-- Fetch reads the word behind the interpreter's `HALT` as `wordBehind` has it. -/
theorem Flowing.fetchWord_of_halted (hl : p.stalls = false) (hf : f.ifid = true)
    (hst : Straight s n (fetchPlace f n)) (hhalt : (seqAt (fetchPlace f n) s).status = .halted) :
    p.fetchWord p.pc = pathWord s (fetchPlace f n) := by
  have hpc := h.path.pc hst
  have hfetch := fetchPlace_of_instr hf n
  rw [hfetch] at hst hhalt hpc ⊢
  have hle := le_ifidPlace f n
  obtain ⟨hrun, -⟩ := hst _ hle (by omega)
  rw [hst.pc_succ hle, pathState_of_running hrun] at hpc
  rw [h.agrees.fetchWord_eq, hpc, pathWord_of_ended (by rw [hhalt]; decide), wordBehind_succ]
  exact fetchWord_congr ((seqAt_params n s).1.trans (seqAt_params _ s).1.symm) (h.mem_missed hl hf hst).symm _

/-- Where the path runs straight up to the word at `pc`, that word is not behind a fault, and behind a `HALT` only when the
`HALT` is in IFID. -/
theorem Flowing.fetchPlace_cases (hst : Straight s n (fetchPlace f n)) :
    (seqAt (fetchPlace f n) s).status = .running ∨
    ((seqAt (fetchPlace f n) s).status = .halted ∧ f.ifid = true) := by
  cases hf : f.ifid with
  | true =>
    have hle := le_ifidPlace f n
    have hfetch := fetchPlace_of_instr hf n
    rw [hfetch] at hst ⊢
    have hfault := hst.not_faulted hle (by omega)
    cases hstatus : (seqAt (ifidPlace f n + 1) s).status with
    | running => exact .inl rfl
    | halted => exact .inr ⟨rfl, rfl⟩
    | faulted => exact absurd hstatus hfault
  | false =>
    obtain ⟨hd, he⟩ := h.gaps.ifid hf
    have hfetch : fetchPlace f n = n := by simp [fetchPlace, ifidPlace, idexPlace, he, hd, hf]
    obtain ⟨hrun, -⟩ | ⟨-, -, he'⟩ := h.memwb
    · exact .inl (by rw [hfetch]; exact hrun)
    · rw [he] at he'
      cases he'

/-- Fetch reads the path's word wherever the path runs straight up to it. -/
theorem Flowing.fetchWord_eq (hns : NoStaleFetch s) (hwf : s.mem.wf = true) (hl : p.stalls = false)
    (hst : Straight s n (fetchPlace f n)) : p.fetchWord p.pc = pathWord s (fetchPlace f n) := by
  obtain hrun | ⟨hhalt, hf⟩ := h.fetchPlace_cases hst
  · exact h.fetchWord_of_running hns hwf hl hst hrun
  · exact h.fetchWord_of_halted hl hf hst hhalt

end Fetch

end Sys2Proof.Proofs
end

section
/-!
PROOFS. One cycle of the pipeline along the path: while the interpreter runs, a committed cycle takes its step, or none where a
bubble passes the Memory stage, and moves every word in flight one place on (R56 to R75, R79).
-/

namespace Sys2Proof.Proofs

open Sys2Proof Sys2Proof.Machine Sys2Proof.Safety Sys2Proof.Laws

/-! ### The record after a committed cycle -/

/-- The record after a committed cycle. -/
def flightAfter (f : Flight) (p : State) : Flight :=
  { ifid := !p.squashes && (!p.stalls || f.ifid), idex := !p.squashes && !p.stalls && f.ifid,
    exmem := !p.squashes && f.idex, memwb := f.exmem, wbend := f.memwb, memwbTaken := f.exmem && p.squashes,
    wbendTaken := f.memwbTaken }

theorem next_committed {p : State} (hrun : p.status = .running) (f : Flight) :
    f.next p (committed p) = flightAfter f p := flight_next_of_running hrun

theorem flightAfter_of_squash (f : Flight) {p : State} (hb : p.squashes = true) :
    (flightAfter f p).ifid = false ∧ (flightAfter f p).idex = false ∧ (flightAfter f p).exmem = false := by
  simp [flightAfter, hb]

theorem flightAfter_of_stall (f : Flight) {p : State} (hb : p.squashes = false) (hl : p.stalls = true) :
    (flightAfter f p).ifid = f.ifid ∧ (flightAfter f p).idex = false ∧ (flightAfter f p).exmem = f.idex := by
  simp [flightAfter, hb, hl]

theorem flightAfter_of_flow (f : Flight) {p : State} (hb : p.squashes = false) (hl : p.stalls = false) :
    (flightAfter f p).ifid = true ∧ (flightAfter f p).idex = f.ifid ∧ (flightAfter f p).exmem = f.idex := by
  simp [flightAfter, hb, hl]

section Cycle

variable {s : State} {f : Flight} {n : Nat} {p : State} (h : Flowing s f n p)

include h

/-! ### The word in EXMEM -/

/-- A word with an effect or a squash is an instruction, not a bubble. -/
theorem Flowing.exmem_of_op (hop : op p.exmem.instr ≠ 7#10) : f.exmem = true := by
  by_contra he
  rw [Bool.not_eq_true] at he
  exact hop (by rw [h.exmem_bubble he]; rfl)

theorem Flowing.exmem_of_squashes (hb : p.squashes = true) : f.exmem = true := by
  have hbeq := ((squashes_iff p).mp hb).1
  exact h.exmem_of_op (by rw [hbeq]; decide)

theorem Flowing.exmem_of_faults (hf : memoryFaults p = true) : f.exmem = true := by
  obtain ⟨hop, -⟩ := (memoryFaults_iff p).mp hf
  exact h.exmem_of_op (by obtain hop | hop := hop <;> rw [hop] <;> decide)

/-- A `HALT` in EXMEM has an instruction right behind it: only a load is followed by the bubble of a stall. -/
theorem Flowing.idex_of_halt (hop : op p.exmem.instr = 6#10) : f.idex = true := by
  have he := h.exmem_of_op (by rw [hop]; decide)
  by_contra hd
  rw [Bool.not_eq_true] at hd
  have hlw := ((usesLoaded_iff _ _ _).mp (h.gaps.idex hd he)).1
  exact absurd (hop.symm.trans hlw) (by decide)

/-! ### The gaps behind it -/

/-- Without a squash IDEX is empty after a cycle because of a stall, or because it was followed by nothing. -/
theorem Flowing.gaps_idex_committed (hd : (flightAfter f p).idex = false) (he : (flightAfter f p).exmem = true) :
    usesLoaded (committed p).stallFields (committed p).exmem.instr (committed p).ifid.instr = true := by
  cases hb : p.squashes with
  | true =>
    obtain ⟨-, -, hei⟩ := flightAfter_of_squash f hb
    rw [hei] at he
    cases he
  | false =>
    cases hl : p.stalls with
    | true =>
      rw [committed_exmem_of_not_squash hb, committed_ifid_of_stall hb hl]
      exact hl
    | false =>
      obtain ⟨-, hdi, hei⟩ := flightAfter_of_flow f hb hl
      rw [hei, (h.gaps.ifid (hdi ▸ hd)).1] at he
      cases he

/-- When neither EXMEM nor IDEX holds an instruction after a cycle, a branch was just taken, or neither did before. -/
theorem Flowing.gaps_both_cases (he : (flightAfter f p).exmem = false) (hd : (flightAfter f p).idex = false) :
    p.squashes = true ∨ (f.exmem = false ∧ f.idex = false) := by
  cases hb : p.squashes with
  | true => exact .inl rfl
  | false =>
    cases hl : p.stalls with
    | true =>
      obtain ⟨-, -, hei⟩ := flightAfter_of_stall f hb hl
      rw [hei, (h.of_stalls hl).1] at he
      cases he
    | false =>
      obtain ⟨-, hdi, -⟩ := flightAfter_of_flow f hb hl
      obtain ⟨hd', he'⟩ := h.gaps.ifid (hdi ▸ hd)
      exact .inr ⟨he', hd'⟩

section Running

variable (hrun : (seqAt n s).status = .running)

include hrun

theorem Flowing.inExmem (he : f.exmem = true) : InExmem (seqWord (seqAt n s)) (seqAt n s) p := by
  have hw := h.exmem he
  rwa [pathWord_of_running hrun, pathState_of_running hrun] at hw

theorem Flowing.squashes_eq (he : f.exmem = true) : p.squashes = takesBranch (seqAt n s) :=
  (h.inExmem hrun he).live.squashes_eq.trans (takesBranch_eq _).symm

theorem Flowing.faults_iff (he : f.exmem = true) : memoryFaults p = true ↔ (seqAt (n + 1) s).status = .faulted := by
  rw [h.agrees.memoryFaults_eq (h.inExmem hrun he)]
  exact memoryFaults_iff_seqStep_faulted (seqStep_seqAt hrun)

/-- When no instruction follows into EXMEM, the one that leaves it is a branch or a load, and stores nothing. -/
theorem Flowing.mem_eq_of_gap (he : f.exmem = true) (hgap : (flightAfter f p).exmem = false) :
    (seqAt n s).mem = (seqAt (n + 1) s).mem := by
  refine (seqStep_mem_of_not_sw (seqStep_seqAt hrun) fun hsw => ?_).symm
  rw [← (h.inExmem hrun he).instr_eq] at hsw
  have hb : p.squashes = false := squashes_eq_false (not_takenBranch_of_sw hsw)
  have hd : f.idex = false := by simpa [flightAfter, hb] using hgap
  have hlw := ((usesLoaded_iff _ _ _).mp (h.gaps.idex hd he)).1
  exact absurd (hsw.symm.trans hlw) (by decide)

theorem Flowing.gaps_committed : GapsExplained s (flightAfter f p) (idexPlace f n) (committed p) where
  ifid hfi := by
    cases hb : p.squashes with
    | true => exact (flightAfter_of_squash f hb).2
    | false =>
      cases hl : p.stalls with
      | true => rw [(flightAfter_of_stall f hb hl).1, (h.of_stalls hl).2] at hfi; cases hfi
      | false => rw [(flightAfter_of_flow f hb hl).1] at hfi; cases hfi
  idex := h.gaps_idex_committed
  exmem hgap m hm := by
    cases he : f.exmem with
    | true =>
      have hplace := idexPlace_of_instr he n
      rw [hplace] at hm ⊢
      obtain rfl : m = n := by omega
      exact h.mem_eq_of_gap hrun he hgap
    | false =>
      have hplace := idexPlace_of_bubble he n
      rw [hplace] at hm ⊢
      exact h.gaps.exmem he m hm
  both he hd m hm := by
    obtain hb | ⟨he', hd'⟩ := h.gaps_both_cases he hd
    · have he' := h.exmem_of_squashes hb
      have hplace := idexPlace_of_instr he' n
      obtain rfl : m = n := by omega
      exact (h.squashes_eq hrun he').symm.trans hb
    · have hplace := idexPlace_of_bubble he' n
      exact h.gaps.both he' hd' m (by omega)

theorem Flowing.past_idexPlace : ∀ k, k < idexPlace f n → (seqAt k s).status = .running := by
  intro k hk
  have he := Bool.toNat_le f.exmem
  unfold idexPlace at hk
  obtain hlt | rfl : k < n ∨ k = n := by omega
  · exact h.past k hlt
  · exact hrun

/-- A squash sends Fetch to the branch target and leaves no word in flight. -/
theorem Flowing.path_of_squash (hb : p.squashes = true) : FollowsPath s (flightAfter f p) (idexPlace f n) (committed p) := by
  obtain ⟨hfi, hdi, hei⟩ := flightAfter_of_squash f hb
  have he := h.exmem_of_squashes hb
  have hplace := idexPlace_of_instr he n
  have hfetch : fetchPlace (flightAfter f p) (n + 1) = n + 1 := by simp [fetchPlace, ifidPlace, idexPlace, hfi, hdi, hei]
  have hbranch := (squashes_iff p).mp hb
  obtain ⟨hrun', hpc⟩ := seqStep_pc_of_takesBranch (seqStep_seqAt hrun) ((h.squashes_eq hrun he).symm.trans hb)
  rw [hplace]
  refine ⟨fun hd => ?_, fun hf => ?_, fun _ => ?_⟩
  · rw [hdi] at hd; cases hd
  · rw [hfi] at hf; cases hf
  · have hw := h.inExmem hrun he
    rw [hfetch, pathState_of_running hrun', committed_pc_of_takenBranch hbranch, hpc]
    exact hw.branchTarget (hw.instr_eq ▸ hbranch.1)

section NoFault

variable (hf : memoryFaults p = false)

include hf

theorem Flowing.not_faulted (he : f.exmem = true) : (seqAt (n + 1) s).status ≠ .faulted := fun hfault =>
  Bool.eq_false_iff.mp hf ((h.faults_iff hrun he).mpr hfault)

/-- Without a squash the path runs straight through the Memory stage. -/
theorem Flowing.straight_idexPlace (hb : p.squashes = false) : Straight s n (idexPlace f n) := by
  cases he : f.exmem with
  | true =>
    intro k hk hk'
    obtain rfl : k = n := by
      rw [idexPlace_of_instr he] at hk'
      omega
    exact ⟨hrun, h.not_faulted hrun hf he, (h.squashes_eq hrun he).symm.trans hb⟩
  | false =>
    rw [idexPlace_of_bubble he]
    exact Straight.refl s n

/-- The Memory stage takes the interpreter's step, or none with a bubble. -/
theorem Flowing.agrees_committed : AgreesBehindExmem (seqAt (idexPlace f n) s) (committed p) := by
  cases he : f.exmem with
  | true =>
    rw [idexPlace_of_instr he]
    exact h.agrees.committed_of_seqStep (h.inExmem hrun he) (seqStep_seqAt hrun) (h.not_faulted hrun hf he)
  | false =>
    rw [idexPlace_of_bubble he]
    exact h.agrees.committed_of_noop (h.exmem_bubble he)

/-- After the cycle the interpreter runs on, or it has halted at the word now in MEMWB, with a word behind it. -/
theorem Flowing.memwb_committed :
    ((seqAt (idexPlace f n) s).status = .running ∧ op (committed p).memwb.instr ≠ 6#10) ∨
    ((seqAt (idexPlace f n) s).status = .halted ∧ op (committed p).memwb.instr = 6#10 ∧
      (flightAfter f p).exmem = true) := by
  rw [committed_memwb]
  cases he : f.exmem with
  | true =>
    have hplace := idexPlace_of_instr he n
    have hhalt := seqStep_halted_iff (seqStep_seqAt hrun)
    rw [← (h.inExmem hrun he).instr_eq] at hhalt
    rw [hplace]
    cases hstatus : (seqAt (n + 1) s).status with
    | running =>
      refine .inl ⟨rfl, fun hop => ?_⟩
      exact absurd (hstatus.symm.trans (hhalt.mpr hop)) (by decide)
    | halted =>
      have hop := hhalt.mp hstatus
      have hb : p.squashes = false := squashes_eq_false fun hb => absurd (hb.1.symm.trans hop) (by decide)
      exact .inr ⟨rfl, hop, by simp [flightAfter, hb, h.idex_of_halt hop]⟩
    | faulted => exact absurd hstatus (h.not_faulted hrun hf he)
  | false =>
    have hplace := idexPlace_of_bubble he n
    exact .inl ⟨by rw [hplace]; exact hrun, show op p.exmem.instr ≠ 6#10 by rw [h.exmem_bubble he]; decide⟩

/-- Execute moves the word of IDEX, with the registers that the path gives it, to EXMEM. -/
theorem Flowing.exmem_committed (he : (flightAfter f p).exmem = true) :
    InExmem (pathWord s (idexPlace f n)) (pathState s (idexPlace f n)) (committed p) := by
  have hsplit : p.squashes = false ∧ f.idex = true := by simpa [flightAfter] using he
  obtain ⟨hb, hd⟩ := hsplit
  obtain ⟨hinstr, hpc⟩ := h.path.idex hd (h.straight_idexPlace hrun hf hb)
  have hregs : (committed (committed p)).x = (pathState s (idexPlace f n)).x :=
    (h.agrees_committed hrun hf).regs.trans (pathState_x s _).symm
  have hlive := exmemLiveEq_committed hb h.fresh h.loadUse hregs hpc
  rwa [hinstr] at hlive

/-! ### The words behind it -/

/-- A stall moves the word of IDEX on and holds IFID and `pc`: they keep their places. -/
theorem Flowing.path_of_stall (hb : p.squashes = false) (hl : p.stalls = true) :
    FollowsPath s (flightAfter f p) (idexPlace f n) (committed p) := by
  obtain ⟨hfi, hdi, hei⟩ := flightAfter_of_stall f hb hl
  have hst := h.straight_idexPlace hrun hf hb
  have hifid : ifidPlace (flightAfter f p) (idexPlace f n) = ifidPlace f n := by
    simp [ifidPlace, idexPlace, hdi, hei]
  have hfetch : fetchPlace (flightAfter f p) (idexPlace f n) = fetchPlace f n := by
    rw [fetchPlace, hifid, hfi]; rfl
  refine ⟨fun hd => ?_, fun hf' hst' => ?_, fun hst' => ?_⟩
  · rw [hdi] at hd; cases hd
  · rw [hifid] at hst' ⊢
    rw [committed_ifid_of_stall hb hl]
    exact h.path.ifid (hfi ▸ hf') (hst.trans hst')
  · rw [hfetch] at hst' ⊢
    rw [committed_pc_of_not_takenBranch (not_takenBranch hb), if_pos hl]
    exact h.path.pc (hst.trans hst')

/-- In any other cycle each word moves one latch on, and Fetch takes the next word of the path. -/
theorem Flowing.path_of_flow (hns : NoStaleFetch s) (hwf : s.mem.wf = true) (hb : p.squashes = false)
    (hl : p.stalls = false) : FollowsPath s (flightAfter f p) (idexPlace f n) (committed p) := by
  obtain ⟨hfi, hdi, hei⟩ := flightAfter_of_flow f hb hl
  have hbranch : ¬ TakenBranch p := not_takenBranch hb
  have hload : ¬ LoadUse p := not_loadUse hl
  have hst := h.straight_idexPlace hrun hf hb
  have hidex : idexPlace (flightAfter f p) (idexPlace f n) = ifidPlace f n := by
    rw [idexPlace, hei]; rfl
  have hifid : ifidPlace (flightAfter f p) (idexPlace f n) = fetchPlace f n := by
    rw [ifidPlace, hidex, hdi]; rfl
  have hfetch : fetchPlace (flightAfter f p) (idexPlace f n) = fetchPlace f n + 1 := by
    rw [fetchPlace_of_instr hfi, hifid]
  have hle := le_fetchPlace f n
  refine ⟨fun hd hst' => ?_, fun _ hst' => ?_, fun hst' => ?_⟩
  · rw [hidex] at hst' ⊢
    rw [committed_idex_of_flow hb hl]
    exact h.path.ifid (hdi ▸ hd) (hst.trans hst')
  · rw [hifid] at hst' ⊢
    rw [committed_ifid_of_fetch hbranch hload]
    exact ⟨h.fetchWord_eq hns hwf hl (hst.trans hst'), by rw [h.path.pc (hst.trans hst')]⟩
  · rw [hfetch] at hst' ⊢
    have hall := hst.trans hst'
    rw [committed_pc_of_flow hbranch hload, h.path.pc (hall.mono le_rfl (by omega)), hall.pc_succ hle]

theorem Flowing.path_committed (hns : NoStaleFetch s) (hwf : s.mem.wf = true) :
    FollowsPath s (flightAfter f p) (idexPlace f n) (committed p) := by
  cases hb : p.squashes with
  | true => exact h.path_of_squash hrun hb
  | false =>
    cases hl : p.stalls with
    | true => exact h.path_of_stall hrun hf hb hl
    | false => exact h.path_of_flow hrun hf hns hwf hb hl

/-- While the interpreter runs, a cycle without a fault keeps the pipeline on the path. -/
theorem Flowing.committed (hns : NoStaleFetch s) (hwf : s.mem.wf = true) :
    Flowing s (flightAfter f p) (idexPlace f n) (Laws.committed p) where
  running := h.running
  past := h.past_idexPlace hrun
  agrees := h.agrees_committed hrun hf
  fresh := idexFresh_committed p
  loadUse := loadUseInv_committed p
  flight := next_committed h.running f ▸ flightInv_committed h.running h.flight
  wbend := by
    obtain ⟨-, hop⟩ | ⟨hhalt, -⟩ := h.memwb
    · exact hop
    · exact absurd (hrun.symm.trans hhalt) (by decide)
  memwb := h.memwb_committed hrun hf
  exmem := h.exmem_committed hrun hf
  path := h.path_committed hrun hf hns hwf
  gaps := h.gaps_committed hrun

end NoFault

end Running

end Cycle

end Sys2Proof.Proofs
end

section
/-!
PROOFS. The pipeline against the interpreter, run by run (R79): every run of a launch stays on the path until the `HALT` is in
WBEND or an access faults, and what has retired, what it ends with and what it reports are the interpreter's.
-/

namespace Sys2Proof.Proofs

open Sys2Proof Sys2Proof.Machine Sys2Proof.Safety Sys2Proof.Laws

/-! ### What has retired -/

/-- The instruction in MEMWB, which retires next. -/
def retiresNext (f : Flight) (p : State) : List Retired :=
  if f.memwb then [{ word := p.memwb.instr, taken := f.memwbTaken }] else []

/-- The instructions that leave WBEND and MEMWB in a committed cycle are one place on in the next. -/
theorem retires_committed (f : Flight) (p : State) : (flightAfter f p).retires (committed p) = retiresNext f p := rfl

theorem retiresNext_committed_of_bubble {f : Flight} (he : f.exmem = false) (p : State) :
    retiresNext (flightAfter f p) (committed p) = [] := by
  simp [retiresNext, flightAfter, he]

theorem retiresNext_committed_of_instr {f : Flight} (he : f.exmem = true) (p : State) :
    retiresNext (flightAfter f p) (committed p) = [{ word := p.exmem.instr, taken := p.squashes }] := by
  simp [retiresNext, flightAfter, he]

/-- The instructions past the Memory stage are those the interpreter has run, before a cycle and after it. -/
theorem Flowing.retired_committed {s : State} {f : Flight} {n : Nat} {p : State} (h : Flowing s f n p)
    (hrun : (seqAt n s).status = .running) {rs : List Retired}
    (hr : rs ++ (f.retires p ++ retiresNext f p) = seqRetired n s) :
    (rs ++ f.retires p) ++ ((flightAfter f p).retires (Laws.committed p) ++ retiresNext (flightAfter f p) (Laws.committed p)) =
      seqRetired (idexPlace f n) s := by
  rw [retires_committed, ← List.append_assoc, List.append_assoc rs, hr]
  cases he : f.exmem with
  | true =>
    rw [retiresNext_committed_of_instr he, (h.inExmem hrun he).instr_eq, h.squashes_eq hrun he, ← seqRetired_succ hrun,
      idexPlace_of_instr he]
  | false =>
    rw [retiresNext_committed_of_bubble he, List.append_nil, idexPlace_of_bubble he]

/-! ### The end of a run -/

/-- The interpreter has stopped at the `HALT` that is its `n`-th instruction, and the state `p` holds its registers, its flag,
and its memory after the Memory stage of the word behind the `HALT` (R79 c, R89). -/
structure HoldsHaltOf (s : State) (n : Nat) (p : State) : Prop where
  past : ∀ k, k < n → (seqAt k s).status = .running
  halted : (seqAt n s).status = .halted
  x : (seqAt n s).x = p.x
  flag : (seqAt n s).flagUnsupported = p.flagUnsupported
  mem : ∃ t, behindHalt (wordBehind s n) (seqAt n s) = .ok t ∧ t.mem = p.mem

/-- The record of `p` is that of the interpreter's fault, or of the word behind its `HALT` (R79, R91). -/
def FaultsAsInterpreter (s p : State) : Prop :=
  ∃ r n, p.fault = some r ∧ (∀ k, k < n → (seqAt k s).status = .running) ∧
    (((seqAt n s).status = .faulted ∧ ∃ q, (seqAt n s).fault = some q ∧ q.addr = r.addr ∧ q.instr = r.instr) ∨
     ((seqAt n s).status = .halted ∧ behindHalt (wordBehind s n) (seqAt n s) = .error r.addr ∧
       r.instr = wordBehind s n))

/-- The word behind the `HALT` is executed on the interpreter's final registers; its address is of no account. -/
theorem withInExmem_advance (q : State) (w : Word) :
    memoryFaults (withInExmem q.advance w) = memoryFaults (withInExmem q w) ∧
    memoryAfter (withInExmem q.advance w) = memoryAfter (withInExmem q w) ∧
    (withInExmem q.advance w).exmem.aluResult = (withInExmem q w).exmem.aluResult := by
  have hresult : (withInExmem q.advance w).exmem.aluResult = (withInExmem q w).exmem.aluResult := by
    rw [withInExmem_aluResult, withInExmem_aluResult]; rfl
  have hdata : (withInExmem q.advance w).exmem.readRegB = (withInExmem q w).exmem.readRegB := by
    rw [withInExmem_readRegB, withInExmem_readRegB]; rfl
  refine ⟨?_, ?_, hresult⟩
  · unfold memoryFaults
    rw [hresult]; rfl
  · unfold memoryAfter
    rw [hresult, hdata]; rfl

section BehindHalt

variable {s : State} {f : Flight} {n : Nat} {p : State} (h : Flowing s f n p) (hhalt : (seqAt n s).status = .halted)

include h hhalt

theorem Flowing.inExmem_behindHalt :
    op p.memwb.instr = 6#10 ∧ InExmem (wordBehind s n) (seqAt n s).advance p := by
  obtain ⟨hrun, -⟩ | ⟨-, hop, he⟩ := h.memwb
  · exact absurd (hrun.symm.trans hhalt) (by decide)
  · have hended : (seqAt n s).status ≠ .running := by rw [hhalt]; decide
    have hw := h.exmem he
    rw [pathWord_of_ended hended, pathState_of_ended hended] at hw
    exact ⟨hop, hw⟩

/-- With the `HALT` in MEMWB, the word behind it does in a cycle what `behindHalt` says of it. -/
theorem Flowing.behindHalt_eq :
    behindHalt (wordBehind s n) (seqAt n s) =
      if memoryFaults p then .error p.exmem.aluResult else .ok { seqAt n s with mem := memoryAfter p } := by
  obtain ⟨-, hw⟩ := h.inExmem_behindHalt hhalt
  have hagree : AgreesBehindExmem (seqAt n s).advance p := ⟨h.agrees.params, h.agrees.mem, h.agrees.regs, h.agrees.flag⟩
  obtain ⟨hfaults, hmem, haddr⟩ := withInExmem_advance (seqAt n s) (wordBehind s n)
  rw [Proofs.behindHalt_eq, ← hfaults, ← hmem, ← haddr, hagree.memoryFaults_eq hw, hagree.memoryAfter_eq hw]
  split
  · next hf => rw [hw.live.aluResult_of_memoryFaults hf]
  · rfl

theorem Flowing.holdsHaltOf (hf : memoryFaults p = false) : HoldsHaltOf s n (Laws.committed p) where
  past := h.past
  halted := hhalt
  x := h.agrees.regs.symm
  flag := by
    obtain ⟨hop, -⟩ := h.inExmem_behindHalt hhalt
    rw [← h.agrees.flag]
    exact stickyUnsupported_of_supported (AgreesBehindExmem.unsupported_of_halt hop) _
  mem := ⟨_, (h.behindHalt_eq hhalt).trans (if_neg (Bool.eq_false_iff.mp hf)), rfl⟩

end BehindHalt

/-- A fault on the path is the interpreter's, or that of the word behind its `HALT`. -/
theorem Flowing.faultsAsInterpreter {s : State} {f : Flight} {n : Nat} {p : State} (h : Flowing s f n p)
    (hf : memoryFaults p = true) :
    FaultsAsInterpreter s (p.raiseMemRangeFault (p.faultRecord p.exmem.aluResult p.exmem.instr)) := by
  obtain ⟨hrun, -⟩ | ⟨hhalt, -⟩ := h.memwb
  · have he := h.exmem_of_faults hf
    have hw := h.inExmem hrun he
    have hfault := (h.faults_iff hrun he).mp hf
    refine ⟨_, n + 1, rfl, fun k hk => running_of_le (Nat.le_of_lt_succ hk) hrun,
      .inl ⟨hfault, _, seqStep_fault (seqStep_seqAt hrun) hfault, ?_, hw.instr_eq.symm⟩⟩
    exact (hw.live.aluResult_of_memoryFaults (h.agrees.memoryFaults_eq hw ▸ hf)).symm
  · obtain ⟨-, hw⟩ := h.inExmem_behindHalt hhalt
    exact ⟨_, n, rfl, h.past, .inr ⟨hhalt, (h.behindHalt_eq hhalt).trans (if_pos hf), hw.instr_eq⟩⟩

/-! ### Every state of a run -/

/-- What a state of a run from `s` has to do with the interpreter, when `rs` has retired so far. -/
inductive Tracks (s : State) (f : Flight) (rs : List Retired) (p : State) : Prop
  /-- on the path -/
  | flowing (n : Nat) (h : Flowing s f n p) (hr : rs ++ (f.retires p ++ retiresNext f p) = seqRetired n s)
  /-- the `HALT` is in WBEND -/
  | stopping (n : Nat) (hrun : p.status = .running) (hop : op p.wbend.instr = 6#10) (h : HoldsHaltOf s n p)
      (hr : rs ++ f.retires p = seqRetired n s)
  /-- the `HALT` has retired -/
  | halted (n : Nat) (hstatus : p.status = .halted) (h : HoldsHaltOf s n p) (hr : rs = seqRetired n s)
  /-- an access has faulted -/
  | faulted (n : Nat) (rest : List Retired) (hstatus : p.status = .faulted) (h : FaultsAsInterpreter s p)
      (hr : rs ++ rest = seqRetired n s)

section Tracks

variable {s : State} (hns : NoStaleFetch s) (hwf : s.mem.wf = true)

include hns hwf

theorem Flowing.tracks_step {f : Flight} {n : Nat} {p t : State} {rs : List Retired} (h : Flowing s f n p)
    (hr : rs ++ (f.retires p ++ retiresNext f p) = seqRetired n s) (hstep : step p = .next t) :
    Tracks s (f.next p t) (rs ++ f.retires p) t := by
  cases hf : memoryFaults p with
  | true =>
    obtain rfl := Host.Outcome.next.inj ((step_of_faults h.running h.wbend hf).symm.trans hstep)
    exact .faulted n (retiresNext f p) rfl (h.faultsAsInterpreter hf) (by rw [List.append_assoc]; exact hr)
  | false =>
    have hc := commits_of_not_faults h.running h.wbend hf
    obtain rfl := Host.Outcome.next.inj ((step_of_commits hc).symm.trans hstep)
    rw [next_committed h.running]
    obtain ⟨hrun, -⟩ | ⟨hhalt, hop, -⟩ := h.memwb
    · exact .flowing _ (h.committed hrun hf hns hwf) (h.retired_committed hrun hr)
    · refine .stopping n h.running hop (h.holdsHaltOf hhalt hf) ?_
      rw [retires_committed, List.append_assoc]
      exact hr

theorem Tracks.step {f : Flight} {rs : List Retired} {p t : State} (h : Tracks s f rs p)
    (hstep : Machine.step p = .next t) : Tracks s (f.next p t) (rs ++ f.retires p) t := by
  cases h with
  | flowing n h hr => exact h.tracks_step hns hwf hr hstep
  | stopping n hrun hop h hr =>
    obtain rfl := Host.Outcome.next.inj ((step_of_halt hrun hop).symm.trans hstep)
    exact .halted n rfl ⟨h.past, h.halted, h.x, h.flag, h.mem⟩ hr
  | halted n hstatus h hr =>
    rw [step_of_halted hstatus] at hstep
    cases hstep
  | faulted n rest hstatus h hr =>
    rw [step_of_faulted hstatus] at hstep
    cases hstep

theorem Tracks.runSteps {k : Nat} {f : Flight} {rs : List Retired} {p u : State} (h : Tracks s f rs p)
    (hrun : Machine.runSteps k p = .next u) : ∃ g, Tracks s g (rs ++ retired k f p) u := by
  induction k generalizing f rs p with
  | zero =>
    cases hrun
    exact ⟨f, by rw [retired_zero, List.append_nil]; exact h⟩
  | succ k ih =>
    obtain ⟨t, hstep, hrest⟩ := runSteps_succ_eq_next hrun
    obtain ⟨g, hg⟩ := ih (h.step hns hwf hstep) hrest
    exact ⟨g, by rw [retired_succ_of_next hstep, ← List.append_assoc]; exact hg⟩

end Tracks

/-! ### Runs of a launch -/

theorem agreesBehindExmem_launch (l : Launch) : AgreesBehindExmem (State.launch l) (State.launch l) :=
  AloneSince.agreesBehindExmem (k := 0) ⟨launch_status l, ⟨rfl, rfl⟩, rfl, rfl, rfl, rfl, rfl, rfl⟩

/-- At reset the path starts at address 0, with no word in flight (R102). -/
theorem flowing_launch (l : Launch) : Flowing (State.launch l) .empty 0 (State.launch l) where
  running := launch_status l
  past k hk := absurd hk (Nat.not_lt_zero k)
  agrees := agreesBehindExmem_launch l
  fresh := .inl rfl
  loadUse := loadUseInv_of_idex_bubble (launch_idex l)
  flight := ⟨fun _ => rfl, fun _ => rfl, fun _ => rfl, fun _ => rfl, fun _ => rfl, fun h => absurd h (by decide),
    fun h => absurd h (by decide)⟩
  wbend := by rw [launch_wbend]; decide
  memwb := .inl ⟨launch_status l, by rw [launch_memwb]; decide⟩
  exmem h := absurd h (by decide)
  path := ⟨fun h => absurd h (by decide), fun h => absurd h (by decide), fun _ =>
    congrArg State.pc (pathState_of_running (m := 0) (launch_status l)).symm⟩
  gaps := ⟨fun _ => ⟨rfl, rfl⟩, fun _ h => absurd h (by decide), fun _ m h => absurd h (Nat.succ_ne_zero m),
    fun _ _ m h => absurd h (Nat.succ_ne_zero m)⟩

theorem wf_launch (l : Launch) : (State.launch l).mem.wf = true := sortedFrom_imageCells 0 l.image

/-- Every state of a run of a launch without stale fetches is tracked (R79). -/
theorem tracks_of_runSteps {l : Launch} {k : Nat} {u : State} (hns : NoStaleFetch (State.launch l))
    (h : runSteps k (State.launch l) = .next u) : ∃ f, Tracks (State.launch l) f (retiredBy l k) u :=
  Tracks.runSteps hns (wf_launch l) (.flowing (rs := []) 0 (flowing_launch l) rfl) h

/-- In every case what has retired is what the interpreter runs first. -/
theorem Tracks.exists_append {s : State} {f : Flight} {rs : List Retired} {p : State} (h : Tracks s f rs p) :
    ∃ n rest, rs ++ rest = seqRetired n s := by
  cases h with
  | flowing n h hr => exact ⟨n, _, hr⟩
  | stopping n hrun hop h hr => exact ⟨n, _, hr⟩
  | halted n hstatus h hr => exact ⟨n, [], (List.append_nil rs).trans hr⟩
  | faulted n rest hstatus h hr => exact ⟨n, rest, hr⟩

theorem Tracks.of_halted {s : State} {f : Flight} {rs : List Retired} {p : State} (h : Tracks s f rs p)
    (hp : p.status = .halted) : ∃ n, HoldsHaltOf s n p ∧ rs = seqRetired n s := by
  cases h with
  | flowing n h hr => exact absurd (h.running.symm.trans hp) (by decide)
  | stopping n hrun hop h hr => exact absurd (hrun.symm.trans hp) (by decide)
  | halted n hstatus h hr => exact ⟨n, h, hr⟩
  | faulted n rest hstatus h hr => exact absurd (hstatus.symm.trans hp) (by decide)

theorem Tracks.of_faulted {s : State} {f : Flight} {rs : List Retired} {p : State} (h : Tracks s f rs p)
    (hp : p.status = .faulted) : FaultsAsInterpreter s p := by
  cases h with
  | flowing n h hr => exact absurd (h.running.symm.trans hp) (by decide)
  | stopping n hrun hop h hr => exact absurd (hrun.symm.trans hp) (by decide)
  | halted n hstatus h hr => exact absurd (hstatus.symm.trans hp) (by decide)
  | faulted n rest hstatus h hr => exact h

theorem HoldsHaltOf.seqHalts {s : State} {n : Nat} {p : State} (h : HoldsHaltOf s n p) : SeqHalts s n (seqAt n s) :=
  ⟨seqRun_eq_seqAt h.past, h.halted⟩

/-! ### The retirement order -/

/-- One cycle more retires at most one instruction more. -/
theorem retired_succ_eq_append (k : Nat) (f : Flight) (p : State) :
    ∃ rs, retired (k + 1) f p = retired k f p ++ rs ∧ rs.length ≤ 1 := by
  induction k generalizing f p with
  | zero =>
    cases hstep : step p with
    | next t =>
      refine ⟨f.retires p, ?_, retires_length_le f p⟩
      rw [retired_succ_of_next hstep, retired_zero, retired_zero, List.append_nil, List.nil_append]
    | fault r => exact ⟨[], by simp [retired, hstep], Nat.zero_le 1⟩
    | refused r => exact ⟨[], by simp [retired, hstep], Nat.zero_le 1⟩
  | succ k ih =>
    cases hstep : step p with
    | next t =>
      obtain ⟨rs, hrs, hlen⟩ := ih (f.next p t) t
      refine ⟨rs, ?_, hlen⟩
      rw [retired_succ_of_next hstep, retired_succ_of_next (k := k) hstep, hrs, List.append_assoc]
    | fault r => exact ⟨[], by simp [retired, hstep], Nat.zero_le 1⟩
    | refused r => exact ⟨[], by simp [retired, hstep], Nat.zero_le 1⟩

/-- Settles O58: the words past the Memory stage are the interpreter's, and those that have retired come first among them. -/
theorem instructionsRetireInOrder : Obligations.InstructionsRetireInOrder := by
  intro l k u _ hns hrun
  obtain ⟨f, htracks⟩ := tracks_of_runSteps hns hrun
  obtain ⟨n, rest, hr⟩ := htracks.exists_append
  obtain ⟨rs, hrs, hlen⟩ := retired_succ_eq_append k .empty (State.launch l)
  have hsucc : (retiredBy l (k + 1)).length = (retiredBy l k).length + rs.length := by
    rw [retiredBy, hrs, List.length_append]; rfl
  refine ⟨eq_seqRetired_of_append hr, by omega, by omega, fun hu => ?_⟩
  obtain ⟨m, hm, hret⟩ := htracks.of_halted hu
  refine ⟨seqAt m (State.launch l), ?_⟩
  rw [hret, seqRetired_length hm.past]
  exact hm.seqHalts

/-! ### The halt -/

/-- Where no store comes close before the `HALT` to the word behind it, that word is the one the final memory holds. -/
theorem wordBehind_eq_fetchWord {s : State} (hwf : s.mem.wf = true) {n : Nat}
    (hpast : ∀ k, k < n → (seqAt k s).status = .running) (hhalt : (seqAt n s).status = .halted) (hs : s.status = .running)
    (hstore : ∀ j, j + 1 < n → n ≤ j + 3 → storeAddress (seqAt j s) ≠ some ((seqAt n s).pc + 1#32)) :
    wordBehind s n = (seqAt n s).fetchWord ((seqAt n s).pc + 1#32) := by
  cases n with
  | zero => exact absurd (hs.symm.trans hhalt) (by decide)
  | succ m =>
    have hstep := seqStep_seqAt (hpast m (by omega))
    have hop := (seqStep_halted_iff hstep).mp hhalt
    have hpc : (seqAt (m + 1) s).pc = (seqAt m s).pc := by
      obtain ⟨-, ⟨-, heq⟩ | ⟨hne, -⟩ | ⟨hne, -⟩⟩ := seqStep_cases hstep
      · rw [heq]; rfl
      · exact absurd hop hne
      · exact absurd hop hne
    have hnostore : storeAddress (seqAt m s) = none := by
      rw [storeAddress, ← seqWord, instrOf_halt hop]
    have hmissed : missedBehind s m ≤ 2 := by unfold missedBehind; split <;> omega
    rw [wordBehind_succ, ← hpc]
    refine (seqAt_fetchWord hwf (by omega) fun k hk hkm => ?_).symm
    obtain rfl | hlt : k = m ∨ k < m := by omega
    · rw [hnostore]; exact Option.some_ne_none _ ∘ Eq.symm
    · exact hstore k (by omega) (by omega)

/-- Settles O52: the run ends holding the interpreter's `HALT`. -/
theorem pipelineHaltsAsInterpreter : Obligations.PipelineHaltsAsInterpreter := by
  intro l k u _ hns hrun hu
  obtain ⟨f, htracks⟩ := tracks_of_runSteps hns hrun
  obtain ⟨n, h, -⟩ := htracks.of_halted hu
  obtain ⟨t, hbehind, hmem⟩ := h.mem
  exact ⟨n, seqAt n (State.launch l), t, h.seqHalts, h.x, h.flag, hbehind, hmem,
    wordBehind_eq_fetchWord (wf_launch l) h.past h.halted (launch_status l)⟩

/-! ### The fault -/

/-- Settles O53: the fault of a run is the interpreter's, or that of the word behind its `HALT`. -/
theorem pipelineFaultsAsInterpreter : Obligations.PipelineFaultsAsInterpreter := by
  intro l k u r _ hns hrun hu hr
  obtain ⟨f, htracks⟩ := tracks_of_runSteps hns hrun
  obtain ⟨r', n, hr', hpast, hcases⟩ := htracks.of_faulted hu
  obtain rfl := Option.some.inj (hr.symm.trans hr')
  exact ⟨n, seqAt n (State.launch l), seqRun_eq_seqAt hpast, hcases⟩

end Sys2Proof.Proofs
end

section
/-!
PROOFS. The sequential effect of `ADD` and `NAND` (R80, R81): a register write and the next `pc`.
-/

namespace Sys2Proof.Proofs

open Sys2Proof Sys2Proof.Machine Sys2Proof.Safety Sys2Proof.Laws

theorem exec_add (ra rb : RegNum) (off : Offset) (s : State) :
    exec (.add ra rb off) s = s.whenRunning (s.writeReg (lowDest off) (s.readReg ra + s.readReg rb)).advance := rfl

theorem exec_nand (ra rb : RegNum) (off : Offset) (s : State) :
    exec (.nand ra rb off) s = s.whenRunning (s.writeReg (lowDest off) (~~~(s.readReg ra &&& s.readReg rb))).advance :=
  rfl

/-- An instruction that writes one register and moves on to the next word: it completes, and changes nothing else (R11). -/
theorem whenRunning_writeReg_advance {s : State} (hrun : s.status = .running) (d : RegNum) (v : Word) :
    ∃ t, s.whenRunning (s.writeReg d v).advance = .next t ∧
      t.readReg d = v ∧ (∀ q, q ≠ d → t.readReg q = s.readReg q) ∧
      t.pc = s.pc + 1#32 ∧ SameBytes s t ∧ SameLatches s t ∧ SameParams s t ∧ SameStatus s t ∧ t.cycles = s.cycles ∧
      t.flagUnsupported = s.flagUnsupported := by
  refine ⟨_, whenRunning_of_running hrun, ?written, ?others, by simp, by simp [SameBytes], by simp [SameLatches],
    by simp [SameParams], by simp [SameStatus], by simp, by simp⟩
  case written => rw [advance_readReg, readReg_writeReg_same]
  case others =>
    intro q hq
    rw [advance_readReg, readReg_writeReg_other s v hq]

/-- Settles O5: both instructions write their value to the low destination and move on. -/
theorem addNandSequentialEffect : Obligations.AddNandSequentialEffect := by
  intro ra rb off s hrun
  rw [exec_add, exec_nand]
  exact ⟨whenRunning_writeReg_advance hrun _ _, whenRunning_writeReg_advance hrun _ _⟩

end Sys2Proof.Proofs
end

section
/-!
PROOFS. The sequential effect of `LW` and `SW` (R82, R83): in range one register or one word of memory changes, and out of
range (R32) the access faults and changes nothing else (R91).
-/

namespace Sys2Proof.Proofs

open Sys2Proof Sys2Proof.Machine Sys2Proof.Safety Sys2Proof.Laws

/-! ### In range -/

theorem exec_lw_of_inRange {ra rb : RegNum} {off : Offset} {s : State}
    (hin : s.inRange (aluLw (s.readReg ra) (sext32 off)) = true) :
    exec (.lw ra rb off) s =
      s.whenRunning (s.writeReg rb (s.memRead (aluLw (s.readReg ra) (sext32 off)))).advance :=
  congrArg s.whenRunning (if_pos hin)

theorem exec_sw_of_inRange {ra rb : RegNum} {off : Offset} {s : State}
    (hin : s.inRange (aluSw (s.readReg ra) (sext32 off)) = true) :
    exec (.sw ra rb off) s =
      s.whenRunning (s.memWrite (aluSw (s.readReg ra) (sext32 off)) (s.readReg rb)).advance :=
  congrArg s.whenRunning (if_pos hin)

/-- An instruction that stores one word and moves on to the next: it completes, and changes nothing else (R36). -/
theorem whenRunning_memWrite_advance {s : State} {a : Word} (hrun : s.status = .running) (hin : s.inRange a = true)
    (v : Word) :
    ∃ t, s.whenRunning (s.memWrite a v).advance = .next t ∧ StoresWord s t a v ∧
      SameRegs s t ∧ t.pc = s.pc + 1#32 ∧ SameLatches s t ∧ SameParams s t ∧ SameStatus s t ∧ t.cycles = s.cycles ∧
      t.flagUnsupported = s.flagUnsupported :=
  ⟨_, whenRunning_of_running hrun, ⟨hin, rfl⟩, by simp [SameRegs], by simp, by simp [SameLatches],
    by simp [SameParams], by simp [SameStatus], by simp, by simp⟩

/-- Settles O7: the store of one word in range reads back, and leaves every other byte as it is. -/
theorem swSequentialEffect : Obligations.SwSequentialEffect := by
  intro ra rb off s hrun hwf hin
  obtain ⟨t, hnext, hstore, hframe⟩ := whenRunning_memWrite_advance hrun hin (s.readReg rb)
  exact ⟨t, (exec_sw_of_inRange hin).trans hnext, hstore.memRead hwf, rfl, fun k hk => hstore.readByte_outside hwf hk,
    hframe⟩

/-- Settles O6: in range an `LW` is the write of one register, as `ADD` and `NAND` are. -/
theorem lwSequentialEffect : Obligations.LwSequentialEffect := by
  intro ra rb off s hrun hin
  rw [exec_lw_of_inRange hin]
  exact whenRunning_writeReg_advance hrun rb _

/-! ### Out of range -/

/-- Outside the image on either side, the address read as signed (R32). -/
theorem inRange_eq_false {s : State} {a : Word} (h : a.toInt < 0 ∨ (s.nMem : Int) ≤ a.toInt) : s.inRange a = false :=
  decide_eq_false (by omega)

theorem isHalt_of_isAccess {i : Instr} (h : isAccess (some i) = true) : isHalt (some i) = false := by
  cases i with
  | halt ra rb off => exact absurd h Bool.false_ne_true
  | _ => rfl

/-- An access out of range is the fault case of `exec_eq` (R73, R91). -/
theorem exec_access_of_not_inRange {i : Instr} {s : State} (hrun : s.status = .running)
    (hi : isAccess (some i) = true) (hout : s.inRange (resultOf i s) = false) :
    exec i s = .next (s.raiseMemRangeFault (s.faultRecord (resultOf i s) (encode i))) := by
  have hfaults : accessFaults i s = true := by rw [accessFaults, hi, hout]; rfl
  rw [exec_eq hrun, isHalt_of_isAccess hi, hfaults]
  rfl

/-- Settles O8: both accesses have the one address, and fault by the one case of `exec`. -/
theorem lwSwOutOfRangeFault : Obligations.LwSwOutOfRangeFault := by
  intro ra rb off s hrun haddr
  have hout := inRange_eq_false haddr
  exact ⟨exec_access_of_not_inRange (i := .lw ra rb off) hrun rfl hout,
    exec_access_of_not_inRange (i := .sw ra rb off) hrun rfl hout⟩

end Sys2Proof.Proofs
end

section
/-!
PROOFS. The sequential effect of `BEQ`, `JALR` and `NOOP` (R84, R85, R87): the next `pc`, and for `JALR` the flag.
-/

namespace Sys2Proof.Proofs

open Sys2Proof Sys2Proof.Machine Sys2Proof.Safety Sys2Proof.Laws

/-- The outcome bit of Execute is the comparison itself (R15, R84). -/
theorem flagTaken_aluBeq_iff (a b : Word) : flagTaken (aluBeq a b) = true ↔ a = b := by
  by_cases h : a = b <;> simp [flagTaken, aluBeq, equalFlag, h]

/-- `BEQ` assigns the `pc` and nothing else: its outcome only selects the value (R84). -/
theorem exec_beq (ra rb : RegNum) (off : Offset) (s : State) :
    exec (.beq ra rb off) s =
      s.whenRunning (s.setPc
        (if s.readReg ra = s.readReg rb then s.pc + 1#32 + sext32 off else s.pc + 1#32)) := by
  refine congrArg s.whenRunning ?_
  simp only [flagTaken_aluBeq_iff, apply_ite s.setPc]
  rfl

/-- An instruction that only assigns the `pc`: it completes, and changes nothing else. -/
theorem whenRunning_setPc {s : State} (hrun : s.status = .running) (v : Word) :
    ∃ t, s.whenRunning (s.setPc v) = .next t ∧ t.pc = v ∧
      SameRegs s t ∧ SameBytes s t ∧ SameLatches s t ∧ SameParams s t ∧ SameStatus s t ∧ t.cycles = s.cycles ∧
      t.flagUnsupported = s.flagUnsupported :=
  ⟨_, whenRunning_of_running hrun, by simp, by simp [SameRegs], by simp [SameBytes], by simp [SameLatches],
    by simp [SameParams], by simp [SameStatus], by simp, by simp⟩

/-- Settles O9: equal or not, `BEQ` is one assignment of the `pc`. -/
theorem beqSequentialEffect : Obligations.BeqSequentialEffect := by
  intro ra rb off s hrun
  rw [exec_beq]
  exact (whenRunning_setPc hrun _).imp fun t ⟨hnext, hpc, hframe⟩ =>
    ⟨hnext, fun heq => hpc.trans (if_pos heq), fun hne => hpc.trans (if_neg hne), hframe⟩

theorem exec_jalr (ra rb : RegNum) (off : Offset) (s : State) :
    exec (.jalr ra rb off) s = s.whenRunning s.markUnsupported.advance := rfl

theorem exec_noop (ra rb : RegNum) (off : Offset) (s : State) :
    exec (.noop ra rb off) s = s.whenRunning s.advance := rfl

/-- Settles O10: no field of either instruction occurs in its effect. -/
theorem jalrNoopSequentialEffect : Obligations.JalrNoopSequentialEffect := fun ra rb off s hrun =>
  ⟨(exec_jalr ra rb off s).trans (whenRunning_of_running hrun),
    (exec_noop ra rb off s).trans (whenRunning_of_running hrun)⟩

end Sys2Proof.Proofs
end

section
/-!
PROOFS. The words of opcode 5 and above, `JALR`, `HALT`, `NOOP` and the undefined ones, in every stage of a committed cycle
(R85 to R88): stage by stage, what a word of another opcode does there.
-/

namespace Sys2Proof.Proofs

open Sys2Proof Sys2Proof.Machine Sys2Proof.Safety Sys2Proof.Laws

/-- An inert word is of none of the opcodes that a stage acts on. -/
theorem op_ne_of_five_le {w : Word} {o : BitVec 10} (h : 5 ≤ (op w).toNat) (ho : o.toNat < 5) : op w ≠ o := by
  rintro rfl
  exact absurd h (Nat.not_le.mpr ho)

theorem not_loadUse_of_not_lw {s : State} (h : op s.idex.instr ≠ 2#10) : ¬ LoadUse s := fun ⟨hlw, _⟩ => h hlw

theorem not_takenBranch_of_not_beq {s : State} (h : op s.exmem.instr ≠ 4#10) : ¬ TakenBranch s :=
  fun ⟨hbeq, _⟩ => h hbeq

/-- Execute leaves 0 of an inert word, and the squash of an older `BEQ` a bubble, which holds 0 too (R66, R70). -/
theorem committed_aluResult_of_five_le {s : State} (h : 5 ≤ (op s.idex.instr).toNat) :
    (committed s).exmem.aluResult = 0#32 := by
  obtain hbubble | ⟨a, b, off, -, hresult⟩ := committed_exmem_cases s
  · rw [hbubble]; rfl
  · rw [hresult]; exact alu_eq_zero h a b off

theorem committed_sameRegs_of_no_dest {s : State} (h : dest s.memwb.instr = none) : SameRegs s (committed s) := fun q =>
  readReg_congr (regsAfter_of_no_dest h) q

theorem exmemSupply_of_five_le {l : EXMEM} (h : 5 ≤ (op l.instr).toNat) : exmemSupply l = none := by
  refine exmemSupply_of_not_alu ?_
  rintro (hadd | hnand)
  · exact op_ne_of_five_le h (by decide) hadd
  · exact op_ne_of_five_le h (by decide) hnand

theorem wbendSupply_of_no_dest {l : WBEND} (h : dest l.instr = none) : wbendSupply l = none :=
  (wbendSupply_eq_memwbSupply l).trans (memwbSupply_of_no_dest h)

/-- Settles O29, latch by latch. -/
theorem inertWordsInEveryStage : Obligations.InertWordsInEveryStage := by
  intro s t hc hstep
  obtain rfl : committed s = t := Host.Outcome.next.inj ((step_of_commits hc).symm.trans hstep)
  refine ⟨fun hidex => ?_, fun hexmem => ?_, fun hmemwb => ?_, fun hwbend => ?_, srcFields_of_five_le⟩
  · exact ⟨not_loadUse_of_not_lw (op_ne_of_five_le hidex (by decide)), committed_aluResult_of_five_le hidex⟩
  · exact ⟨exmemSupply_of_five_le hexmem, not_takenBranch_of_not_beq (op_ne_of_five_le hexmem (by decide)),
      memoryValue_eq_zero (by omega), committed_sameBytes_of_not_sw (op_ne_of_five_le hexmem (by decide))⟩
  · have hdest := dest_eq_none_of_three_le (w := s.memwb.instr) (by omega)
    exact ⟨memwbSupply_of_no_dest hdest, committed_sameRegs_of_no_dest hdest⟩
  · exact wbendSupply_of_no_dest (dest_eq_none_of_three_le (by omega))

end Sys2Proof.Proofs
end

section
/-!
PROOFS. `HALT`: its sequential effect (R86), and on the pipeline the cycle between its WriteBack and its retirement, in which
the word behind it has its Memory stage (R57, R89).
-/

namespace Sys2Proof.Proofs

open Sys2Proof Sys2Proof.Machine Sys2Proof.Safety Sys2Proof.Laws

theorem exec_halt (ra rb : RegNum) (off : Offset) (s : State) :
    exec (.halt ra rb off) s = s.whenRunning s.haltMachine := rfl

/-- Settles O11: no field of the instruction occurs in its effect, which is the status alone. -/
theorem haltSequentialEffect : Obligations.HaltSequentialEffect := fun ra rb off s hrun =>
  (exec_halt ra rb off s).trans (whenRunning_of_running hrun)

/-- `HALT` has no destination (R48), so its WriteBack leaves the register file. -/
theorem regsAfter_of_halt {s : State} (hhalt : op s.memwb.instr = 6#10) : regsAfter s = s.x :=
  regsAfter_of_no_dest (dest_eq_none_of_three_le (by rw [hhalt]; decide))

/-- With `HALT` in MEMWB a cycle that commits moves it to WBEND, where the next cycle's halt check finds it (R57). -/
theorem runSteps_two_of_halt {s : State} (hc : CommitsCycle s) (hhalt : op s.memwb.instr = 6#10) :
    runSteps 2 s = .next (committed s).haltMachine :=
  calc runSteps 2 s
      = runSteps 1 (committed s) := runSteps_succ_of_next (step_of_commits hc)
    _ = runSteps 0 (committed s).haltMachine :=
        runSteps_succ_of_next (step_of_halt (committed_status_of_commits hc) hhalt)
    _ = .next (committed s).haltMachine := runSteps_zero _

/-- Settles O51: the first cycle is that of the word behind the `HALT`, and it faults or commits; after the commit the halt
check keeps that word from its WriteBack. -/
theorem wordBehindHalt : Obligations.WordBehindHalt := by
  intro s hrun hwf hhalt hwb
  refine ⟨fun haccess hout => ?_, fun hin => ?_⟩
  · exact ⟨_, step_of_faults hrun hwb ((memoryFaults_iff s).mpr ⟨haccess, hout⟩), raiseMemRangeFault_status s _⟩
  · have hc : CommitsCycle s := ⟨hrun, hwb, hin⟩
    refine ⟨_, runSteps_two_of_halt hc hhalt, haltMachine_status _, regsAfter_of_halt hhalt, committed_cycles s,
      fun hsw => ?_, committed_sameBytes_of_not_sw⟩
    have hstore := committed_storesWord hc hsw
    exact ⟨hstore.memRead hwf, fun k hk => hstore.readByte_outside hwf hk⟩

end Sys2Proof.Proofs
end

section
/-!
PROOFS. The two events that end a run, the halt (R57, R93) and `MemRangeFault` (R91, R92), each with its report and no cycle
after it (R77), and the address of the word in EXMEM, which a host may report of the fault (R91).
-/

namespace Sys2Proof.Proofs

open Sys2Proof Sys2Proof.Machine Sys2Proof.Safety Sys2Proof.Laws

/-! ### The events that end a run -/

/-- Only a RUNNING state has a cycle (R56, R77). -/
theorem step_ne_next_of_ended {s : State} (h : s.status ≠ .running) (u : State) : step s ≠ .next u := fun hu =>
  h (step_cases hu).1

theorem report_of_halted {s : State} (h : s.status = .halted) :
    s.report = some (.halted s.cycles s.flagUnsupported) := by
  simp [State.report, h]

theorem report_of_faulted {s : State} (h : s.status = .faulted) :
    s.report = some (.faulted s.fault s.flagUnsupported) := by
  simp [State.report, h]

/-- Settles O15: the halt check comes before every stage, so no other latch is looked at. -/
theorem haltCheckEndsRun : Obligations.HaltCheckEndsRun := fun s hrun hwb =>
  ⟨step_of_halt hrun hwb, rfl, report_of_halted (haltMachine_status s),
    step_ne_next_of_ended (s := s.haltMachine) (by simp)⟩

/-- Settles O16: the range check raises the fault on the pre-state, and what the other stages computed is dropped. -/
theorem faultDiscardsCycle : Obligations.FaultDiscardsCycle := by
  intro s hrun hwb haccess hout
  have hfaults : memoryFaults s = true := (memoryFaults_iff s).mpr ⟨haccess, inRange_eq_false hout⟩
  exact ⟨_, step_of_faults hrun hwb hfaults, rfl, rfl, report_of_faulted (raiseMemRangeFault_status s _),
    step_ne_next_of_ended (by simp)⟩

/-! ### The address of the word in EXMEM -/

/-- Execute adds the latched offset and the host takes the word's own away (R66, R91): the address comes back where the two
are one. -/
theorem committed_exmemAddress {s : State} (hb : s.squashes = false)
    (hoffset : s.idex.offset = sext32 (off16 s.idex.instr)) :
    (committed s).exmemAddress = s.idex.pcPlus1 - 1#32 := by
  rw [State.exmemAddress, committed_exmem_of_not_squash hb]
  calc s.idex.pcPlus1 + s.idex.offset - sext32 (off16 s.idex.instr) - 1#32
      = s.idex.pcPlus1 + s.idex.offset - s.idex.offset - 1#32 := by rw [hoffset]
    _ = s.idex.pcPlus1 - 1#32 := by rw [BitVec.add_sub_cancel]

/-- Settles O44, by the offset clause of `LatchInv`. -/
theorem faultingAddressRecoverable : Obligations.FaultingAddressRecoverable := by
  intro s hc hb hinv
  obtain ⟨hoffset, -⟩ := hinv
  have hsquash : s.squashes = false := squashes_eq_false hb
  exact ⟨_, step_of_commits hc, by rw [committed_exmem_of_not_squash hsquash], committed_exmemAddress hsquash hoffset⟩

end Sys2Proof.Proofs
end

section
/-!
PROOFS. The state after reset (R102): every field of it, and the five invariants, at every legal launch (R4).
-/

namespace Sys2Proof.Proofs

open Sys2Proof Sys2Proof.Machine Sys2Proof.Safety Sys2Proof.Laws

/-! ### The invariants at reset -/

theorem memoryInv_launch {l : Launch} (h : l.legal = true) : MemoryInv (State.launch l) :=
  ⟨wf_launch l, within_imageCells l.image, (legal_iff l).mp h⟩

/-- Every data field of a bubble is 0, and so is the offset of its word (R21). -/
theorem latchInv_launch (l : Launch) : LatchInv (State.launch l) := by
  have hoffset : bubbleIDEX.offset = sext32 (off16 bubbleIDEX.instr) := by decide
  exact ⟨hoffset, fun _ => .inl rfl, fun _ => rfl, fun _ => rfl, fun _ => rfl⟩

theorem statusInv_launch (l : Launch) : StatusInv (State.launch l) :=
  statusInv_of_running (launch_status l) (launch_fault l)

/-- Settles O42: at reset the memory is the image's and every latch is a bubble. -/
theorem invariantsAtReset : Obligations.InvariantsAtReset :=
  ⟨fun l hlegal => ⟨memoryInv_launch hlegal, (flowing_launch l).loadUse, statusInv_launch l, latchInv_launch l,
    (flowing_launch l).flight⟩, by decide, rfl⟩

/-! ### The fields at reset -/

theorem readWord_launch (l : Launch) (i : Nat) (h : i < l.image.length) :
    readWord (State.launch l).mem i = l.image[i] := by
  rw [launch_mem, ← readWord_imageCells 0 l.image i h, Nat.zero_add]

/-- Settles O45: the memory is read word by word, and every other field is the launch's own or a constant. -/
theorem resetState : Obligations.ResetState := fun l =>
  ⟨launch_pc l, launch_nMem l, readWord_launch l, launch_x l, launch_stallFields l, launch_ifid l, launch_idex l,
    launch_exmem l, launch_memwb l, launch_wbend l, launch_cycles l, launch_status l, launch_fault l,
    launch_flagUnsupported l⟩

end Sys2Proof.Proofs
end

section
/-!
PROOFS. The warm-up of the pipeline (R105, R112): the first word moves one latch on in every cycle after reset, with bubbles
ahead of it, and is in WBEND after five.
-/

namespace Sys2Proof.Proofs

open Sys2Proof Sys2Proof.Machine Sys2Proof.Safety Sys2Proof.Laws

/-! ### Runs, cycle by cycle -/

/-- What holds before a run, and one step later after every step, holds after each number of steps. -/
theorem runSteps_counted {P : Nat → State → Prop} (hstep : ∀ k p t, P k p → step p = .next t → P (k + 1) t)
    {j k : Nat} {s u : State} (hs : P j s) (h : runSteps k s = .next u) : P (j + k) u := by
  induction k generalizing j s with
  | zero => cases h; exact hs
  | succ k ih =>
    obtain ⟨t, hst, htu⟩ := runSteps_succ_eq_next h
    rw [show j + (k + 1) = j + 1 + k by omega]
    exact ih (hstep j s t hs hst) htu

/-- In a run that still goes on every step has counted (R75). -/
theorem runSteps_cycles_of_running {k : Nat} {s u : State} (h : runSteps k s = .next u) (hu : u.status = .running) :
    u.cycles = s.cycles + k := by
  refine runSteps_counted (P := fun k p => p.status = .running → p.cycles = s.cycles + k) (j := 0)
    (fun k p t hp hstep ht => ?_) (fun _ => rfl) h hu |>.trans (by rw [Nat.zero_add])
  have hcycles := step_cycles hstep
  rw [if_pos ht, hp (step_cases hstep).1] at hcycles
  exact hcycles

/-! ### The first word on its way -/

/-- Where the first word `w` of a run stands `k` cycles after reset, and that the latches ahead of it hold the bubble's word:
it is fetched in cycle 0 and in WBEND after five cycles. -/
structure FirstWordAt (w : Word) (k : Nat) (p : State) : Prop where
  fetch : k = 0 → p.fetchWord p.pc = w
  ifid : k = 1 → p.ifid.instr = w
  idex : k = 2 → p.idex.instr = w
  exmem : k = 3 → p.exmem.instr = w
  memwb : k = 4 → p.memwb.instr = w
  wbend : k = 5 → p.wbend.instr = w
  ifidAhead : k < 1 → p.ifid.instr = noopWord
  idexAhead : k < 2 → p.idex.instr = noopWord
  exmemAhead : k < 3 → p.exmem.instr = noopWord
  memwbAhead : k < 4 → p.memwb.instr = noopWord
  wbendAhead : k < 5 → p.wbend.instr = noopWord

theorem firstWordAt_launch (l : Launch) : FirstWordAt ((State.launch l).fetchWord 0#32) 0 (State.launch l) where
  fetch _ := rfl
  ifid h := absurd h (by decide)
  idex h := absurd h (by decide)
  exmem h := absurd h (by decide)
  memwb h := absurd h (by decide)
  wbend h := absurd h (by decide)
  ifidAhead _ := rfl
  idexAhead _ := rfl
  exmemAhead _ := rfl
  memwbAhead _ := rfl
  wbendAhead _ := rfl

namespace FirstWordAt

variable {w : Word} {k : Nat} {p : State}

theorem squashes_eq_false (h : FirstWordAt w k p) (hk : k < 3) : p.squashes = false :=
  AloneSince.squashes_eq_false (h.exmemAhead hk)

theorem stalls_eq_false (h : FirstWordAt w k p) (hk : k < 2) : p.stalls = false :=
  AloneSince.stalls_eq_false (h.idexAhead hk)

theorem committed_ifid (h : FirstWordAt w k p) (hk : k < 2) : (committed p).ifid.instr = p.fetchWord p.pc := by
  rw [committed_ifid_of_fetch (not_takenBranch (h.squashes_eq_false (by omega))) (not_loadUse (h.stalls_eq_false hk))]

theorem committed_idex (h : FirstWordAt w k p) (hk : k < 2) : (committed p).idex.instr = p.ifid.instr := by
  rw [committed_idex_of_flow (h.squashes_eq_false (by omega)) (h.stalls_eq_false hk)]

theorem committed_exmem (h : FirstWordAt w k p) (hk : k < 3) : (committed p).exmem.instr = p.idex.instr := by
  rw [committed_exmem_of_not_squash (h.squashes_eq_false hk)]

/-- With bubbles ahead of it nothing stalls or squashes the word: it moves one latch on. -/
theorem committed (h : FirstWordAt w k p) : FirstWordAt w (k + 1) (Laws.committed p) where
  fetch hk := absurd hk (by omega)
  ifid hk := (h.committed_ifid (by omega)).trans (h.fetch (by omega))
  idex hk := (h.committed_idex (by omega)).trans (h.ifid (by omega))
  exmem hk := (h.committed_exmem (by omega)).trans (h.idex (by omega))
  memwb hk := h.exmem (by omega)
  wbend hk := h.memwb (by omega)
  ifidAhead hk := absurd hk (by omega)
  idexAhead hk := (h.committed_idex (by omega)).trans (h.ifidAhead (by omega))
  exmemAhead hk := (h.committed_exmem (by omega)).trans (h.idexAhead (by omega))
  memwbAhead hk := h.exmemAhead (by omega)
  wbendAhead hk := h.memwbAhead (by omega)

end FirstWordAt

/-- A run of a launch moves its first word on as long as it goes on, and a cycle that ends it leaves WBEND as it was. -/
theorem firstWordAt_runSteps {l : Launch} {k : Nat} {u : State} (h : runSteps k (State.launch l) = .next u) :
    (u.status = .running → FirstWordAt ((State.launch l).fetchWord 0#32) k u) ∧ (k < 5 → u.wbend.instr = noopWord) := by
  rw [← Nat.zero_add k]
  refine runSteps_counted (P := fun k p =>
    (p.status = .running → FirstWordAt ((State.launch l).fetchWord 0#32) k p) ∧ (k < 5 → p.wbend.instr = noopWord))
    (fun k p t hp hstep => ?_) ⟨fun _ => firstWordAt_launch l, fun _ => rfl⟩ h
  obtain ⟨hfirst, hwbend⟩ := hp
  obtain ⟨hrun, ⟨-, rfl⟩ | ⟨-, -, rfl⟩ | ⟨-, -, rfl⟩⟩ := step_cases hstep
  · exact ⟨fun ht => absurd ht (by simp), fun hk => hwbend (by omega)⟩
  · exact ⟨fun ht => absurd ht (by simp), fun hk => hwbend (by omega)⟩
  · exact ⟨fun _ => (hfirst hrun).committed, (hfirst hrun).committed.wbendAhead⟩

/-- A `NOOP` in WBEND writes nothing, so that a bubble's word there is the bubble (R74). -/
theorem wbend_eq_bubble {s : State} (hinv : LatchInv s) (h : s.wbend.instr = noopWord) : s.wbend = bubbleWBEND := by
  obtain ⟨-, -, -, -, hwbend⟩ := hinv
  have hdata : s.wbend.writeData = 0#32 := hwbend (by rw [h]; decide)
  exact congr (congrArg WBEND.mk h) hdata

/-- Bubbles in every later latch forward nothing (R67). -/
theorem forwardSlot_launch (l : Launch) (r : RegNum) (v : Word) : forwardSlot (State.launch l) r v = v := by
  rw [forwardSlot_eq, launch_wbend, launch_memwb, launch_exmem, wbendSupply_bubble, memwbSupply_bubble,
    exmemSupply_bubble, applySupply_none, applySupply_none, applySupply_none]

/-- The bubbles of the reset move on as bubbles (R105). -/
theorem committed_launch_exmem (l : Launch) : (committed (State.launch l)).exmem = bubbleEXMEM := by
  rw [committed_exmem_of_not_squash ((firstWordAt_launch l).squashes_eq_false (by decide)), launch_idex,
    alu_eq_zero (by decide), State.forward, forwardSlot_launch, forwardSlot_launch, launch_idex]
  rfl

theorem committed_launch_memwb (l : Launch) : (committed (State.launch l)).memwb = bubbleMEMWB :=
  congrArg (MEMWB.mk noopWord) (memoryValue_eq_zero (s := State.launch l) (by rw [launch_exmem]; decide))

/-- Settles O49: the first word is followed latch by latch. -/
theorem warmUpFourBubbles : Obligations.WarmUpFourBubbles := by
  intro l k u h
  obtain ⟨hfirst, hwbend⟩ := firstWordAt_runSteps h
  refine ⟨fun hk => wbend_eq_bubble (runSteps_invariant latchInvKeptByStep (latchInv_launch l) h) (hwbend hk), ?_, ?_⟩
  · rintro rfl
    have hf : memoryFaults (State.launch l) = false := by rw [memoryFaults, launch_exmem]; rfl
    have hstep := step_of_commits (commits_of_not_faults (launch_status l) (flowing_launch l).wbend hf)
    obtain rfl : committed (State.launch l) = u := by
      rw [runSteps_succ_of_next hstep, runSteps_zero] at h
      exact Host.Outcome.next.inj h
    have hnext := (firstWordAt_launch l).committed
    exact ⟨hnext.ifid rfl, hnext.idexAhead (by decide), committed_launch_exmem l, committed_launch_memwb l⟩
  · rintro rfl hrun
    exact ⟨(runSteps_cycles_of_running h hrun).trans (by rw [launch_cycles]), (hfirst hrun).wbend rfl⟩

end Sys2Proof.Proofs
end

section
/-!
PROOFS. The cycle count (R110): what the pipeline spends on the instructions that retire, one cycle each, one more for each
load-use stall and three more for each taken branch. Kept along every run of a launch, stale fetches included, as the cycle
in which the next instruction passes each latch.
-/

namespace Sys2Proof.Proofs

open Sys2Proof Sys2Proof.Machine Sys2Proof.Safety Sys2Proof.Laws

/-! ### The cycles that a list of retired instructions takes -/

/-- The cycles that retired instructions take: `R + S + 3*B` of R110. -/
def cycleCost (fields : StallFields) (rs : List Retired) : Nat :=
  rs.length + loadUses fields rs + 3 * takenBranches rs

/-- The cycle that the word `w` loses behind `rs`: one when the last of `rs` is an `LW` that loads what `w` uses (R63). -/
def stallBehind (fields : StallFields) (rs : List Retired) (w : Word) : Nat :=
  match rs.getLast? with
  | some r => if usesLoaded fields r.word w then 1 else 0
  | none => 0

/-- The number of cycles after which the word `w`, next behind `rs`, is in IFID and waits no longer, its own stall counted; it
is one latch further on in each cycle after that. -/
def arrival (fields : StallFields) (rs : List Retired) (w : Word) : Nat :=
  cycleCost fields rs + 1 + stallBehind fields rs w

theorem stallBehind_append (fields : StallFields) (rs : List Retired) (r : Retired) (w : Word) :
    stallBehind fields (rs ++ [r]) w = if usesLoaded fields r.word w then 1 else 0 := by
  simp [stallBehind]

theorem stallBehind_le (fields : StallFields) (rs : List Retired) (w : Word) : stallBehind fields rs w ≤ 1 := by
  unfold stallBehind
  split
  · split <;> omega
  · omega

/-- One instruction more is one load-use pair more, or none (R110). -/
theorem loadUses_append (fields : StallFields) (rs : List Retired) (w : Word) (taken : Bool) :
    loadUses fields (rs ++ [{ word := w, taken := taken }]) = loadUses fields rs + stallBehind fields rs w := by
  induction rs with
  | nil => rfl
  | cons q rs ih =>
    cases rs with
    | nil => simp [loadUses, stallBehind]
    | cons q' rs =>
      have hlast : stallBehind fields (q :: q' :: rs) w = stallBehind fields (q' :: rs) w := rfl
      rw [List.cons_append] at ih
      rw [List.cons_append, List.cons_append, loadUses, ih, hlast, loadUses, Nat.add_assoc]

theorem takenBranches_append (rs : List Retired) (w : Word) (taken : Bool) :
    takenBranches (rs ++ [{ word := w, taken := taken }]) = takenBranches rs + taken.toNat := by
  rw [takenBranches, List.countP_append]
  cases taken <;> rfl

/-- An instruction that has arrived costs three cycles more when it is a taken branch (R109). -/
theorem cycleCost_append (fields : StallFields) (rs : List Retired) (w : Word) (taken : Bool) :
    cycleCost fields (rs ++ [{ word := w, taken := taken }]) = arrival fields rs w + 3 * taken.toNat := by
  rw [cycleCost, loadUses_append, takenBranches_append, List.length_append, List.length_singleton, arrival, cycleCost]
  omega

theorem arrival_append (fields : StallFields) (rs : List Retired) (w v : Word) (taken : Bool) :
    arrival fields (rs ++ [{ word := w, taken := taken }]) v =
      arrival fields rs w + 3 * taken.toNat + 1 + if usesLoaded fields w v then 1 else 0 := by
  rw [arrival, cycleCost_append, stallBehind_append]

/-! ### The first instruction that may still be squashed -/

/-- When the first of the instructions ahead of the Memory stage came, or will come, behind the list `rs` of those past it, by
the latches that hold one: two in a row in EXMEM and IDEX, the bubble of a stall between two, or the bubbles of a squash or
of reset in front. -/
inductive FrontOnTime (f : Flight) (rs : List Retired) (p : State) : Prop
  | full (he : f.exmem = true) (hd : f.idex = true) (hf : f.ifid = true)
      (hfree : usesLoaded p.stallFields p.exmem.instr p.idex.instr = false)
      (ht : p.cycles = arrival p.stallFields rs p.exmem.instr + 2)
  | stalled (he : f.exmem = true) (hd : f.idex = false) (hf : f.ifid = true)
      (huse : usesLoaded p.stallFields p.exmem.instr p.ifid.instr = true)
      (ht : p.cycles = arrival p.stallFields rs p.exmem.instr + 2)
  | fromIdex (he : f.exmem = false) (hd : f.idex = true) (hf : f.ifid = true)
      (ht : p.cycles = arrival p.stallFields rs p.idex.instr + 1)
  | fromIfid (he : f.exmem = false) (hd : f.idex = false) (hf : f.ifid = true)
      (ht : p.cycles = arrival p.stallFields rs p.ifid.instr)
  | empty (he : f.exmem = false) (hd : f.idex = false) (hf : f.ifid = false)
      (ht : ∀ w, p.cycles + 1 = arrival p.stallFields rs w)

/-- A branch that squashes is no load. -/
theorem usesLoaded_of_squashes {p : State} (hb : p.squashes = true) (fields : StallFields) (w : Word) :
    usesLoaded fields p.exmem.instr w = false := by
  rw [Bool.eq_false_iff]
  intro huse
  have hbeq := ((squashes_iff p).mp hb).1
  have hlw := ((usesLoaded_iff _ _ _).mp huse).1
  exact absurd (hbeq.symm.trans hlw) (by decide)

namespace FrontOnTime

variable {f : Flight} {rs : List Retired} {p : State}

theorem exmem_time (h : FrontOnTime f rs p) (he : f.exmem = true) :
    p.cycles = arrival p.stallFields rs p.exmem.instr + 2 := by
  cases h with
  | full _ _ _ _ ht => exact ht
  | stalled _ _ _ _ ht => exact ht
  | fromIdex he' => rw [he'] at he; cases he
  | fromIfid he' => rw [he'] at he; cases he
  | empty he' => rw [he'] at he; cases he

/-- A squash leaves three bubbles: the word at its target comes three cycles late (R70, R109). -/
theorem committed_of_squash (hb : p.squashes = true) (ht : p.cycles = arrival p.stallFields rs p.exmem.instr + 2) :
    FrontOnTime (flightAfter f p) (rs ++ [{ word := p.exmem.instr, taken := true }]) (committed p) := by
  obtain ⟨hf, hd, he⟩ := flightAfter_of_squash f hb
  refine .empty he hd hf fun w => ?_
  rw [committed_cycles, committed_stallFields, arrival_append, usesLoaded_of_squashes hb, ht]
  rfl

/-- The word in IDEX moves on to EXMEM, and a word behind it that uses what it loads waits (R64). -/
theorem committed_of_idex (hb : p.squashes = false) (hd : f.idex = true) (hf : f.ifid = true)
    (ht : p.cycles = arrival p.stallFields rs p.idex.instr + 1) : FrontOnTime (flightAfter f p) rs (committed p) := by
  have ht' : (committed p).cycles =
      arrival (committed p).stallFields rs (committed p).exmem.instr + 2 := by
    rw [committed_cycles, committed_stallFields, committed_exmem_of_not_squash hb, ht]
  cases hl : p.stalls with
  | true =>
    obtain ⟨hfi, hdi, hei⟩ := flightAfter_of_stall f hb hl
    refine .stalled (hei.trans hd) hdi (hfi.trans hf) ?_ ht'
    rw [committed_exmem_of_not_squash hb, committed_ifid_of_stall hb hl]
    exact hl
  | false =>
    obtain ⟨hfi, hdi, hei⟩ := flightAfter_of_flow f hb hl
    refine .full (hei.trans hd) (hdi.trans hf) hfi ?_ ht'
    rw [committed_exmem_of_not_squash hb, committed_idex_of_flow hb hl]
    exact hl

/-- The word in IFID moves on to IDEX behind a bubble. -/
theorem committed_of_ifid (hb : p.squashes = false) (hl : p.stalls = false) (hd : f.idex = false) (hf : f.ifid = true)
    (ht : p.cycles = arrival p.stallFields rs p.ifid.instr) : FrontOnTime (flightAfter f p) rs (committed p) := by
  obtain ⟨hfi, hdi, hei⟩ := flightAfter_of_flow f hb hl
  refine .fromIdex (hei.trans hd) (hdi.trans hf) hfi ?_
  rw [committed_cycles, committed_stallFields, committed_idex_of_flow hb hl, ht]

/-- Fetch brings a word behind bubbles. -/
theorem committed_of_fetch (hb : p.squashes = false) (hl : p.stalls = false) (hd : f.idex = false) (hf : f.ifid = false)
    (ht : ∀ w, p.cycles + 1 = arrival p.stallFields rs w) : FrontOnTime (flightAfter f p) rs (committed p) := by
  obtain ⟨hfi, hdi, hei⟩ := flightAfter_of_flow f hb hl
  exact .fromIfid (hei.trans hd) (hdi.trans hf) hfi (ht _)

/-- Every committed cycle keeps the account, with the word that passes the Memory stage added to the list. -/
theorem committed (h : FrontOnTime f rs p) (hinv : FlightInv p f) :
    FrontOnTime (flightAfter f p) (rs ++ retiresNext (flightAfter f p) (Laws.committed p)) (Laws.committed p) := by
  obtain ⟨-, hidex, hexmem, -⟩ := hinv
  cases he : f.exmem with
  | true =>
    have ht := h.exmem_time he
    rw [retiresNext_committed_of_instr he]
    cases hb : p.squashes with
    | true => exact committed_of_squash hb ht
    | false =>
      cases h with
      | full _ hd hf hfree _ =>
        refine committed_of_idex hb hd hf ?_
        rw [arrival_append, hfree, ht]
        rfl
      | stalled _ hd hf huse _ =>
        refine committed_of_ifid hb (AloneSince.stalls_eq_false (hidex hd)) hd hf ?_
        rw [arrival_append, huse, ht]
        rfl
      | fromIdex he' => rw [he'] at he; cases he
      | fromIfid he' => rw [he'] at he; cases he
      | empty he' => rw [he'] at he; cases he
  | false =>
    have hb : p.squashes = false := AloneSince.squashes_eq_false (hexmem he)
    rw [retiresNext_committed_of_bubble he, List.append_nil]
    cases h with
    | full he' => rw [he'] at he; cases he
    | stalled he' => rw [he'] at he; cases he
    | fromIdex _ hd hf ht => exact committed_of_idex hb hd hf ht
    | fromIfid _ hd hf ht => exact committed_of_ifid hb (AloneSince.stalls_eq_false (hidex hd)) hd hf ht
    | empty _ hd hf ht => exact committed_of_fetch hb (AloneSince.stalls_eq_false (hidex hd)) hd hf ht

end FrontOnTime

/-! ### Every state of a run -/

/-- The pipeline on the account of R110, when `rs` has retired so far: each instruction passes each latch at its time. -/
structure OnTime (f : Flight) (rs : List Retired) (p : State) : Prop where
  running : p.status = .running
  flight : FlightInv p f
  front : FrontOnTime f (rs ++ f.retires p ++ retiresNext f p) p
  memwb : f.memwb = true → p.cycles = arrival p.stallFields (rs ++ f.retires p) p.memwb.instr + 3
  wbend : f.wbend = true → p.cycles = arrival p.stallFields rs p.wbend.instr + 4

/-- What a state of a run has to do with the account of R110, when `rs` has retired so far. -/
inductive Timed (f : Flight) (rs : List Retired) (p : State) : Prop
  | onTime (h : OnTime f rs p)
  | halted (hstatus : p.status = .halted) (ht : p.cycles = cycleCost p.stallFields rs + 4)
  | faulted (hstatus : p.status = .faulted)

theorem retires_of_instr {f : Flight} (h : f.wbend = true) (p : State) :
    f.retires p = [{ word := p.wbend.instr, taken := f.wbendTaken }] := by
  simp [Flight.retires, h]

theorem OnTime.committed {f : Flight} {rs : List Retired} {p : State} (h : OnTime f rs p) :
    OnTime (flightAfter f p) (rs ++ f.retires p) (Laws.committed p) where
  running := h.running
  flight := next_committed h.running f ▸ flightInv_committed h.running h.flight
  front := by
    rw [retires_committed]
    exact h.front.committed h.flight
  memwb he := by
    rw [retires_committed, committed_cycles, h.front.exmem_time he]
    rfl
  wbend hm := by
    rw [committed_cycles, h.memwb hm]
    rfl

/-- A `HALT` in WBEND is an instruction of the program, and no branch. -/
theorem OnTime.retires_halt {f : Flight} {rs : List Retired} {p : State} (h : OnTime f rs p)
    (hop : op p.wbend.instr = 6#10) : f.wbend = true ∧ f.retires p = [{ word := p.wbend.instr, taken := false }] := by
  obtain ⟨-, -, -, -, hbubble, -, htaken⟩ := h.flight
  have hw : f.wbend = true := by
    by_contra hw
    rw [hbubble (Bool.eq_false_iff.mpr hw)] at hop
    exact absurd hop (by decide)
  have hb : f.wbendTaken = false := by
    rw [Bool.eq_false_iff]
    intro hb
    exact absurd ((htaken hb).2.symm.trans hop) (by decide)
  exact ⟨hw, by rw [retires_of_instr hw, hb]⟩

theorem Timed.step {f : Flight} {rs : List Retired} {p t : State} (h : Timed f rs p) (hstep : Machine.step p = .next t) :
    Timed (f.next p t) (rs ++ f.retires p) t := by
  obtain ⟨hrun, hcases⟩ := step_cases hstep
  cases h with
  | onTime h =>
    obtain ⟨hhalt, rfl⟩ | ⟨-, -, rfl⟩ | ⟨-, -, rfl⟩ := hcases
    · obtain ⟨hw, hretires⟩ := h.retires_halt ((haltRetires_iff p).mp hhalt)
      refine .halted rfl ?_
      rw [hretires, cycleCost_append]
      exact h.wbend hw
    · exact .faulted rfl
    · rw [next_committed hrun]
      exact .onTime h.committed
  | halted hstatus => exact absurd (hrun.symm.trans hstatus) (by decide)
  | faulted hstatus => exact absurd (hrun.symm.trans hstatus) (by decide)

/-- What every step keeps, beside the record and the list of what has retired, a run keeps. -/
theorem exists_flight_of_runSteps {P : Flight → List Retired → State → Prop}
    (hstep : ∀ f rs p t, P f rs p → step p = .next t → P (f.next p t) (rs ++ f.retires p) t)
    {k : Nat} {f : Flight} {rs : List Retired} {p u : State} (h : P f rs p) (hrun : runSteps k p = .next u) :
    ∃ g, P g (rs ++ retired k f p) u := by
  induction k generalizing f rs p with
  | zero =>
    cases hrun
    exact ⟨f, by rw [retired_zero, List.append_nil]; exact h⟩
  | succ k ih =>
    obtain ⟨t, hpt, hrest⟩ := runSteps_succ_eq_next hrun
    rw [retired_succ_of_next hpt, ← List.append_assoc]
    exact ih (hstep f rs p t h hpt) hrest

theorem onTime_launch (l : Launch) : OnTime .empty [] (State.launch l) where
  running := launch_status l
  flight := (flowing_launch l).flight
  front := .empty rfl rfl rfl fun _ => rfl
  memwb h := absurd h (by decide)
  wbend h := absurd h (by decide)

theorem timed_of_runSteps {l : Launch} {k : Nat} {u : State} (h : runSteps k (State.launch l) = .next u) :
    ∃ f, Timed f (retiredBy l k) u :=
  exists_flight_of_runSteps (rs := []) (fun _ _ _ _ => Timed.step) (.onTime (onTime_launch l)) h

theorem runSteps_sameParams {k : Nat} {s u : State} (h : runSteps k s = .next u) : SameParams s u :=
  runSteps_invariant (P := SameParams s)
    (fun _ _ ht hstep => ⟨(step_sameParams hstep).1.trans ht.1, (step_sameParams hstep).2.trans ht.2⟩) ⟨rfl, rfl⟩ h

/-- Settles O54: the `HALT` retires four cycles after it could be in IFID, which costs what those before it do and one. -/
theorem cycleCountAtHalt : Obligations.CycleCountAtHalt := by
  intro l k u hrun hu
  obtain ⟨f, htimed⟩ := timed_of_runSteps hrun
  obtain ⟨-, hfields⟩ := runSteps_sameParams hrun
  rw [launch_stallFields] at hfields
  cases htimed with
  | onTime h => exact absurd (h.running.symm.trans hu) (by decide)
  | halted _ ht =>
    rw [ht, hfields, cycleCost]
    omega
  | faulted hstatus => exact absurd (hstatus.symm.trans hu) (by decide)

end Sys2Proof.Proofs
end

section
/-!
PROOFS. The cycle count read off the interpreter (R110, R79 d), and the well-formed program (R104): on the pipeline it reports
no fault, sets no flag, and halts, because every cycle is one of the interpreter's instructions or of those that R110 counts
as lost.
-/

namespace Sys2Proof.Proofs

open Sys2Proof Sys2Proof.Machine Sys2Proof.Safety Sys2Proof.Laws

/-! ### The cycle count on the interpreter's run -/

/-- The cycles lost on the interpreter's run are those that R110 counts on what retires: `S + 3*B`. -/
theorem lostCycles_eq {n : Nat} {s : State} (h : ∀ k, k < n → (seqAt k s).status = .running) :
    lostCycles n s = loadUses s.stallFields (seqRetired n s) + 3 * takenBranches (seqRetired n s) := by
  induction n generalizing s with
  | zero => rfl
  | succ n ih =>
    have hrun : s.status = .running := h 0 (by omega)
    have hstep : seqStep s = .next (seqAt 1 s) := seqStep_seqAt (n := 0) hrun
    have hrest := ih (s := seqAt 1 s) fun k hk => seqAt_succ_first k s ▸ h (k + 1) (by omega)
    have hbranch : takenBranches (seqRetired (n + 1) s) =
        takenBranches (seqRetired n (seqAt 1 s)) + (takesBranch s).toNat := by
      rw [seqRetired_succ_first hrun, takenBranches, List.countP_cons]
      cases takesBranch s <;> rfl
    have huse : loadUses s.stallFields (seqRetired (n + 1) s) =
        (if n ≠ 0 ∧ loadUsePair s (seqAt 1 s) = true then 1 else 0) +
          loadUses s.stallFields (seqRetired n (seqAt 1 s)) := by
      rw [seqRetired_succ_first hrun]
      cases n with
      | zero => rfl
      | succ n =>
        rw [seqRetired_succ_first (h 1 (by omega)), loadUses]
        exact congrArg (· + _) (if_congr ⟨fun hp => ⟨Nat.succ_ne_zero n, hp⟩, fun hp => hp.2⟩ rfl rfl)
    rw [(seqAt_params 1 s).2] at hrest
    have hlost : (if takesBranch s then 3 else 0) = 3 * (takesBranch s).toNat := by cases takesBranch s <;> rfl
    simp only [lostCycles, hstep, hrest, hbranch, huse, hlost]
    omega

/-- Settles O59: what has retired is what the interpreter ran, and the account of O54 is read off it. -/
theorem cycleCountFromInterpreter : Obligations.CycleCountFromInterpreter := by
  intro l k u _ hns hrun hu
  obtain ⟨f, htracks⟩ := tracks_of_runSteps hns hrun
  obtain ⟨n, h, hretired⟩ := htracks.of_halted hu
  refine ⟨n, seqAt n (State.launch l), h.seqHalts, ?_⟩
  rw [cycleCountAtHalt l k u hrun hu, hretired, seqRetired_length h.past, lostCycles_eq h.past, launch_stallFields]
  omega

/-! ### Where the interpreter stops -/

/-- The states that a run of the interpreter passes through run, and its last one is `seqAt`'s. -/
theorem seqAt_of_seqRun {n : Nat} {s t : State} (h : seqRun n s = .next t) :
    (∀ k, k < n → (seqAt k s).status = .running) ∧ seqAt n s = t := by
  have hpast : ∀ k, k < n → (seqAt k s).status = .running := by
    induction n generalizing s with
    | zero => exact fun k hk => absurd hk (Nat.not_lt_zero k)
    | succ n ih =>
      unfold seqRun at h
      cases hstep : seqStep s with
      | next q =>
        rw [hstep] at h
        intro k hk
        cases k with
        | zero => exact seqStep_running hstep
        | succ k =>
          rw [seqAt_succ_first, seqAt_one_of_next hstep]
          exact ih h k (by omega)
      | fault r => rw [hstep] at h; cases h
      | refused r => rw [hstep] at h; cases h
  exact ⟨hpast, Host.Outcome.next.inj ((seqRun_eq_seqAt hpast).symm.trans h)⟩

/-- The interpreter stops at one place only. -/
theorem stop_unique {m n : Nat} {s : State} (hm : ∀ k, k < m → (seqAt k s).status = .running)
    (hm' : (seqAt m s).status ≠ .running) (hn : ∀ k, k < n → (seqAt k s).status = .running)
    (hn' : (seqAt n s).status ≠ .running) : m = n := by
  obtain hlt | heq | hlt := Nat.lt_trichotomy m n
  · exact absurd (hn m hlt) hm'
  · exact heq
  · exact absurd (hm n hlt) hn'

theorem seqRetired_of_ended {s : State} (h : s.status ≠ .running) (n : Nat) : seqRetired n s = [] := by
  cases n with
  | zero => rfl
  | succ n =>
    unfold seqRetired
    cases hstep : seqStep s with
    | next t => exact absurd (seqStep_running hstep) h
    | fault r => rfl
    | refused r => rfl

/-- Nothing retires after the interpreter's last instruction. -/
theorem seqRetired_length_le {m : Nat} {s : State} (h : (seqAt m s).status ≠ .running) (n : Nat) :
    (seqRetired n s).length ≤ m := by
  induction m generalizing n s with
  | zero =>
    rw [seqRetired_of_ended (s := s) h]
    exact le_rfl
  | succ m ih =>
    by_cases hrun : s.status = .running
    · cases n with
      | zero => exact Nat.zero_le _
      | succ n =>
        rw [seqRetired_succ_first hrun, List.length_cons]
        exact Nat.succ_le_succ (ih (seqAt_succ_first m s ▸ h) n)
    · rw [seqRetired_of_ended hrun]
      exact Nat.zero_le _

/-! ### The interpreter's flag -/

/-- The word of a well-formed instruction is supported (R58, R104 b). -/
theorem supported_of_wellFormed {w : Word} (hdef : instrOf w ≠ none) (hwf : ∀ i, instrOf w = some i → i.wellFormed = true) :
    unsupported w = false := by
  rw [Bool.eq_false_iff, ne_eq, unsupported_iff]
  rintro (hop | hop)
  · exact absurd (hwf _ (instrOf_jalr hop)) (by simp [Instr.wellFormed, Instr.check])
  · exact hdef (instrOf_undefined hop)

/-- A supported word keeps the interpreter's flag (R94). -/
theorem seqStep_flag_of_supported {s t : State} (h : seqStep s = .next t) (hsup : unsupported (seqWord s) = false) :
    t.flagUnsupported = s.flagUnsupported := by
  obtain ⟨-, ⟨-, rfl⟩ | ⟨-, -, rfl⟩ | ⟨-, -, rfl⟩⟩ := seqStep_cases h
  · rfl
  · rfl
  · exact stickyUnsupported_of_supported hsup _

/-- Where only supported words run the interpreter's flag stays as it was. -/
theorem seqAt_flag_of_supported {n : Nat} {s : State} (hpast : ∀ k, k < n → (seqAt k s).status = .running)
    (hsup : ∀ k, k < n → unsupported (seqWord (seqAt k s)) = false) :
    (seqAt n s).flagUnsupported = s.flagUnsupported := by
  induction n with
  | zero => rfl
  | succ n ih =>
    rw [seqStep_flag_of_supported (seqStep_seqAt (hpast n (by omega))) (hsup n (by omega))]
    exact ih (fun k hk => hpast k (by omega)) fun k hk => hsup k (by omega)

/-- What a well-formed program makes of the interpreter's run from `s` (R104): it stops at a `HALT` that is its `n`-th
instruction, with the flag as it was, and the word behind the `HALT` faults no access. -/
structure StopsSafely (s : State) (n : Nat) : Prop where
  past : ∀ k, k < n → (seqAt k s).status = .running
  halted : (seqAt n s).status = .halted
  behind : ∃ t, behindHalt (wordBehind s n) (seqAt n s) = .ok t
  flag : (seqAt n s).flagUnsupported = s.flagUnsupported

theorem StopsSafely.ended {s : State} {n : Nat} (h : StopsSafely s n) : (seqAt n s).status ≠ .running := by
  rw [h.halted]
  decide

theorem stopsSafely_of_wellFormedProgram {l : Launch} (h : WellFormedProgram l) : ∃ n, StopsSafely (State.launch l) n := by
  obtain ⟨-, -, hwf, hdef, n, t, t', ⟨hrun, hhalt⟩, hbehind⟩ := h
  obtain ⟨hpast, rfl⟩ := seqAt_of_seqRun hrun
  refine ⟨n, hpast, hhalt, ⟨t', hbehind⟩, seqAt_flag_of_supported hpast fun k hk => ?_⟩
  have hk' : seqRun k (State.launch l) = .next (seqAt k (State.launch l)) :=
    seqRun_eq_seqAt fun j hj => hpast j (by omega)
  exact supported_of_wellFormed (hdef k _ hk' (hpast k hk)) fun i => hwf k _ i hk' (hpast k hk)

/-! ### Termination -/

theorem loadUses_le (fields : StallFields) (rs : List Retired) : loadUses fields rs ≤ rs.length := by
  induction rs using List.reverseRecOn with
  | nil => exact le_rfl
  | append_singleton rs r ih =>
    have hlast := stallBehind_le fields rs r.word
    rw [loadUses_append fields rs r.word r.taken, List.length_append, List.length_singleton]
    omega

/-- No instruction takes more than five cycles. -/
theorem cycleCost_le (fields : StallFields) (rs : List Retired) : cycleCost fields rs ≤ 5 * rs.length := by
  have huse := loadUses_le fields rs
  have hbranch : takenBranches rs ≤ rs.length := List.countP_le_length
  unfold cycleCost
  omega

theorem arrival_le (fields : StallFields) (rs : List Retired) (w : Word) : arrival fields rs w ≤ 5 * rs.length + 2 := by
  have hcost := cycleCost_le fields rs
  have hstall := stallBehind_le fields rs w
  unfold arrival
  omega

theorem FrontOnTime.cycles_le {f : Flight} {rs : List Retired} {p : State} (h : FrontOnTime f rs p) :
    p.cycles ≤ 5 * rs.length + 4 := by
  have hle := arrival_le p.stallFields rs
  cases h with
  | full _ _ _ _ ht | stalled _ _ _ _ ht => have := hle p.exmem.instr; omega
  | fromIdex _ _ _ ht => have := hle p.idex.instr; omega
  | fromIfid _ _ _ ht => have := hle p.ifid.instr; omega
  | empty _ _ _ ht => have := hle noopWord; have := ht noopWord; omega

theorem retiresNext_length_le (f : Flight) (p : State) : (retiresNext f p).length ≤ 1 := by
  unfold retiresNext
  split <;> simp

/-- The pipeline does not run long without retiring an instruction. -/
theorem OnTime.cycles_le {f : Flight} {rs : List Retired} {p : State} (h : OnTime f rs p) :
    p.cycles ≤ 5 * rs.length + 14 := by
  have hle := h.front.cycles_le
  have hwb := retires_length_le f p
  have hmem := retiresNext_length_le f p
  rw [List.length_append, List.length_append] at hle
  omega

/-- A run ends, or goes on for as long as one likes (R77). -/
theorem exists_ended_or_running {s : State} (hs : s.status = .running) (k : Nat) :
    (∃ j u, runSteps j s = .next u ∧ u.status ≠ .running) ∨ ∃ u, runSteps k s = .next u ∧ u.status = .running := by
  induction k with
  | zero => exact .inr ⟨s, rfl, hs⟩
  | succ k ih =>
    obtain hended | ⟨u, hu, hrun⟩ := ih
    · exact .inl hended
    · have hnext : runSteps (k + 1) s = .next (cycle u) := by
        rw [runSteps_add hu, runSteps_succ_of_next (step_of_running hrun), runSteps_zero]
      by_cases ht : (cycle u).status = .running
      · exact .inr ⟨_, hnext, ht⟩
      · exact .inl ⟨_, _, hnext, ht⟩

section WellFormed

variable {l : Launch} {n : Nat} (hns : NoStaleFetch (State.launch l)) (hstop : StopsSafely (State.launch l) n)

include hns hstop

/-- The pipeline ends where the interpreter does: it retires no more, and so has no more cycles to run. -/
theorem StopsSafely.exists_ended : ∃ k u, runSteps k (State.launch l) = .next u ∧ u.status ≠ .running := by
  obtain hended | ⟨u, hu, hrun⟩ := exists_ended_or_running (launch_status l) (5 * n + 15)
  · exact hended
  · obtain ⟨f, htracks⟩ := tracks_of_runSteps hns hu
    obtain ⟨m, rest, hr⟩ := htracks.exists_append
    have hlen := congrArg List.length hr
    rw [List.length_append] at hlen
    have hbound := seqRetired_length_le hstop.ended m
    have hcycles := runSteps_cycles_of_running hu hrun
    rw [launch_cycles] at hcycles
    obtain ⟨g, htimed⟩ := timed_of_runSteps hu
    cases htimed with
    | onTime h =>
      have hle := h.cycles_le
      omega
    | halted hstatus => exact absurd (hrun.symm.trans hstatus) (by decide)
    | faulted hstatus => exact absurd (hrun.symm.trans hstatus) (by decide)

/-- A fault of the pipeline would be one of the interpreter's, or of the word behind its `HALT` (R79). -/
theorem StopsSafely.not_faulted {k : Nat} {u : State} (hu : runSteps k (State.launch l) = .next u) :
    u.status ≠ .faulted := by
  intro hfault
  obtain ⟨f, htracks⟩ := tracks_of_runSteps hns hu
  obtain ⟨r, m, -, hpast, ⟨hm, -⟩ | ⟨hm, hbehind, -⟩⟩ := htracks.of_faulted hfault
  · obtain rfl := stop_unique hpast (by rw [hm]; decide) hstop.past hstop.ended
    exact absurd (hm.symm.trans hstop.halted) (by decide)
  · obtain rfl := stop_unique hpast (by rw [hm]; decide) hstop.past hstop.ended
    obtain ⟨t, ht⟩ := hstop.behind
    rw [ht] at hbehind
    cases hbehind

theorem StopsSafely.exists_halted :
    ∃ k u, runSteps k (State.launch l) = .next u ∧ u.status = .halted ∧ u.flagUnsupported = false := by
  obtain ⟨k, u, hu, hended⟩ := hstop.exists_ended hns
  have hhalt : u.status = .halted := by
    cases hstatus : u.status with
    | running => exact absurd hstatus hended
    | halted => rfl
    | faulted => exact absurd hstatus (hstop.not_faulted hns hu)
  obtain ⟨f, htracks⟩ := tracks_of_runSteps hns hu
  obtain ⟨m, hm, -⟩ := htracks.of_halted hhalt
  obtain rfl := stop_unique hm.past (by rw [hm.halted]; decide) hstop.past hstop.ended
  exact ⟨k, u, hu, hhalt, hm.flag.symm.trans hstop.flag⟩

end WellFormed

/-- A flag set at any time of a run that ends is set at its end (R24). -/
theorem flag_of_reaches {s p u : State} {j k : Nat} (hp : runSteps j s = .next p) (hu : runSteps k s = .next u)
    (hended : u.status ≠ .running) (hflag : p.flagUnsupported = true) : u.flagUnsupported = true := by
  obtain ⟨d, rfl⟩ | ⟨d, rfl⟩ : (∃ d, k = j + d) ∨ ∃ d, j = k + d := by
    obtain h | h := Nat.le_total j k
    · exact .inl (Nat.exists_eq_add_of_le h)
    · exact .inr (Nat.exists_eq_add_of_le h)
  · rw [runSteps_add hp] at hu
    exact runSteps_invariant (P := fun q => q.flagUnsupported = true) (fun _ _ hq hstep => step_keeps_flag hstep hq) hflag hu
  · rw [runSteps_add hu] at hp
    obtain rfl := runSteps_of_ended hended hp
    cases hp
    exact hflag

/-- Settles O55: the run ends, as the interpreter's, at the `HALT`, and a flag set on the way would still be set there. -/
theorem wellFormedProgramRunsSafely : Obligations.WellFormedProgramRunsSafely := by
  intro l hwf
  obtain ⟨n, hstop⟩ := stopsSafely_of_wellFormedProgram hwf
  obtain ⟨-, hns, -⟩ := hwf
  obtain ⟨k, u, hu, hhalt, hflag⟩ := hstop.exists_halted hns
  refine ⟨fun p ⟨j, hp⟩ => ⟨hstop.not_faulted hns hp, ?_⟩, k, u, hu, hhalt⟩
  rw [Bool.eq_false_iff]
  intro hset
  have hend := flag_of_reaches hp hu (by rw [hhalt]; decide) hset
  rw [hflag] at hend
  cases hend

end Sys2Proof.Proofs
end
